-- ==== Sys2Proof/Word.lean ====
section
/-! DEFINITION. The widths of the machine: 32-bit registers, addresses and instructions, bytes of memory
(00_scope.md R5 `XLEN`, `ILEN`; 20_memory.md R52). -/

namespace Sys2Proof

/-- A 32-bit register, address or instruction word (00_scope.md R5, R6). -/
abbrev Word := BitVec 32

/-- One byte, the smallest part of a word that memory is kept in (20_memory.md R51, R56). -/
abbrev Byte := BitVec 8

end Sys2Proof
end

