-- ==== Sys2Proof/Config.lean ====
section
/-! DEFINITION. The parameters of the machine (00_scope.md R5, 10_state.md R41), as plain data that a
launch state gives (70_reset_and_hazards.md R212) and no instruction changes. `State.params` holds them, so
a statement about every state is about every value of every parameter (log 4). -/

namespace Sys2Proof

/-- The address unit: what one address names (20_memory.md R51, decision D1). -/
inductive AddrUnit where
  /-- `W` = 4: an address names a byte. -/
  | byte
  /-- `W` = 1: an address names a 32-bit word. -/
  | word
  deriving DecidableEq, Repr

/-- Byte order of a word's four bytes (20_memory.md R56, decision D2). -/
inductive ByteOrder where
  | little
  | big
  deriving DecidableEq, Repr

/-- Which bits of the CPSR are N, Z, C and V (10_state.md R32, parameter `CPSR_LAYOUT`, decision D5). -/
structure CpsrLayout where
  n : Fin 8
  z : Fin 8
  c : Fin 8
  v : Fin 8
  deriving DecidableEq, Repr

/-- A run of consecutive addresses, in address units. -/
structure Region where
  base : Nat
  size : Nat
  deriving DecidableEq, Repr

/-- Meaning of special-class op-code 0010 (43_special.md R182, parameter `SPECIAL_RETURN`, decision D20). -/
inductive SpecialReturn where
  /-- A second encoding of `return` (the spec's value "alias"). -/
  | secondEncoding
  /-- An invalid instruction. -/
  | invalid
  deriving DecidableEq, Repr

/-- Interrupt sources other than the invalid instruction (60_exceptions.md R197, parameter `EXT_INTERRUPTS`,
decision D25). -/
inductive ExtInterrupts where
  /-- No such source, the default and the only value to which the spec gives a meaning: with another one "a model
  that adds an interrupt source must supply" entry, masking and wake-up itself (43_special.md R181; log 19). -/
  | none
  deriving DecidableEq, Repr

/-- The open parameters of 00_scope.md R5 (10_state.md R41). -/
structure Params where
  /-- `W` (D1). -/
  unit : AddrUnit
  /-- `BYTE_ORDER` (D2). -/
  byteOrder : ByteOrder
  /-- `CPSR_LAYOUT` (D5). -/
  layout : CpsrLayout
  /-- `RESET_PC` (D14). -/
  resetPc : Word
  /-- `MEM_POPULATED` (D26): the addresses at which memory exists. -/
  populated : List Region
  /-- `UNIFIED_MEMORY` (D16). -/
  unified : Bool
  /-- The addresses of the program text (20_memory.md R63; placed by the launch state, R212). -/
  text : List Region
  /-- `SPECIAL_RETURN` (D20). -/
  specialReturn : SpecialReturn
  /-- `EXT_INTERRUPTS` (D25). -/
  extInterrupts : ExtInterrupts
  /-- The model's own parameter that D16 and U4 allow: with `UNIFIED_MEMORY` true, a fetch sees what a
  `store` has written. DESIGN CHOICE (log 11): false, so R63 holds as written. -/
  coherentFetch : Bool
  deriving DecidableEq, Repr

/-- The default `CPSR_LAYOUT`: N, Z, C, V are bits 7, 6, 5, 4 (10_state.md R32). -/
def CpsrLayout.default : CpsrLayout := { n := 7, z := 6, c := 5, v := 4 }

/-- The defaults of 00_scope.md R5. DESIGN CHOICE (log 5): R5 gives `MEM_POPULATED` no default, and here
every address holds memory. -/
def Params.default : Params where
  unit := .byte
  byteOrder := .little
  layout := CpsrLayout.default
  resetPc := 0
  populated := [{ base := 0, size := 4294967296 }]
  unified := true
  text := []
  specialReturn := .secondEncoding
  extInterrupts := .none
  coherentFetch := false

/-- `W`: how many addresses one word occupies, and by how much the PC advances (20_memory.md R51). -/
def Params.wordUnits (p : Params) : Nat :=
  match p.unit with
  | .byte => 4
  | .word => 1

end Sys2Proof
end

