-- ==== Sys2Proof/Syntax.lean ====
section
/-! DEFINITION. The instructions: one constructor of `Instr` per row of opcode_table.json
(30_encoding.md R71 to R88), with register numbers, conditions and methods already named. -/

namespace Sys2Proof

/-- The fifteen conditions of bits 31-28 (30_encoding.md R72). Code 1111 names none (R73). -/
inductive Cond where
  | eq | ne | cs | cc | mi | pl | vs | vc | hi | ls | ge | lt | gt | le | al
  deriving DecidableEq, Repr

/-- The 17 registers (10_state.md R20). -/
inductive Reg where
  /-- R0 to R12, codes 00000 to 01100. -/
  | r (i : Fin 13)
  /-- Link Register, code 01101. -/
  | lr
  /-- Stack Pointer, code 01110. -/
  | sp
  /-- Program counter, code 01111. -/
  | pc
  /-- Current Program Status Register, code 10000. -/
  | cpsr
  deriving DecidableEq, Repr

/-- The bit manipulation methods (30_encoding.md R78). -/
inductive ShiftMethod where
  /-- Rotate left, 00. -/
  | rol
  /-- Logical shift left, 01. -/
  | lsl
  /-- Logical shift right, 10. -/
  | lsr
  /-- Arithmetic shift right, 11. -/
  | asr
  deriving DecidableEq, Repr

/-- A method and its 6-bit unsigned amount 0..63 (30_encoding.md R78, R79). -/
structure Shift where
  method : ShiftMethod
  amount : BitVec 6
  deriving DecidableEq, Repr

/-- Operand 1 of the common scheme (30_encoding.md R81). -/
inductive Op1 where
  /-- Immidiate Enable Bit 1: the unsigned number 0..31 in bits 12-8. -/
  | imm (k : BitVec 5)
  /-- Immidiate Enable Bit 0: the register coded in bits 11-8. -/
  | reg (r : Reg)
  deriving DecidableEq, Repr

/-- One constructor per row of opcode_table.json. Fields a row ignores (30_encoding.md R93) are not kept. -/
inductive Instr where
  /-- `load`, offset form (R77, R101). -/
  | loadOff (c : Cond) (wb : Bool) (off : BitVec 13) (ra rd : Reg)
  /-- `load`, shift form (R78, R101). -/
  | loadShift (c : Cond) (wb : Bool) (sh : Shift) (ra rd : Reg)
  /-- `store`, offset form (R77, R102). -/
  | storeOff (c : Cond) (wb : Bool) (off : BitVec 13) (ra rs : Reg)
  /-- `store`, shift form (R78, R102). -/
  | storeShift (c : Cond) (wb : Bool) (sh : Shift) (ra rs : Reg)
  /-- `AND` (R124). -/
  | and (c : Cond) (a : Op1) (rm : Reg) (sh : Shift) (rd : Reg)
  /-- `EOR` (R125). -/
  | eor (c : Cond) (a : Op1) (rm : Reg) (sh : Shift) (rd : Reg)
  /-- `SUB` (R126). -/
  | sub (c : Cond) (a : Op1) (rm : Reg) (sh : Shift) (rd : Reg)
  /-- `RSB` (R127). -/
  | rsb (c : Cond) (a : Op1) (rm : Reg) (sh : Shift) (rd : Reg)
  /-- `ADD` (R128). -/
  | add (c : Cond) (a : Op1) (rm : Reg) (sh : Shift) (rd : Reg)
  /-- `ADC` (R129). -/
  | adc (c : Cond) (a : Op1) (rm : Reg) (sh : Shift) (rd : Reg)
  /-- `SBC` (R130). -/
  | sbc (c : Cond) (a : Op1) (rm : Reg) (sh : Shift) (rd : Reg)
  /-- `RSC` (R131). -/
  | rsc (c : Cond) (a : Op1) (rm : Reg) (sh : Shift) (rd : Reg)
  /-- `TST` (R132). -/
  | tst (c : Cond) (a : Op1) (rm : Reg)
  /-- `TEQ` (R133). -/
  | teq (c : Cond) (a : Op1) (rm : Reg)
  /-- `CMP` (R134). -/
  | cmp (c : Cond) (a : Op1) (rm : Reg)
  /-- `CMN` (R135). -/
  | cmn (c : Cond) (a : Op1) (rm : Reg)
  /-- `ORR` (R136). -/
  | orr (c : Cond) (a : Op1) (rm : Reg) (sh : Shift) (rd : Reg)
  /-- `BIC` (R139). -/
  | bic (c : Cond) (a : Op1) (rm : Reg) (sh : Shift) (rd : Reg)
  /-- `MVN` (R140): operand 1 is ignored. -/
  | mvn (c : Cond) (rm : Reg) (sh : Shift) (rd : Reg)
  /-- `MOV`, immediate form (R82, R137). -/
  | movImm (c : Cond) (high : Bool) (imm : BitVec 16) (rd : Reg)
  /-- `MOV`, register form (R83, R138). -/
  | movReg (c : Cond) (sh : Shift) (rs rd : Reg)
  /-- `jump`, immediate form (R85, R161). -/
  | jumpImm (c : Cond) (off : BitVec 23)
  /-- `jump`, register as offset (R86, R161). -/
  | jumpRegOff (c : Cond) (rs : Reg)
  /-- `jump`, register as address (R86, R161). -/
  | jumpRegAbs (c : Cond) (rs : Reg)
  /-- `jumpl`, immediate form (R85, R162). -/
  | jumplImm (c : Cond) (off : BitVec 23)
  /-- `jumpl`, register as offset (R86, R162). -/
  | jumplRegOff (c : Cond) (rs : Reg)
  /-- `jumpl`, register as address (R86, R162). -/
  | jumplRegAbs (c : Cond) (rs : Reg)
  /-- `return`, class 10 (R87, R163). -/
  | ret (c : Cond)
  /-- `pass` (R88, R180). -/
  | pass (c : Cond)
  /-- `halt` (R88, R181). -/
  | halt (c : Cond)
  /-- `return`, class 11 op-code 0010 (R88, R182). -/
  | retSpecial (c : Cond)
  deriving DecidableEq, Repr

/-- The condition field every instruction carries (30_encoding.md R71). -/
def Instr.cond : Instr → Cond
  | .loadOff c _ _ _ _ | .loadShift c _ _ _ _ | .storeOff c _ _ _ _ | .storeShift c _ _ _ _
  | .and c _ _ _ _ | .eor c _ _ _ _ | .sub c _ _ _ _ | .rsb c _ _ _ _
  | .add c _ _ _ _ | .adc c _ _ _ _ | .sbc c _ _ _ _ | .rsc c _ _ _ _
  | .tst c _ _ | .teq c _ _ | .cmp c _ _ | .cmn c _ _
  | .orr c _ _ _ _ | .bic c _ _ _ _ | .mvn c _ _ _
  | .movImm c _ _ _ | .movReg c _ _ _
  | .jumpImm c _ | .jumpRegOff c _ | .jumpRegAbs c _
  | .jumplImm c _ | .jumplRegOff c _ | .jumplRegAbs c _
  | .ret c | .pass c | .halt c | .retSpecial c => c

end Sys2Proof
end

