-- ==== Sys2Proof/WellFormed.lean ====
section
/-! DEFINITION. Which instructions an encoding can hold: the register restrictions of 10_state.md R21, R31
and 40_data_movement.md R104, and the parameter `SPECIAL_RETURN` (43_special.md R182). -/

namespace Sys2Proof

/-- A 4-bit register field names R0 to R12, LR, SP and PC, never CPSR (10_state.md R21). -/
def Reg.fourBit (r : Reg) : Bool :=
  match r with
  | .cpsr => false
  | .r _ | .lr | .sp | .pc => true

/-- Operand 1 as a register has a 4-bit code (30_encoding.md R81). -/
def Op1.wf (a : Op1) : Bool :=
  match a with
  | .imm _ => true
  | .reg r => r.fourBit

/-- The instructions that the encodings of 30_encoding.md can hold under the parameters `p`. -/
def Instr.wf (p : Params) (i : Instr) : Bool :=
  match i with
  | .loadOff _ _ _ ra rd | .loadShift _ _ _ ra rd => ra.fourBit && rd.fourBit
  | .storeOff _ _ _ ra _ | .storeShift _ _ _ ra _ => ra.fourBit
  | .and _ a rm _ rd | .eor _ a rm _ rd | .sub _ a rm _ rd | .rsb _ a rm _ rd
  | .add _ a rm _ rd | .adc _ a rm _ rd | .sbc _ a rm _ rd | .rsc _ a rm _ rd
  | .orr _ a rm _ rd | .bic _ a rm _ rd => a.wf && rm.fourBit && rd.fourBit
  | .tst _ a rm | .teq _ a rm | .cmp _ a rm | .cmn _ a rm => a.wf && rm.fourBit
  | .mvn _ rm _ rd => rm.fourBit && rd.fourBit
  | .movImm _ _ _ rd => rd.fourBit
  | .movReg _ _ _ _ => true
  | .jumpImm _ _ | .jumplImm _ _ => true
  | .jumpRegOff _ rs | .jumpRegAbs _ rs | .jumplRegOff _ rs | .jumplRegAbs _ rs => rs.fourBit
  | .ret _ | .pass _ | .halt _ => true
  | .retSpecial _ => p.specialReturn == .secondEncoding

/-- The four flags have four different bits of the CPSR (10_state.md R32). -/
def CpsrLayout.wf (l : CpsrLayout) : Bool :=
  l.n != l.z && l.n != l.c && l.n != l.v && l.z != l.c && l.z != l.v && l.c != l.v

/-- What R5 and R39 ask of the parameters: distinct flag bits, and a reset PC that is a multiple of `W`. -/
def Params.wf (p : Params) : Bool :=
  p.layout.wf && p.resetPc.toNat % p.wordUnits == 0

end Sys2Proof
end

