-- ==== Sys2Proof/Decode.lean ====
section
/-! DEFINITION. The decoder of 30_encoding.md R90, total on every 32-bit word, and the encoder written from
the same figures. -/

namespace Sys2Proof

/-! ### Codes of the small fields -/

/-- The condition codes of 30_encoding.md R72. -/
def Cond.code (c : Cond) : BitVec 4 :=
  match c with
  | .eq => 0b0000#4 | .ne => 0b0001#4 | .cs => 0b0010#4 | .cc => 0b0011#4
  | .mi => 0b0100#4 | .pl => 0b0101#4 | .vs => 0b0110#4 | .vc => 0b0111#4
  | .hi => 0b1000#4 | .ls => 0b1001#4 | .ge => 0b1010#4 | .lt => 0b1011#4
  | .gt => 0b1100#4 | .le => 0b1101#4 | .al => 0b1110#4

/-- The condition of a code; 1111 is none (30_encoding.md R72, R73). -/
def Cond.ofCode (k : BitVec 4) : Option Cond :=
  match k.toNat with
  | 0 => some .eq | 1 => some .ne | 2 => some .cs | 3 => some .cc
  | 4 => some .mi | 5 => some .pl | 6 => some .vs | 7 => some .vc
  | 8 => some .hi | 9 => some .ls | 10 => some .ge | 11 => some .lt
  | 12 => some .gt | 13 => some .le | 14 => some .al
  | _ => none

/-- The five-bit code of a register (10_state.md R20). -/
def Reg.code5 (r : Reg) : BitVec 5 :=
  match r with
  | .r i => BitVec.ofNat 5 i.val
  | .lr => 0b01101#5
  | .sp => 0b01110#5
  | .pc => 0b01111#5
  | .cpsr => 0b10000#5

/-- The register of a five-bit code; 10001 to 11111 name none (10_state.md R21). -/
def Reg.ofCode5 (k : BitVec 5) : Option Reg :=
  if h : k.toNat < 13 then some (.r ⟨k.toNat, h⟩)
  else match k.toNat with
    | 13 => some .lr
    | 14 => some .sp
    | 15 => some .pc
    | 16 => some .cpsr
    | _ => none

/-- A 4-bit field holds the low four bits of the code (10_state.md R21). -/
def Reg.code4 (r : Reg) : BitVec 4 := r.code5.setWidth 4

/-- The register of a 4-bit field: R0 to R12, LR, SP, PC (10_state.md R21). -/
def Reg.ofCode4 (k : BitVec 4) : Reg :=
  if h : k.toNat < 13 then .r ⟨k.toNat, h⟩
  else match k.toNat with
    | 13 => .lr
    | 14 => .sp
    | _ => .pc

/-- The method codes of 30_encoding.md R78. -/
def ShiftMethod.code (m : ShiftMethod) : BitVec 2 :=
  match m with
  | .rol => 0b00#2
  | .lsl => 0b01#2
  | .lsr => 0b10#2
  | .asr => 0b11#2

/-- The method of a 2-bit code (30_encoding.md R78). -/
def ShiftMethod.ofCode (k : BitVec 2) : ShiftMethod :=
  match k.toNat with
  | 0 => .rol
  | 1 => .lsl
  | 2 => .lsr
  | _ => .asr

/-! ### The decoder -/

/-- The bits `hi` down to `lo` of an instruction word, `v[hi:lo]` of 00_scope.md R6. -/
def field (w : Word) (hi lo : Nat) : BitVec (hi - lo + 1) := w.extractLsb' lo (hi - lo + 1)

/-- One bit of an instruction word, `v[i]` of 00_scope.md R6. -/
def bit (w : Word) (i : Nat) : Bool := w.getLsbD i

/-- Why a word with a defined op-code has no meaning (30_encoding.md R92; 93_implementation_defined.md U5,
U7, U8, U9). -/
inductive EncodingReason where
  /-- U5: bits 31-28 = 1111 (R73). -/
  | condition1111
  /-- U7: a reserved zero field holds a 1 (R92). -/
  | nonzeroReservedField
  /-- U8: a 5-bit register field holds 10001 to 11111 (R92). -/
  | registerCode
  /-- U9: `load` with bits 4-0 = 10000 (R92, 40_data_movement.md R104). -/
  | cpsrAsLoadDestination
  deriving DecidableEq, Repr

/-- What a word is (30_encoding.md R90). -/
inductive Decoded where
  | valid (i : Instr)
  /-- An op-code absent from its class's table, with its condition (R91). -/
  | invalid (c : Cond)
  | unspecified (why : EncodingReason)
  deriving DecidableEq, Repr

/-- `Shifted(method, value)` of `load` and `store`: bits 16-15 and 14-9 (30_encoding.md R78). -/
def addressShift (w : Word) : Shift := ⟨.ofCode (field w 16 15), field w 14 9⟩

/-- Method and amount of a data processing instruction: bits 20-19 and 18-13 (30_encoding.md R79, R83). -/
def resultShift (w : Word) : Shift := ⟨.ofCode (field w 20 19), field w 18 13⟩

/-- Operand 1 of the common scheme: bit 21 and bits 12-8, bit 12 ignored for a register (30_encoding.md R81). -/
def operand1 (w : Word) : Op1 :=
  if bit w 21 then .imm (field w 12 8) else .reg (.ofCode4 (field w 11 8))

/-- Class 00, op-code 00 (30_encoding.md R76 to R78, R90). -/
def decodeLoad (c : Cond) (w : Word) : Decoded :=
  if bit w 23 = false ∧ field w 21 17 ≠ 0 then .unspecified .nonzeroReservedField
  else match Reg.ofCode5 (field w 4 0) with
    | none => .unspecified .registerCode
    | some rd =>
      if rd = .cpsr then .unspecified .cpsrAsLoadDestination
      else if bit w 23 then
        .valid (.loadOff c (bit w 22) (field w 21 9) (.ofCode4 (field w 8 5)) rd)
      else .valid (.loadShift c (bit w 22) (addressShift w) (.ofCode4 (field w 8 5)) rd)

/-- Class 00, op-code 01 (30_encoding.md R76 to R78, R90). -/
def decodeStore (c : Cond) (w : Word) : Decoded :=
  if bit w 23 = false ∧ field w 21 17 ≠ 0 then .unspecified .nonzeroReservedField
  else match Reg.ofCode5 (field w 4 0) with
    | none => .unspecified .registerCode
    | some rs =>
      if bit w 23 then
        .valid (.storeOff c (bit w 22) (field w 21 9) (.ofCode4 (field w 8 5)) rs)
      else .valid (.storeShift c (bit w 22) (addressShift w) (.ofCode4 (field w 8 5)) rs)

/-- Class 00, Data Movement (30_encoding.md R75, R90). -/
def decodeDataMovement (c : Cond) (w : Word) : Decoded :=
  match (field w 25 24).toNat with
  | 0 => decodeLoad c w
  | 1 => decodeStore c w
  | _ => .invalid c

/-- `MOV`, op-code 1101 of class 01 (30_encoding.md R82, R83, R90). -/
def decodeMov (c : Cond) (w : Word) : Decoded :=
  if bit w 21 then .valid (.movImm c (bit w 20) (field w 19 4) (.ofCode4 (field w 3 0)))
  else if field w 12 10 ≠ 0 then .unspecified .nonzeroReservedField
  else match Reg.ofCode5 (field w 9 5), Reg.ofCode5 (field w 4 0) with
    | some rs, some rd => .valid (.movReg c (resultShift w) rs rd)
    | _, _ => .unspecified .registerCode

/-- Class 01, Data Processing: all sixteen op-codes are defined (30_encoding.md R79 to R81, R90). -/
def decodeDataProcessing (c : Cond) (w : Word) : Decoded :=
  let a := operand1 w
  let rm := Reg.ofCode4 (field w 7 4)
  let sh := resultShift w
  let rd := Reg.ofCode4 (field w 3 0)
  match (field w 25 22).toNat with
  | 0 => .valid (.and c a rm sh rd)
  | 1 => .valid (.eor c a rm sh rd)
  | 2 => .valid (.sub c a rm sh rd)
  | 3 => .valid (.rsb c a rm sh rd)
  | 4 => .valid (.add c a rm sh rd)
  | 5 => .valid (.adc c a rm sh rd)
  | 6 => .valid (.sbc c a rm sh rd)
  | 7 => .valid (.rsc c a rm sh rd)
  | 8 => .valid (.tst c a rm)
  | 9 => .valid (.teq c a rm)
  | 10 => .valid (.cmp c a rm)
  | 11 => .valid (.cmn c a rm)
  | 12 => .valid (.orr c a rm sh rd)
  | 13 => decodeMov c w
  | 14 => .valid (.bic c a rm sh rd)
  | _ => .valid (.mvn c rm sh rd)

/-- `jump` and `jumpl`: the three forms of 30_encoding.md R85, R86. -/
def decodeJump (link : Bool) (c : Cond) (w : Word) : Decoded :=
  if bit w 23 then
    .valid (if link then .jumplImm c (field w 22 0) else .jumpImm c (field w 22 0))
  else if field w 21 4 ≠ 0 then .unspecified .nonzeroReservedField
  else
    let rs := Reg.ofCode4 (field w 3 0)
    if bit w 22 then .valid (if link then .jumplRegOff c rs else .jumpRegOff c rs)
    else .valid (if link then .jumplRegAbs c rs else .jumpRegAbs c rs)

/-- Class 10, Controll Flow (30_encoding.md R84 to R87, R90). -/
def decodeControlFlow (c : Cond) (w : Word) : Decoded :=
  match (field w 25 24).toNat with
  | 0 => decodeJump false c w
  | 1 => decodeJump true c w
  | 2 => if field w 23 0 ≠ 0 then .unspecified .nonzeroReservedField else .valid (.ret c)
  | _ => .invalid c

/-- Class 11, Special Instructions (30_encoding.md R88, R90). -/
def decodeSpecial (p : Params) (c : Cond) (w : Word) : Decoded :=
  let op := (field w 25 22).toNat
  if 3 ≤ op then .invalid c
  else if op = 2 ∧ p.specialReturn = .invalid then .invalid c
  else if field w 21 0 ≠ 0 then .unspecified .nonzeroReservedField
  else match op with
    | 0 => .valid (.pass c)
    | 1 => .valid (.halt c)
    | _ => .valid (.retSpecial c)

/-- `Decode(word)` of 30_encoding.md R90, with the test of condition 1111 that comes before it
(00_scope.md R13, 30_encoding.md R73). -/
def decode (p : Params) (w : Word) : Decoded :=
  match Cond.ofCode (field w 31 28) with
  | none => .unspecified .condition1111
  | some c =>
    match (field w 27 26).toNat with
    | 0 => decodeDataMovement c w
    | 1 => decodeDataProcessing c w
    | 2 => decodeControlFlow c w
    | _ => decodeSpecial p c w

/-! ### The encoder -/

/-- A data movement word in offset form (30_encoding.md R75 to R77). -/
def movementOffsetWord (c : BitVec 4) (op : BitVec 2) (wb : Bool) (off : BitVec 13) (ra : BitVec 4)
    (r5 : BitVec 5) : Word :=
  c ++ 0b00#2 ++ op ++ 1#1 ++ BitVec.ofBool wb ++ off ++ ra ++ r5

/-- A data movement word in shift form, bits 21-17 zero (30_encoding.md R75, R76, R78). -/
def movementShiftWord (c : BitVec 4) (op : BitVec 2) (wb : Bool) (m : BitVec 2) (n : BitVec 6)
    (ra : BitVec 4) (r5 : BitVec 5) : Word :=
  c ++ 0b00#2 ++ op ++ 0#1 ++ BitVec.ofBool wb ++ 0#5 ++ m ++ n ++ ra ++ r5

/-- A data processing word of the common scheme (30_encoding.md R79). -/
def commonWord (c op : BitVec 4) (i : Bool) (m : BitVec 2) (n : BitVec 6) (op1f : BitVec 5)
    (rm rd : BitVec 4) : Word :=
  c ++ 0b01#2 ++ op ++ BitVec.ofBool i ++ m ++ n ++ op1f ++ rm ++ rd

/-- A `MOV` word in immediate form (30_encoding.md R82). -/
def movImmWord (c : BitVec 4) (high : Bool) (imm : BitVec 16) (rd : BitVec 4) : Word :=
  c ++ 0b01#2 ++ 0b1101#4 ++ 1#1 ++ BitVec.ofBool high ++ imm ++ rd

/-- A `MOV` word in register form, bits 12-10 zero (30_encoding.md R83). -/
def movRegWord (c : BitVec 4) (m : BitVec 2) (n : BitVec 6) (rs rd : BitVec 5) : Word :=
  c ++ 0b01#2 ++ 0b1101#4 ++ 0#1 ++ m ++ n ++ 0#3 ++ rs ++ rd

/-- A `jump` or `jumpl` word in immediate form (30_encoding.md R85). -/
def jumpImmWord (c : BitVec 4) (op : BitVec 2) (off : BitVec 23) : Word :=
  c ++ 0b10#2 ++ op ++ 1#1 ++ off

/-- A `jump` or `jumpl` word in register form, bits 21-4 zero (30_encoding.md R86). -/
def jumpRegWord (c : BitVec 4) (op : BitVec 2) (asOffset : Bool) (rs : BitVec 4) : Word :=
  c ++ 0b10#2 ++ op ++ 0#1 ++ BitVec.ofBool asOffset ++ 0#18 ++ rs

/-- A `return` word of class 10, bits 23-0 zero (30_encoding.md R87). -/
def returnWord (c : BitVec 4) : Word := c ++ 0b10#2 ++ 0b10#2 ++ 0#24

/-- A word of the special class, bits 21-0 zero (30_encoding.md R88). -/
def specialWord (c op : BitVec 4) : Word := c ++ 0b11#2 ++ op ++ 0#22

/-- The Immidiate Enable Bit of operand 1 (30_encoding.md R81). -/
def Op1.isImm (a : Op1) : Bool :=
  match a with
  | .imm _ => true
  | .reg _ => false

/-- Bits 12-8 for operand 1, bit 12 zero for a register (30_encoding.md R81). -/
def Op1.code (a : Op1) : BitVec 5 :=
  match a with
  | .imm k => k
  | .reg r => 0#1 ++ r.code4

/-- The shift that leaves its value alone: method 00, amount 0 (30_encoding.md R78, 00_scope.md R10). It is
what an instruction written without a shift encodes. -/
def Shift.unshifted : Shift := ⟨.rol, 0⟩

/-- An instruction of the common scheme that writes a result (30_encoding.md R79). -/
def encodeCommon (c : Cond) (op : BitVec 4) (a : Op1) (rm : Reg) (sh : Shift) (rd : Reg) : Word :=
  commonWord c.code op a.isImm sh.method.code sh.amount a.code rm.code4 rd.code4

/-- A comparing instruction, its ignored fields zero (30_encoding.md R93). -/
def encodeCompare (c : Cond) (op : BitVec 4) (a : Op1) (rm : Reg) : Word :=
  commonWord c.code op a.isImm 0 0 a.code rm.code4 0

/-- The canonical word of an instruction (30_encoding.md R71 to R88): every reserved and every ignored bit
is 0. -/
def encode (i : Instr) : Word :=
  match i with
  | .loadOff c wb off ra rd => movementOffsetWord c.code 0b00#2 wb off ra.code4 rd.code5
  | .loadShift c wb sh ra rd =>
    movementShiftWord c.code 0b00#2 wb sh.method.code sh.amount ra.code4 rd.code5
  | .storeOff c wb off ra rs => movementOffsetWord c.code 0b01#2 wb off ra.code4 rs.code5
  | .storeShift c wb sh ra rs =>
    movementShiftWord c.code 0b01#2 wb sh.method.code sh.amount ra.code4 rs.code5
  | .and c a rm sh rd => encodeCommon c 0b0000#4 a rm sh rd
  | .eor c a rm sh rd => encodeCommon c 0b0001#4 a rm sh rd
  | .sub c a rm sh rd => encodeCommon c 0b0010#4 a rm sh rd
  | .rsb c a rm sh rd => encodeCommon c 0b0011#4 a rm sh rd
  | .add c a rm sh rd => encodeCommon c 0b0100#4 a rm sh rd
  | .adc c a rm sh rd => encodeCommon c 0b0101#4 a rm sh rd
  | .sbc c a rm sh rd => encodeCommon c 0b0110#4 a rm sh rd
  | .rsc c a rm sh rd => encodeCommon c 0b0111#4 a rm sh rd
  | .tst c a rm => encodeCompare c 0b1000#4 a rm
  | .teq c a rm => encodeCompare c 0b1001#4 a rm
  | .cmp c a rm => encodeCompare c 0b1010#4 a rm
  | .cmn c a rm => encodeCompare c 0b1011#4 a rm
  | .orr c a rm sh rd => encodeCommon c 0b1100#4 a rm sh rd
  | .bic c a rm sh rd => encodeCommon c 0b1110#4 a rm sh rd
  | .mvn c rm sh rd =>
    commonWord c.code 0b1111#4 false sh.method.code sh.amount 0 rm.code4 rd.code4
  | .movImm c high imm rd => movImmWord c.code high imm rd.code4
  | .movReg c sh rs rd => movRegWord c.code sh.method.code sh.amount rs.code5 rd.code5
  | .jumpImm c off => jumpImmWord c.code 0b00#2 off
  | .jumpRegOff c rs => jumpRegWord c.code 0b00#2 true rs.code4
  | .jumpRegAbs c rs => jumpRegWord c.code 0b00#2 false rs.code4
  | .jumplImm c off => jumpImmWord c.code 0b01#2 off
  | .jumplRegOff c rs => jumpRegWord c.code 0b01#2 true rs.code4
  | .jumplRegAbs c rs => jumpRegWord c.code 0b01#2 false rs.code4
  | .ret c => returnWord c.code
  | .pass c => specialWord c.code 0b0000#4
  | .halt c => specialWord c.code 0b0001#4
  | .retSpecial c => specialWord c.code 0b0010#4

/-! ### Words as the opcode table numbers them -/

/-- The 32-bit word of an instruction that the opcode table gives as `nbits` bits `w` (every bit above
`nbits` is 0). -/
def tableWord (nbits w : Nat) : Word := BitVec.ofNat 32 (w % 2 ^ nbits)

/-- The instruction the decoder reads from a word of the opcode table, under the default parameters. -/
def decodeTableWord (nbits w : Nat) : Option Instr :=
  match decode Params.default (tableWord nbits w) with
  | .valid i => some i
  | .invalid _ => none
  | .unspecified _ => none

end Sys2Proof
end

