-- ==== Sys2Proof/Machine/State.lean ====
section
/-! DEFINITION. Everything the spec gives the machine (10_state.md), as plain data, and the reasons a step
can stop (00_scope.md R12). -/

namespace Sys2Proof.Machine

/-- Memory: the listed bytes, by rising cell number; `Machine/Ops.lean` says what an unlisted cell reads as
and what the canonical form is. -/
abbrev Memory := List Host.Cell

/-- The architectural state (10_state.md R20 to R38), with the three fields of the model's own that
INVENTORY.md names: `imem`, `stored` and `params`. -/
structure State where
  /-- R0 to R12 (10_state.md R22). -/
  gpr : Vector Word 13
  /-- LR, the Link Register (10_state.md R23). -/
  lr : Word
  /-- SP, the Stack Pointer (10_state.md R24). -/
  sp : Word
  /-- PC, the Program counter (10_state.md R25). -/
  pc : Word
  /-- CPSR, the Current Program Status Register (10_state.md R30). -/
  cpsr : BitVec 8
  /-- The hidden bit `halted` (10_state.md R37). -/
  halted : Bool
  /-- The memory that `load` and `store` see, and fetch too when `UNIFIED_MEMORY` is true (10_state.md R38,
  20_memory.md R50). -/
  mem : Memory
  /-- The memory that fetch sees when `UNIFIED_MEMORY` is false (00_scope.md R5; log 10). -/
  imem : Memory
  /-- The word addresses that a `store` has written during the run, rising (20_memory.md R63; log 11). -/
  stored : List Nat
  /-- The parameters of the machine, which no instruction changes (10_state.md R41; log 4). -/
  params : Params
  deriving DecidableEq, Repr

/-- The faults: the one exception the ISA names (60_exceptions.md R190). -/
inductive Fault where
  /-- `raise InvalidInstruction(A, word)`, raised by `step` alone, for a word whose op-code is absent from
  its class's table and whose condition is met. `state` is the state at that point: the state before the
  step with the PC advanced (60_exceptions.md R193). Safe: a real machine goes on in a handler that the spec
  does not describe, the model stops (log 9). -/
  | invalidInstruction (address word : Word) (state : State)
  deriving DecidableEq, Repr

/-- The refusals: `unspecified(reason)` of 00_scope.md R12, one constructor for each reason string of
93_implementation_defined.md U1 to U10 (U5 and U7 to U9 through `encoding`), the data access to program text
of 20_memory.md R63, and the host's `notModelled`. -/
inductive Refusal where
  /-- No meaning yet; no arm of `exec` answers it. Safe. -/
  | notModelled (mnemonic : String)
  /-- U1, raised by the fetch: the PC is not a multiple of `W` (10_state.md R29). Safe. -/
  | misalignedPc
  /-- U2, raised by `load` and `store`: the address is not a multiple of `W` (20_memory.md R55). Safe. -/
  | misalignedAccess
  /-- U3, raised by the fetch, `load` and `store`: no memory at the address (20_memory.md R57). Safe. -/
  | unpopulatedAddress
  /-- U4, raised by the fetch: a `store` has written the word during the run (20_memory.md R63). Safe. -/
  | fetchOfStoredToAddress
  /-- Raised by `load` and `store` with `UNIFIED_MEMORY` false: the address lies in the program text
  (20_memory.md R63). Safe (log 10). -/
  | programTextAccess
  /-- U6, raised by `step`: an invalid word whose condition is not met (30_encoding.md R92). Safe. -/
  | invalidWordConditionFalse
  /-- U10, raised by `load`: write-back into the destination register (40_data_movement.md R101 (d)). Safe. -/
  | loadWriteBackOwnAddress
  /-- U5, U7, U8, U9, raised by `step` for a word the decoder gives no meaning (30_encoding.md R92). Safe. -/
  | encoding (why : EncodingReason)
  deriving DecidableEq, Repr

/-- What an instruction or a step answers. -/
abbrev Outcome := Host.Outcome State Fault Refusal

/-- The machine right after reset: PC = `RESET_PC`, `halted` = false (10_state.md R39, R210), the parameters
at their defaults. R0 to R12, LR, SP and CPSR are DESIGN CHOICE (log 1, log 2): the spec leaves them
unknown. Memory lists nothing (log 3). -/
def State.reset : State where
  gpr := Vector.replicate 13 0
  lr := 0
  sp := 0
  pc := Params.default.resetPc
  cpsr := 0
  halted := false
  mem := []
  imem := []
  stored := []
  params := Params.default

end Sys2Proof.Machine
end

