-- ==== Sys2Proof/Machine/Ops.lean ====
section
/-! DEFINITION. The named operations over registers and memory (00_scope.md R8, R9; 20_memory.md R53 to
R63), and raising the one exception (60_exceptions.md R190 to R195). -/

namespace Sys2Proof.Machine

/-! ### Registers -/

/-- `x[c]` as a read: the CPSR is zero-extended (00_scope.md R8, 10_state.md R30); the PC reads as it stands,
which during execution is `A + W` (10_state.md R26). -/
def State.readReg (s : State) (r : Reg) : Word :=
  match r with
  | .r i => s.gpr[i]
  | .lr => s.lr
  | .sp => s.sp
  | .pc => s.pc
  | .cpsr => s.cpsr.setWidth 32

/-- `x[c] <- v`: the CPSR takes bits 7-0 (00_scope.md R8, 10_state.md R30); a write to the PC is a jump
(10_state.md R28). -/
def State.writeReg (s : State) (r : Reg) (v : Word) : State :=
  match r with
  | .r i => { s with gpr := s.gpr.set i v }
  | .lr => { s with lr := v }
  | .sp => { s with sp := v }
  | .pc => { s with pc := v }
  | .cpsr => { s with cpsr := v.setWidth 8 }

/-! ### Memory as bytes in canonical form -/

/-- What a cell that memory does not list reads as. DESIGN CHOICE, unsafe (log 3): the spec leaves it
unknown (10_state.md R40). -/
def unlistedByte : Byte := 0

/-- The byte in cell `k`. -/
def Memory.get (m : Memory) (k : Nat) : Byte :=
  match m with
  | [] => unlistedByte
  | (j, b) :: rest => if j = k then b else Memory.get rest k

/-- Puts the byte `v` into cell `k` of a memory that does not list `k`, keeping the order. -/
def Memory.insert (m : Memory) (k : Nat) (v : Byte) : Memory :=
  match m with
  | [] => [(k, v)]
  | (j, b) :: rest => if k < j then (k, v) :: (j, b) :: rest else (j, b) :: Memory.insert rest k v

/-- Takes cell `k` out of the listed ones. -/
def Memory.erase (m : Memory) (k : Nat) : Memory := m.filter (fun c => c.1 != k)

/-- Writes the byte `v` into cell `k`; writing what an unlisted cell reads as removes the entry. -/
def Memory.set (m : Memory) (k : Nat) (v : Byte) : Memory :=
  if v = unlistedByte then Memory.erase m k else Memory.insert (Memory.erase m k) k v

/-- The canonical form: cell numbers strictly rising, and no entry equal to what an unlisted cell reads as. -/
def Memory.wf (m : Memory) : Bool :=
  match m with
  | [] => true
  | (j, b) :: rest => b != unlistedByte && rest.all (fun c => j < c.1) && Memory.wf rest

/-! ### Words of memory -/

/-- The cell of the first byte of the word at address `a`: `a` itself when addresses name bytes, `4 * a`
when they name words (20_memory.md R51; log 7). -/
def cellBase (p : Params) (a : Word) : Nat :=
  match p.unit with
  | .byte => a.toNat
  | .word => 4 * a.toNat

/-- The word whose bytes, in address order, are `b0 b1 b2 b3` (20_memory.md R56). -/
def wordOfBytes (o : ByteOrder) (b0 b1 b2 b3 : Byte) : Word :=
  match o with
  | .little => b3 ++ b2 ++ b1 ++ b0
  | .big => b0 ++ b1 ++ b2 ++ b3

/-- Byte `i` of a word in address order, `i` = 0..3 (20_memory.md R56). -/
def byteOfWord (o : ByteOrder) (w : Word) (i : Nat) : Byte :=
  match o with
  | .little => w.extractLsb' (8 * i) 8
  | .big => w.extractLsb' (24 - 8 * i) 8

/-- The word at address `a` of a memory. -/
def Memory.readWord (m : Memory) (p : Params) (a : Word) : Word :=
  let k := cellBase p a
  wordOfBytes p.byteOrder (Memory.get m k) (Memory.get m (k + 1)) (Memory.get m (k + 2))
    (Memory.get m (k + 3))

/-- A memory with the word `v` at address `a`. -/
def Memory.writeWord (m : Memory) (p : Params) (a v : Word) : Memory :=
  let k := cellBase p a
  let m0 := Memory.set m k (byteOfWord p.byteOrder v 0)
  let m1 := Memory.set m0 (k + 1) (byteOfWord p.byteOrder v 1)
  let m2 := Memory.set m1 (k + 2) (byteOfWord p.byteOrder v 2)
  Memory.set m2 (k + 3) (byteOfWord p.byteOrder v 3)

/-! ### Where memory exists -/

/-- Whether the word at address `a` lies in one of the regions, all its addresses counted. -/
def holdsWord (rs : List Region) (p : Params) (a : Word) : Bool :=
  rs.any (fun r => decide (r.base ≤ a.toNat) && decide (a.toNat + p.wordUnits ≤ r.base + r.size))

/-- `addr` is in `MEM_POPULATED` (20_memory.md R53, R57). -/
def populatedAt (p : Params) (a : Word) : Bool := holdsWord p.populated p a

/-- Whether the word at `a` shares an address with one of the regions. -/
def touchesWord (rs : List Region) (p : Params) (a : Word) : Bool :=
  rs.any (fun r => decide (r.base < a.toNat + p.wordUnits) && decide (a.toNat < r.base + r.size))

/-- The address lies in the program text, which a data access must not do with `UNIFIED_MEMORY` false
(20_memory.md R63). -/
def dataExcluded (p : Params) (a : Word) : Bool := !p.unified && touchesWord p.text p a

/-- `addr mod W = 0` (20_memory.md R55). -/
def aligned (p : Params) (a : Word) : Bool := a.toNat % p.wordUnits == 0

/-! ### Data access and fetch -/

/-- The checks of `MemRead` and `MemWrite` for a `load` or `store` in the order of 20_memory.md R53, then
the one of R63: the refusal to answer, if any. DESIGN CHOICE (log 10): R53 and R63 do not rank the check for the
program text, nor does 60_exceptions.md R196; here it comes last, so an address in the text that is misaligned or
unpopulated too is reported as that. -/
def State.dataCheck (s : State) (a : Word) : Option Refusal :=
  if !aligned s.params a then some .misalignedAccess
  else if !populatedAt s.params a then some .unpopulatedAddress
  else if dataExcluded s.params a then some .programTextAccess
  else none

/-- `MemRead(addr, 32)` of a `load` (20_memory.md R53). -/
def State.memRead (s : State) (a : Word) : Except Refusal Word :=
  match s.dataCheck a with
  | some r => .error r
  | none => .ok (Memory.readWord s.mem s.params a)

/-- Adds an address to the rising list of stored-to addresses (20_memory.md R63). -/
def addStored (l : List Nat) (a : Nat) : List Nat :=
  match l with
  | [] => [a]
  | b :: rest => if a < b then a :: b :: rest else if a = b then b :: rest else b :: addStored rest a

/-- `MemWrite(addr, 32, v)` of a `store` (20_memory.md R53), which also remembers the address (R63). -/
def State.memWrite (s : State) (a v : Word) : Except Refusal State :=
  match s.dataCheck a with
  | some r => .error r
  | none =>
    .ok { s with mem := Memory.writeWord s.mem s.params a v, stored := addStored s.stored a.toNat }

/-- The memory an instruction is fetched from (00_scope.md R5 `UNIFIED_MEMORY`; log 10). -/
def State.fetchMemory (s : State) : Memory := if s.params.unified then s.mem else s.imem

/-- A fetch from this address is refused because a `store` has written it (20_memory.md R63), unless the
model's own parameter `coherentFetch` lifts that for a unified memory (log 11). -/
def State.fetchExcluded (s : State) (a : Word) : Bool :=
  s.stored.contains a.toNat && !(s.params.unified && s.params.coherentFetch)

/-- The instruction fetch at the PC, its checks in the order of 60_exceptions.md R196 (1), (2). -/
def State.fetch (s : State) : Except Refusal Word :=
  if !aligned s.params s.pc then .error .misalignedPc
  else if !populatedAt s.params s.pc then .error .unpopulatedAddress
  else if s.fetchExcluded s.pc then .error .fetchOfStoredToAddress
  else .ok (Memory.readWord s.fetchMemory s.params s.pc)

/-- The sequential advance `pc <- (A + W) mod 2^32` (10_state.md R27). -/
def State.advance (s : State) : State := { s with pc := s.pc + BitVec.ofNat 32 s.params.wordUnits }

/-- A step of a halted core performs no instruction (10_state.md R37); with `EXT_INTERRUPTS` none nothing wakes it
(43_special.md R181, 60_exceptions.md R197). That it answers the same state is DESIGN CHOICE (log 8). -/
def State.haltedStep (s : State) : Outcome :=
  match s.params.extInterrupts with
  | .none => .next s

/-! ### The exception -/

/-- `raise InvalidInstruction(A, word)` at `A`, with the state at that point (60_exceptions.md R190, R193,
R195). No register receives anything (R191) and there is no entry to return from (R194). -/
def raiseInvalidInstruction (address word : Word) (s : State) : Outcome :=
  .fault (.invalidInstruction address word s)

end Sys2Proof.Machine
end

