-- ==== Sys2Proof/Machine/Flags.lean ====
section
/-! DEFINITION. The four flags: where they are, what tests them and how they are computed (10_state.md R32 to
R35, 30_encoding.md R72, 00_scope.md R11, 41_data_processing.md R122). -/

namespace Sys2Proof.Machine

/-! ### The flags in the CPSR -/

/-- The flag N (10_state.md R32). -/
def State.flagN (s : State) : Bool := s.cpsr.getLsbD s.params.layout.n

/-- The flag Z (10_state.md R32). -/
def State.flagZ (s : State) : Bool := s.cpsr.getLsbD s.params.layout.z

/-- The flag C (10_state.md R32). -/
def State.flagC (s : State) : Bool := s.cpsr.getLsbD s.params.layout.c

/-- The flag V (10_state.md R32). -/
def State.flagV (s : State) : Bool := s.cpsr.getLsbD s.params.layout.v

/-- `x` with bit `i` set to `b` and its other seven bits kept (00_scope.md R8: a flag write "leaves the other
seven bits of `cpsr` alone"). -/
def setBit (x : BitVec 8) (i : Fin 8) (b : Bool) : BitVec 8 :=
  let mask := BitVec.twoPow 8 i
  if b then x ||| mask else x &&& ~~~mask

/-- `N <- b` (00_scope.md R8). -/
def State.setN (s : State) (b : Bool) : State := { s with cpsr := setBit s.cpsr s.params.layout.n b }

/-- `Z <- b` (00_scope.md R8). -/
def State.setZ (s : State) (b : Bool) : State := { s with cpsr := setBit s.cpsr s.params.layout.z b }

/-- `C <- b` (00_scope.md R8). -/
def State.setC (s : State) (b : Bool) : State := { s with cpsr := setBit s.cpsr s.params.layout.c b }

/-- `V <- b` (00_scope.md R8). -/
def State.setV (s : State) (b : Bool) : State := { s with cpsr := setBit s.cpsr s.params.layout.v b }

/-! ### Conditions -/

/-- `ConditionPassed(cond)` (30_encoding.md R72). -/
def State.conditionPassed (s : State) (c : Cond) : Bool :=
  match c with
  | .eq => s.flagZ
  | .ne => !s.flagZ
  | .cs => s.flagC
  | .cc => !s.flagC
  | .mi => s.flagN
  | .pl => !s.flagN
  | .vs => s.flagV
  | .vc => !s.flagV
  | .hi => s.flagC && !s.flagZ
  | .ls => !s.flagC || s.flagZ
  | .ge => s.flagN == s.flagV
  | .lt => s.flagN != s.flagV
  | .gt => !s.flagZ && (s.flagN == s.flagV)
  | .le => s.flagZ || (s.flagN != s.flagV)
  | .al => true

/-- Executes `body` if the condition is met; otherwise nothing further changes (00_scope.md R13, R14). -/
def State.onCondition (s : State) (c : Cond) (body : Outcome) : Outcome :=
  if s.conditionPassed c then body else .next s

/-! ### The adder and the flag rules -/

/-- The triple of 00_scope.md R11. -/
structure AddOut where
  res : Word
  cout : Bool
  ovf : Bool
  deriving DecidableEq, Repr

/-- `AddWithCarry(a, b, cin)`: exact sums, then narrowed (00_scope.md R11). -/
def addWithCarry (a b : Word) (cin : Bool) : AddOut :=
  let usum : Nat := a.toNat + b.toNat + cin.toNat
  let ssum : Int := a.toInt + b.toInt + cin.toNat
  let res : Word := BitVec.ofNat 32 usum
  { res := res, cout := decide (2 ^ 32 ≤ usum), ovf := decide (res.toInt ≠ ssum) }

/-- Flags of a logical instruction: N and Z from the result, C and V kept (41_data_processing.md R122). -/
def State.setLogicalFlags (s : State) (res : Word) : State := (s.setN res.msb).setZ (res == 0)

/-- Flags of an arithmetic instruction: N, Z, C, V from the adder (41_data_processing.md R122). -/
def State.setArithmeticFlags (s : State) (o : AddOut) : State :=
  (((s.setN o.res.msb).setZ (o.res == 0)).setC o.cout).setV o.ovf

end Sys2Proof.Machine
end

