-- ==== Sys2Proof/Machine/Operands.lean ====
section
/-! DEFINITION. Every operand form: the shifts (00_scope.md R10), operand 1 (30_encoding.md R81), effective
addresses with write-back (40_data_movement.md R100, R103), jump targets (42_control_flow.md R160), and the
write of a shifted result (41_data_processing.md R120). -/

namespace Sys2Proof.Machine

/-- Rotate left: bits leaving at the top re-enter at the bottom, the amount taken mod 32 (00_scope.md R10). -/
def rotateLeft (n : Nat) (v : Word) : Word :=
  if n % 32 = 0 then v
  else BitVec.ofNat 32 (v.toNat * 2 ^ (n % 32)) ||| BitVec.ofNat 32 (v.toNat / 2 ^ (32 - n % 32))

/-- `Shift(m, n, v)` (00_scope.md R10). -/
def applyShift (sh : Shift) (v : Word) : Word :=
  let n := sh.amount.toNat
  match sh.method with
  | .rol => rotateLeft n v
  | .lsl => BitVec.ofNat 32 (v.toNat * 2 ^ n)
  | .lsr => BitVec.ofNat 32 (v.toNat / 2 ^ n)
  | .asr => BitVec.ofInt 32 (v.toInt / 2 ^ n)

/-- Operand 1: a number 0..31, or a register (30_encoding.md R81, 41_data_processing.md R120). -/
def State.op1Value (s : State) (a : Op1) : Word :=
  match a with
  | .imm k => k.setWidth 32
  | .reg r => s.readReg r

/-- The effective address in offset form: `(base + sext_32(offset13)) mod 2^32` (40_data_movement.md R100). -/
def State.offsetAddress (s : State) (ra : Reg) (off : BitVec 13) : Word :=
  s.readReg ra + off.signExtend 32

/-- The effective address in shift form: `Shift(method, value, base)` (40_data_movement.md R100). -/
def State.shiftAddress (s : State) (ra : Reg) (sh : Shift) : Word := applyShift sh (s.readReg ra)

/-- The write-back: with the Write Back Bit set the address register receives the address the access used
(40_data_movement.md R103). -/
def State.writeBack (s : State) (wb : Bool) (ra : Reg) (ea : Word) : State :=
  if wb then s.writeReg ra ea else s

/-- Target of `Imm(off)`: `(pcx + sext_32(off23)) mod 2^32` (42_control_flow.md R160). -/
def State.immTarget (s : State) (off : BitVec 23) : Word := s.pc + off.signExtend 32

/-- Target of `RegOffset(Rs)`: `(pcx + x[Rs]) mod 2^32` (42_control_flow.md R160). -/
def State.regOffsetTarget (s : State) (rs : Reg) : Word := s.pc + s.readReg rs

/-- Target of `RegAbsolute(Rs)`: `x[Rs]` (42_control_flow.md R160). -/
def State.regTarget (s : State) (rs : Reg) : Word := s.readReg rs

/-- `pc <- target` (00_scope.md R8, 10_state.md R28). -/
def State.jumpTo (s : State) (target : Word) : State := { s with pc := target }

/-- The link of `jumpl`: LR receives the PC as it reads during execution, `A + W`, then the PC the target,
which was computed before (42_control_flow.md R162). -/
def State.linkAndJumpTo (s : State) (target : Word) : State := { s with lr := s.pc, pc := target }

/-- `x[Rd] <- Shift(m, n, res)`, the shift of the result on its way to the destination
(41_data_processing.md R120). -/
def State.writeShifted (s : State) (rd : Reg) (sh : Shift) (res : Word) : State :=
  s.writeReg rd (applyShift sh res)

/-- `imm16` into one half of `old`, the other half kept (41_data_processing.md R137). -/
def replaceHalf (high : Bool) (imm : BitVec 16) (old : Word) : Word :=
  if high then imm ++ old.extractLsb' 0 16 else old.extractLsb' 16 16 ++ imm

end Sys2Proof.Machine
end

