-- ==== Sys2Proof/Machine/ControlFlow.lean ====
section
/-! DEFINITION. Control flow: `jump`, `jumpl`, `return` (42_control_flow.md R160 to R166). The PC in the state
is the one that reads during execution, `A + W`. -/

namespace Sys2Proof.Machine

/-- `jump`, immediate form (42_control_flow.md R161). -/
def execJumpImm (c : Cond) (off : BitVec 23) (s : State) : Outcome :=
  s.onCondition c (.next (s.jumpTo (s.immTarget off)))

/-- `jump`, register as offset (42_control_flow.md R161). -/
def execJumpRegOff (c : Cond) (rs : Reg) (s : State) : Outcome :=
  s.onCondition c (.next (s.jumpTo (s.regOffsetTarget rs)))

/-- `jump`, register as address (42_control_flow.md R161). -/
def execJumpRegAbs (c : Cond) (rs : Reg) (s : State) : Outcome :=
  s.onCondition c (.next (s.jumpTo (s.regTarget rs)))

/-- `jumpl`, immediate form (42_control_flow.md R162). -/
def execJumplImm (c : Cond) (off : BitVec 23) (s : State) : Outcome :=
  s.onCondition c (.next (s.linkAndJumpTo (s.immTarget off)))

/-- `jumpl`, register as offset (42_control_flow.md R162). -/
def execJumplRegOff (c : Cond) (rs : Reg) (s : State) : Outcome :=
  s.onCondition c (.next (s.linkAndJumpTo (s.regOffsetTarget rs)))

/-- `jumpl`, register as address; with LR as the register the target is the old LR (42_control_flow.md
R162, decision D19). -/
def execJumplRegAbs (c : Cond) (rs : Reg) (s : State) : Outcome :=
  s.onCondition c (.next (s.linkAndJumpTo (s.regTarget rs)))

/-- `return`, class 10: `pc <- LR`, nothing else restored (42_control_flow.md R163). -/
def execRet (c : Cond) (s : State) : Outcome :=
  s.onCondition c (.next (s.jumpTo s.lr))

end Sys2Proof.Machine
end

