-- ==== Sys2Proof/Machine/DataMovement.lean ====
section
/-! DEFINITION. Data movement: `load` and `store` (40_data_movement.md R100 to R104). -/

namespace Sys2Proof.Machine

/-- `LOAD` once the effective address is known (40_data_movement.md R101): the own-address check, the read,
then the write-back, then the destination. That the own-address check comes before the one for the program text too
is DESIGN CHOICE (log 10). -/
def State.loadFrom (s : State) (wb : Bool) (ea : Word) (ra rd : Reg) : Outcome :=
  if wb = true ∧ rd = ra then .refused .loadWriteBackOwnAddress
  else match s.memRead ea with
    | .error r => .refused r
    | .ok v => .next ((s.writeBack wb ra ea).writeReg rd v)

/-- `STORE` once the effective address is known (40_data_movement.md R102): the source is read before any
write, and the write-back happens only after the write. -/
def State.storeTo (s : State) (wb : Bool) (ea : Word) (ra rs : Reg) : Outcome :=
  match s.memWrite ea (s.readReg rs) with
  | .error r => .refused r
  | .ok t => .next (t.writeBack wb ra ea)

/-- `load`, offset form (40_data_movement.md R101, 30_encoding.md R77). -/
def execLoadOff (c : Cond) (wb : Bool) (off : BitVec 13) (ra rd : Reg) (s : State) : Outcome :=
  s.onCondition c (s.loadFrom wb (s.offsetAddress ra off) ra rd)

/-- `load`, shift form (40_data_movement.md R101, 30_encoding.md R78). -/
def execLoadShift (c : Cond) (wb : Bool) (sh : Shift) (ra rd : Reg) (s : State) : Outcome :=
  s.onCondition c (s.loadFrom wb (s.shiftAddress ra sh) ra rd)

/-- `store`, offset form (40_data_movement.md R102, 30_encoding.md R77). -/
def execStoreOff (c : Cond) (wb : Bool) (off : BitVec 13) (ra rs : Reg) (s : State) : Outcome :=
  s.onCondition c (s.storeTo wb (s.offsetAddress ra off) ra rs)

/-- `store`, shift form (40_data_movement.md R102, 30_encoding.md R78). -/
def execStoreShift (c : Cond) (wb : Bool) (sh : Shift) (ra rs : Reg) (s : State) : Outcome :=
  s.onCondition c (s.storeTo wb (s.shiftAddress ra sh) ra rs)

end Sys2Proof.Machine
end

