-- ==== Sys2Proof/Machine/DataProcessing.lean ====
section
/-! DEFINITION. Data processing (41_data_processing.md R120 to R141). Every register and flag is read from the
state before any write (R120, decision D27); the flags describe the result before the shift (R122). -/

namespace Sys2Proof.Machine

/-- The writes of a logical instruction: N and Z, then the shifted result (41_data_processing.md R120, R122). -/
def State.finishLogical (s : State) (res : Word) (sh : Shift) (rd : Reg) : Outcome :=
  .next ((s.setLogicalFlags res).writeShifted rd sh res)

/-- The writes of an arithmetic instruction: N, Z, C, V, then the shifted result (41_data_processing.md R120,
R122). -/
def State.finishArithmetic (s : State) (o : AddOut) (sh : Shift) (rd : Reg) : Outcome :=
  .next ((s.setArithmeticFlags o).writeShifted rd sh o.res)

/-- `AND`: operand1 AND operand2 (41_data_processing.md R124). -/
def execAnd (c : Cond) (a : Op1) (rm : Reg) (sh : Shift) (rd : Reg) (s : State) : Outcome :=
  s.onCondition c (s.finishLogical (s.op1Value a &&& s.readReg rm) sh rd)

/-- `EOR`: operand1 EOR operand2 (41_data_processing.md R125). -/
def execEor (c : Cond) (a : Op1) (rm : Reg) (sh : Shift) (rd : Reg) (s : State) : Outcome :=
  s.onCondition c (s.finishLogical (s.op1Value a ^^^ s.readReg rm) sh rd)

/-- `SUB`: operand1 - operand2 (41_data_processing.md R126). -/
def execSub (c : Cond) (a : Op1) (rm : Reg) (sh : Shift) (rd : Reg) (s : State) : Outcome :=
  s.onCondition c (s.finishArithmetic (addWithCarry (s.op1Value a) (~~~s.readReg rm) true) sh rd)

/-- `RSB`: operand2 - operand1 (41_data_processing.md R127). -/
def execRsb (c : Cond) (a : Op1) (rm : Reg) (sh : Shift) (rd : Reg) (s : State) : Outcome :=
  s.onCondition c (s.finishArithmetic (addWithCarry (s.readReg rm) (~~~s.op1Value a) true) sh rd)

/-- `ADD`: operand1 + operand2 (41_data_processing.md R128). -/
def execAdd (c : Cond) (a : Op1) (rm : Reg) (sh : Shift) (rd : Reg) (s : State) : Outcome :=
  s.onCondition c (s.finishArithmetic (addWithCarry (s.op1Value a) (s.readReg rm) false) sh rd)

/-- `ADC`: operand1 + operand2 + carry (41_data_processing.md R129). -/
def execAdc (c : Cond) (a : Op1) (rm : Reg) (sh : Shift) (rd : Reg) (s : State) : Outcome :=
  s.onCondition c (s.finishArithmetic (addWithCarry (s.op1Value a) (s.readReg rm) s.flagC) sh rd)

/-- `SBC`: operand1 - operand2 + carry - 1 (41_data_processing.md R130). -/
def execSbc (c : Cond) (a : Op1) (rm : Reg) (sh : Shift) (rd : Reg) (s : State) : Outcome :=
  s.onCondition c (s.finishArithmetic (addWithCarry (s.op1Value a) (~~~s.readReg rm) s.flagC) sh rd)

/-- `RSC`: operand2 - operand1 + carry - 1 (41_data_processing.md R131). -/
def execRsc (c : Cond) (a : Op1) (rm : Reg) (sh : Shift) (rd : Reg) (s : State) : Outcome :=
  s.onCondition c (s.finishArithmetic (addWithCarry (s.readReg rm) (~~~s.op1Value a) s.flagC) sh rd)

/-- `TST`: as AND, no result written (41_data_processing.md R132). -/
def execTst (c : Cond) (a : Op1) (rm : Reg) (s : State) : Outcome :=
  s.onCondition c (.next (s.setLogicalFlags (s.op1Value a &&& s.readReg rm)))

/-- `TEQ`: as EOR, no result written (41_data_processing.md R133). -/
def execTeq (c : Cond) (a : Op1) (rm : Reg) (s : State) : Outcome :=
  s.onCondition c (.next (s.setLogicalFlags (s.op1Value a ^^^ s.readReg rm)))

/-- `CMP`: as SUB, no result written (41_data_processing.md R134). -/
def execCmp (c : Cond) (a : Op1) (rm : Reg) (s : State) : Outcome :=
  s.onCondition c (.next (s.setArithmeticFlags (addWithCarry (s.op1Value a) (~~~s.readReg rm) true)))

/-- `CMN`: as ADD, no result written (41_data_processing.md R135). -/
def execCmn (c : Cond) (a : Op1) (rm : Reg) (s : State) : Outcome :=
  s.onCondition c (.next (s.setArithmeticFlags (addWithCarry (s.op1Value a) (s.readReg rm) false)))

/-- `ORR`: operand1 OR operand2 (41_data_processing.md R136). -/
def execOrr (c : Cond) (a : Op1) (rm : Reg) (sh : Shift) (rd : Reg) (s : State) : Outcome :=
  s.onCondition c (s.finishLogical (s.op1Value a ||| s.readReg rm) sh rd)

/-- `BIC`: operand1 AND NOT operand2 (41_data_processing.md R139). -/
def execBic (c : Cond) (a : Op1) (rm : Reg) (sh : Shift) (rd : Reg) (s : State) : Outcome :=
  s.onCondition c (s.finishLogical (s.op1Value a &&& ~~~s.readReg rm) sh rd)

/-- `MVN`: NOT operand2, operand 1 not read (41_data_processing.md R140). -/
def execMvn (c : Cond) (rm : Reg) (sh : Shift) (rd : Reg) (s : State) : Outcome :=
  s.onCondition c (s.finishLogical (~~~s.readReg rm) sh rd)

/-- `MOV`, immediate form: one half of the destination, the other kept, no flag (41_data_processing.md R137). -/
def execMovImm (c : Cond) (high : Bool) (imm : BitVec 16) (rd : Reg) (s : State) : Outcome :=
  s.onCondition c (.next (s.writeReg rd (replaceHalf high imm (s.readReg rd))))

/-- `MOV`, register form: the shifted source; the CPSR as source is zero-extended, as destination it takes
bits 7-0, and no flag is written otherwise (41_data_processing.md R138). -/
def execMovReg (c : Cond) (sh : Shift) (rs rd : Reg) (s : State) : Outcome :=
  s.onCondition c (.next (s.writeShifted rd sh (s.readReg rs)))

end Sys2Proof.Machine
end

