-- ==== Sys2Proof/Machine/Special.lean ====
section
/-! DEFINITION. Special instructions: `pass`, `halt`, the second `return` (43_special.md R180 to R182). -/

namespace Sys2Proof.Machine

/-- `pass`: nothing (43_special.md R180). -/
def execPass (c : Cond) (s : State) : Outcome := s.onCondition c (.next s)

/-- `halt`: `halted <- true`; the PC has already advanced (43_special.md R181). -/
def execHalt (c : Cond) (s : State) : Outcome := s.onCondition c (.next { s with halted := true })

/-- `return`, class 11, the second encoding: `pc <- LR` (43_special.md R182). -/
def execRetSpecial (c : Cond) (s : State) : Outcome :=
  s.onCondition c (.next (s.jumpTo s.lr))

end Sys2Proof.Machine
end

