-- ==== Sys2Proof/Machine/Dispatch.lean ====
section
/-! DEFINITION. One arm per instruction. -/

namespace Sys2Proof.Machine

/-- The effect of an instruction on the state during its execution, whose PC already reads `A + W`
(00_scope.md R13 `Execute`, 10_state.md R26). -/
def exec (i : Instr) (s : State) : Host.Outcome State Fault Refusal :=
  match i with
  | .loadOff c wb off ra rd => Sys2Proof.Machine.execLoadOff c wb off ra rd s
  | .loadShift c wb sh ra rd => Sys2Proof.Machine.execLoadShift c wb sh ra rd s
  | .storeOff c wb off ra rs => Sys2Proof.Machine.execStoreOff c wb off ra rs s
  | .storeShift c wb sh ra rs => Sys2Proof.Machine.execStoreShift c wb sh ra rs s
  | .and c a rm sh rd => Sys2Proof.Machine.execAnd c a rm sh rd s
  | .eor c a rm sh rd => Sys2Proof.Machine.execEor c a rm sh rd s
  | .sub c a rm sh rd => Sys2Proof.Machine.execSub c a rm sh rd s
  | .rsb c a rm sh rd => Sys2Proof.Machine.execRsb c a rm sh rd s
  | .add c a rm sh rd => Sys2Proof.Machine.execAdd c a rm sh rd s
  | .adc c a rm sh rd => Sys2Proof.Machine.execAdc c a rm sh rd s
  | .sbc c a rm sh rd => Sys2Proof.Machine.execSbc c a rm sh rd s
  | .rsc c a rm sh rd => Sys2Proof.Machine.execRsc c a rm sh rd s
  | .tst c a rm => Sys2Proof.Machine.execTst c a rm s
  | .teq c a rm => Sys2Proof.Machine.execTeq c a rm s
  | .cmp c a rm => Sys2Proof.Machine.execCmp c a rm s
  | .cmn c a rm => Sys2Proof.Machine.execCmn c a rm s
  | .orr c a rm sh rd => Sys2Proof.Machine.execOrr c a rm sh rd s
  | .bic c a rm sh rd => Sys2Proof.Machine.execBic c a rm sh rd s
  | .mvn c rm sh rd => Sys2Proof.Machine.execMvn c rm sh rd s
  | .movImm c high imm rd => Sys2Proof.Machine.execMovImm c high imm rd s
  | .movReg c sh rs rd => Sys2Proof.Machine.execMovReg c sh rs rd s
  | .jumpImm c off => Sys2Proof.Machine.execJumpImm c off s
  | .jumpRegOff c rs => Sys2Proof.Machine.execJumpRegOff c rs s
  | .jumpRegAbs c rs => Sys2Proof.Machine.execJumpRegAbs c rs s
  | .jumplImm c off => Sys2Proof.Machine.execJumplImm c off s
  | .jumplRegOff c rs => Sys2Proof.Machine.execJumplRegOff c rs s
  | .jumplRegAbs c rs => Sys2Proof.Machine.execJumplRegAbs c rs s
  | .ret c => Sys2Proof.Machine.execRet c s
  | .pass c => Sys2Proof.Machine.execPass c s
  | .halt c => Sys2Proof.Machine.execHalt c s
  | .retSpecial c => Sys2Proof.Machine.execRetSpecial c s

end Sys2Proof.Machine
end

