-- ==== Sys2Proof/Machine/Launch.lean ====
section
/-! DEFINITION. The launch state of a run: parameters, program image and data words (70_reset_and_hazards.md
R212). -/

namespace Sys2Proof.Machine

/-- `s` with the word `w` in the memory that fetch reads, at address `a`. -/
def State.putFetchWord (s : State) (a w : Word) : State :=
  if s.params.unified then { s with mem := Memory.writeWord s.mem s.params a w }
  else { s with imem := Memory.writeWord s.imem s.params a w }

/-- The address of word `k` of a program image: `RESET_PC + k * W` (70_reset_and_hazards.md R212), mod 2^32.
DESIGN CHOICE (log 22): R212 does not say whether an image wraps at the top of the address space; here it does,
as the PC does (10_state.md R27). -/
def imageAddress (p : Params) (k : Nat) : Word := p.resetPc + BitVec.ofNat 32 (k * p.wordUnits)

/-- The program text of an image of `n` words: the addresses of each of its words, the wrapped ones too (20_memory.md
R63; log 10, log 22). -/
def imageText (p : Params) (n : Nat) : List Region :=
  (List.range n).map (fun k => { base := (imageAddress p k).toNat, size := p.wordUnits })

/-- The parameters, an image of `n` words and the data words are those of a launch state: "All image and data
addresses must lie in `MEM_POPULATED`" (70_reset_and_hazards.md R212), and the parameters are as 10_state.md R32 and
R39 ask. DEDUCED (log 22): a data address is a multiple of `W`, since no other is in the domain of `Mem`
(20_memory.md R53). -/
def launchable (p : Params) (n : Nat) (data : List (Word × Word)) : Bool :=
  p.wf && (List.range n).all (fun k => populatedAt p (imageAddress p k)) &&
    data.all (fun d => aligned p d.1 && populatedAt p d.1)

/-- Writes the words of a program image at the addresses of its words `k`, `k + 1`, ...
(70_reset_and_hazards.md R212). -/
def State.putImage (s : State) (k : Nat) (image : List Word) : State :=
  match image with
  | [] => s
  | w :: rest => (s.putFetchWord (imageAddress s.params k) w).putImage (k + 1) rest

/-- Writes the initial data words of a launch state (70_reset_and_hazards.md R212). -/
def State.putData (s : State) (data : List (Word × Word)) : State :=
  match data with
  | [] => s
  | (a, v) :: rest => { s with mem := Memory.writeWord s.mem s.params a v }.putData rest

/-- The launch state of a run, if the arguments are those of one (70_reset_and_hazards.md R212, 10_state.md R39):
the parameters `p`, the program image at `RESET_PC`, the data words, and for everything else the contents of
`draw`, the values that registers, CPSR and memory happened to hold (10_state.md R40). DESIGN CHOICE (log 22):
R212 does not say which of two words named at one address of one memory stands; here the data words are written
after the image, in their order, and the last one written stands, so a data word at an address of the image of a
unified memory replaces the instruction. -/
def State.launch (p : Params) (draw : State) (image : List Word) (data : List (Word × Word)) : Option State :=
  if launchable p image.length data then
    let s : State :=
      { draw with
        pc := p.resetPc
        halted := false
        stored := []
        params := { p with text := imageText p image.length } }
    some ((s.putImage 0 image).putData data)
  else none

end Sys2Proof.Machine
end

