-- ==== Sys2Proof/Machine/Step.lean ====
section
/-! DEFINITION. One step of the machine (00_scope.md R13) and the placing of one instruction where it fetches
next. -/

namespace Sys2Proof.Machine

/-- What a step does with the word `word` fetched at `address`, in the state `s` whose PC has advanced
(00_scope.md R13, 60_exceptions.md R196 (3) to (6)). -/
def State.runWord (s : State) (address word : Word) : Outcome :=
  match decode s.params word with
  | .unspecified why => .refused (.encoding why)
  | .invalid c =>
    if s.conditionPassed c then raiseInvalidInstruction address word s
    else .refused .invalidWordConditionFalse
  | .valid i => exec i s

/-- One step (00_scope.md R13). -/
def step (s : State) : Host.Outcome State Fault Refusal :=
  if s.halted then s.haltedStep
  else match s.fetch with
    | .error r => .refused r
    | .ok word => s.advance.runWord s.pc word

/-- The greatest multiple of `W` that is at most `a`. -/
def alignDown (p : Params) (a : Word) : Word := BitVec.ofNat 32 (a.toNat - a.toNat % p.wordUnits)

/-- `p` with memory at `a` (parameter `MEM_POPULATED`). -/
def withPopulated (p : Params) (a : Word) : Params :=
  if populatedAt p a then p
  else { p with populated := { base := a.toNat, size := p.wordUnits } :: p.populated }

/-- `s` with an instruction of the opcode table stored where the next step fetches. It stands for the load
of a program from outside (70_reset_and_hazards.md R212; log 12), so it also sees to what that fetch needs:
a core that is not halted, an aligned PC, memory at the PC, and no stored-to mark there. From
`State.reset` none of these changes anything. DESIGN CHOICE (log 12): the spec does not fix how far the program
text reaches (20_memory.md R63), and the placed word is not added to `params.text`, so with `UNIFIED_MEMORY` false
it is no program text unless it lay there already, and a data access to its address is not refused for it. -/
def State.withFetchWord (s : State) (nbits w : Nat) : State :=
  let a := alignDown s.params s.pc
  { s.putFetchWord a (tableWord nbits w) with
    pc := a
    halted := false
    stored := s.stored.filter (fun b => b != a.toNat)
    params := withPopulated s.params a }

end Sys2Proof.Machine
end

