-- ==== Sys2Proof/Safety.lean ====
section
/-! DEFINITION. The terms that claims use: what a step leaves unchanged, which states are in order, and which
are reached. -/

namespace Sys2Proof.Machine

/-- Every byte of both memories reads as before, and no word counts as newly stored to. The second memory is the
model's reading of `UNIFIED_MEMORY` = false (log 10), the list of stored-to addresses the model's own (log 11). -/
structure MemoryKept (s t : State) : Prop where
  data : ∀ k, Memory.get t.mem k = Memory.get s.mem k
  code : ∀ k, Memory.get t.imem k = Memory.get s.imem k
  stored : t.stored = s.stored

/-- Every register outside `written` reads as before: all 17 of them, the PC and the CPSR too. -/
def RegistersKept (written : List Reg) (s t : State) : Prop :=
  ∀ r, r ∉ written → t.readReg r = s.readReg r

/-- What no instruction but `halt` touches, and the parameters, which none does (10_state.md R41). -/
structure MachineKept (s t : State) : Prop where
  halted : t.halted = s.halted
  params : t.params = s.params

/-- Nothing changes but the registers in `written`. -/
structure OnlyRegisters (written : List Reg) (s t : State) : Prop where
  registers : RegistersKept written s t
  memory : MemoryKept s t
  machine : MachineKept s t

/-- Bit `i` of the CPSR is none of the four flags (10_state.md R35). -/
def isStorageBit (l : CpsrLayout) (i : Fin 8) : Prop := i ≠ l.n ∧ i ≠ l.z ∧ i ≠ l.c ∧ i ≠ l.v

/-- The four flags of `t`, and its other CPSR bits as in `s`. -/
structure FlagsAre (s t : State) (n z c v : Bool) : Prop where
  n : t.flagN = n
  z : t.flagZ = z
  c : t.flagC = c
  v : t.flagV = v
  storage : ∀ i : Fin 8, isStorageBit s.params.layout i → t.cpsr.getLsbD i = s.cpsr.getLsbD i

/-- The exact value `x` does not fit 32 signed bits (00_scope.md R11). -/
def signedOverflow (x : Int) : Bool := decide (x < -(2 ^ 31) ∨ 2 ^ 31 ≤ x)

/-- `i` completes in `s`, leaves `v` in `rd`, the flags N Z C V as given, and nothing else changed. -/
def CompletesWithResult (i : Instr) (s : State) (rd : Reg) (v : Word) (n z c f : Bool) : Prop :=
  ∃ t, exec i s = .next t ∧ t.readReg rd = v ∧ FlagsAre s t n z c f ∧ OnlyRegisters [rd, .cpsr] s t

/-- `i` completes in `s`, leaves the flags N Z C V as given, and nothing else changed. -/
def CompletesWithFlags (i : Instr) (s : State) (n z c f : Bool) : Prop :=
  ∃ t, exec i s = .next t ∧ FlagsAre s t n z c f ∧ OnlyRegisters [.cpsr] s t

/-- `i` completes in `s`, leaves `v` in `rd` and changes nothing else. -/
def CompletesWithRegister (i : Instr) (s : State) (rd : Reg) (v : Word) : Prop :=
  ∃ t, exec i s = .next t ∧ t.readReg rd = v ∧ OnlyRegisters [rd] s t

/-- A `load` `i` completes in `s` from the address `ea` (40_data_movement.md R101): the word goes to `rd`, the
altered address to `ra` if `wb`, nothing else changes. -/
def LoadCompletes (i : Instr) (s : State) (wb : Bool) (ea : Word) (ra rd : Reg) : Prop :=
  ∃ t, exec i s = .next t ∧ t.readReg rd = Memory.readWord s.mem s.params ea ∧
    (wb = true → t.readReg ra = ea) ∧ OnlyRegisters (if wb then [rd, ra] else [rd]) s t

/-- A `store` `i` completes in `s` to the address `ea` (40_data_movement.md R102): the word there is what `rs`
held, every byte outside the word's four is as before, no byte of the instruction memory changes (log 10), `ea`
counts as stored to (log 11), and no register changes but `ra` if `wb`. -/
def StoreCompletes (i : Instr) (s : State) (wb : Bool) (ea : Word) (ra rs : Reg) : Prop :=
  ∃ t, exec i s = .next t ∧ Memory.readWord t.mem s.params ea = s.readReg rs ∧
    (∀ k, k < cellBase s.params ea ∨ cellBase s.params ea + 4 ≤ k →
      Memory.get t.mem k = Memory.get s.mem k) ∧
    (∀ k, Memory.get t.imem k = Memory.get s.imem k) ∧
    (∀ a, a ∈ t.stored ↔ a = ea.toNat ∨ a ∈ s.stored) ∧
    (wb = true → t.readReg ra = ea) ∧ RegistersKept (if wb then [ra] else []) s t ∧ MachineKept s t

/-- How many cells the address space has: four for each word (20_memory.md R50, R51). -/
def cellCount (p : Params) : Nat :=
  match p.unit with
  | .byte => 2 ^ 32
  | .word => 2 ^ 34

/-- Cell `k` holds one of the four bytes of the word at address `a` (20_memory.md R51). -/
def inWord (p : Params) (a : Word) (k : Nat) : Prop := cellBase p a ≤ k ∧ k < cellBase p a + 4

/-- The states in order: memories in canonical form and within the address space, stored-to addresses rising
and each a word of populated memory, parameters as R5 and R39 ask. -/
structure State.Inv (s : State) : Prop where
  mem_canonical : Memory.wf s.mem = true
  mem_in_space : ∀ c ∈ s.mem, c.1 < cellCount s.params
  imem_canonical : Memory.wf s.imem = true
  imem_in_space : ∀ c ∈ s.imem, c.1 < cellCount s.params
  stored_rising : s.stored.Pairwise (fun a b => a < b)
  stored_populated : ∀ a ∈ s.stored, ∃ w : Word, w.toNat = a ∧ aligned s.params w = true ∧
    populatedAt s.params w = true
  params_wf : s.params.wf = true

/-- `i` is one of the instructions that write the flags every time they execute (10_state.md R33 (a)). -/
def writesFlags (i : Instr) : Bool :=
  match i with
  | .and _ _ _ _ _ | .eor _ _ _ _ _ | .sub _ _ _ _ _ | .rsb _ _ _ _ _ | .add _ _ _ _ _ | .adc _ _ _ _ _
  | .sbc _ _ _ _ _ | .rsc _ _ _ _ _ | .tst _ _ _ | .teq _ _ _ | .cmp _ _ _ | .cmn _ _ _
  | .orr _ _ _ _ _ | .bic _ _ _ _ _ | .mvn _ _ _ _ => true
  | .loadOff _ _ _ _ _ | .loadShift _ _ _ _ _ | .storeOff _ _ _ _ _ | .storeShift _ _ _ _ _
  | .movImm _ _ _ _ | .movReg _ _ _ _ | .jumpImm _ _ | .jumpRegOff _ _ | .jumpRegAbs _ _
  | .jumplImm _ _ | .jumplRegOff _ _ | .jumplRegAbs _ _ | .ret _ | .pass _ | .halt _ | .retSpecial _ => false

/-- `i` is a `store` (40_data_movement.md R102). -/
def isStore (i : Instr) : Bool :=
  match i with
  | .storeOff _ _ _ _ _ | .storeShift _ _ _ _ _ => true
  | _ => false

/-- `i` is a `load` (40_data_movement.md R101). -/
def isLoad (i : Instr) : Bool :=
  match i with
  | .loadOff _ _ _ _ _ | .loadShift _ _ _ _ _ => true
  | _ => false

/-- `i` is a `load` or a `store` (30_encoding.md R75). -/
def isDataMovement (i : Instr) : Bool :=
  match i with
  | .loadOff _ _ _ _ _ | .loadShift _ _ _ _ _ | .storeOff _ _ _ _ _ | .storeShift _ _ _ _ _ => true
  | _ => false

/-- `i` is a `halt` (43_special.md R181). -/
def isHalt (i : Instr) : Bool :=
  match i with
  | .halt _ => true
  | _ => false

/-- `i` is a `jumpl` (42_control_flow.md R162). -/
def isJumpl (i : Instr) : Bool :=
  match i with
  | .jumplImm _ _ | .jumplRegOff _ _ | .jumplRegAbs _ _ => true
  | _ => false

/-- `i` is a `jump`, `jumpl` or `return` (42_control_flow.md R161 to R163; 43_special.md R182). -/
def isControlFlow (i : Instr) : Bool :=
  match i with
  | .jumpImm _ _ | .jumpRegOff _ _ | .jumpRegAbs _ _ | .jumplImm _ _ | .jumplRegOff _ _ | .jumplRegAbs _ _
  | .ret _ | .retSpecial _ => true
  | _ => false

/-- The class of an instruction, bits 27-26 (30_encoding.md R74). -/
def instrClass (i : Instr) : BitVec 2 :=
  match i with
  | .loadOff _ _ _ _ _ | .loadShift _ _ _ _ _ | .storeOff _ _ _ _ _ | .storeShift _ _ _ _ _ => 0b00#2
  | .and _ _ _ _ _ | .eor _ _ _ _ _ | .sub _ _ _ _ _ | .rsb _ _ _ _ _ | .add _ _ _ _ _ | .adc _ _ _ _ _
  | .sbc _ _ _ _ _ | .rsc _ _ _ _ _ | .tst _ _ _ | .teq _ _ _ | .cmp _ _ _ | .cmn _ _ _
  | .orr _ _ _ _ _ | .bic _ _ _ _ _ | .mvn _ _ _ _ | .movImm _ _ _ _ | .movReg _ _ _ _ => 0b01#2
  | .jumpImm _ _ | .jumpRegOff _ _ | .jumpRegAbs _ _ | .jumplImm _ _ | .jumplRegOff _ _ | .jumplRegAbs _ _
  | .ret _ => 0b10#2
  | .pass _ | .halt _ | .retSpecial _ => 0b11#2

/-- The registers that fields of `i` name to be written: its destination, and its address register when the
Write Back Bit is set (42_control_flow.md R166; 40_data_movement.md R103). -/
def namedWrites (i : Instr) : List Reg :=
  match i with
  | .loadOff _ wb _ ra rd | .loadShift _ wb _ ra rd => if wb then [rd, ra] else [rd]
  | .storeOff _ wb _ ra _ | .storeShift _ wb _ ra _ => if wb then [ra] else []
  | .and _ _ _ _ rd | .eor _ _ _ _ rd | .sub _ _ _ _ rd | .rsb _ _ _ _ rd | .add _ _ _ _ rd
  | .adc _ _ _ _ rd | .sbc _ _ _ _ rd | .rsc _ _ _ _ rd | .orr _ _ _ _ rd | .bic _ _ _ _ rd
  | .mvn _ _ _ rd | .movImm _ _ _ rd | .movReg _ _ _ rd => [rd]
  | .tst _ _ _ | .teq _ _ _ | .cmp _ _ _ | .cmn _ _ _ | .jumpImm _ _ | .jumpRegOff _ _ | .jumpRegAbs _ _
  | .jumplImm _ _ | .jumplRegOff _ _ | .jumplRegAbs _ _ | .ret _ | .pass _ | .halt _ | .retSpecial _ => []

/-- The registers that operand 1 names (30_encoding.md R81). -/
def op1Registers (a : Op1) : List Reg :=
  match a with
  | .imm _ => []
  | .reg r => [r]

/-- The registers that any field of `i` names (10_state.md R21). -/
def namedRegisters (i : Instr) : List Reg :=
  match i with
  | .loadOff _ _ _ ra r | .loadShift _ _ _ ra r | .storeOff _ _ _ ra r | .storeShift _ _ _ ra r => [ra, r]
  | .and _ a rm _ rd | .eor _ a rm _ rd | .sub _ a rm _ rd | .rsb _ a rm _ rd | .add _ a rm _ rd
  | .adc _ a rm _ rd | .sbc _ a rm _ rd | .rsc _ a rm _ rd | .orr _ a rm _ rd | .bic _ a rm _ rd =>
    rm :: rd :: op1Registers a
  | .tst _ a rm | .teq _ a rm | .cmp _ a rm | .cmn _ a rm => rm :: op1Registers a
  | .mvn _ rm _ rd => [rm, rd]
  | .movImm _ _ _ rd => [rd]
  | .movReg _ _ rs rd => [rs, rd]
  | .jumpRegOff _ rs | .jumpRegAbs _ rs | .jumplRegOff _ rs | .jumplRegAbs _ rs => [rs]
  | .jumpImm _ _ | .jumplImm _ _ | .ret _ | .pass _ | .halt _ | .retSpecial _ => []

/-- `i` reads the CPSR otherwise than by its condition (10_state.md R34 (b), (c)). -/
def readsFlags (i : Instr) : Bool :=
  match i with
  | .adc _ _ _ _ _ | .sbc _ _ _ _ _ | .rsc _ _ _ _ _ => true
  | .movReg _ _ rs _ => rs == .cpsr
  | .storeOff _ _ _ _ rs | .storeShift _ _ _ _ rs => rs == .cpsr
  | _ => false

/-- An outcome whose next state has `v` in SP. -/
def withSp (v : Word) (o : Outcome) : Outcome :=
  match o with
  | .next t => .next { t with sp := v }
  | .fault f => .fault f
  | .refused r => .refused r

/-- An outcome with the CPSR of its next state set aside. -/
def forgetCpsr (o : Outcome) : Outcome :=
  match o with
  | .next t => .next { t with cpsr := 0 }
  | .fault f => .fault f
  | .refused r => .refused r

/-- The bits of a word that have no effect on what it decodes to (30_encoding.md R93). -/
def ignoredBits (i : Instr) : Word :=
  match i with
  | .and _ (.reg _) _ _ _ | .eor _ (.reg _) _ _ _ | .sub _ (.reg _) _ _ _ | .rsb _ (.reg _) _ _ _
  | .add _ (.reg _) _ _ _ | .adc _ (.reg _) _ _ _ | .sbc _ (.reg _) _ _ _ | .rsc _ (.reg _) _ _ _
  | .orr _ (.reg _) _ _ _ | .bic _ (.reg _) _ _ _ => 0x00001000
  | .tst _ (.reg _) _ | .teq _ (.reg _) _ | .cmp _ (.reg _) _ | .cmn _ (.reg _) _ => 0x001FF00F
  | .tst _ (.imm _) _ | .teq _ (.imm _) _ | .cmp _ (.imm _) _ | .cmn _ (.imm _) _ => 0x001FE00F
  | .mvn _ _ _ _ => 0x00201F00
  | _ => 0

/-- The op-code of `w` is absent from its class's table (30_encoding.md R91). -/
def absentOpcode (p : Params) (w : Word) : Prop :=
  (field w 27 26 = 0b00 ∧ 2 ≤ (field w 25 24).toNat) ∨
  (field w 27 26 = 0b10 ∧ field w 25 24 = 0b11) ∨
  (field w 27 26 = 0b11 ∧ 3 ≤ (field w 25 22).toNat) ∨
  (field w 27 26 = 0b11 ∧ field w 25 22 = 0b0010 ∧ p.specialReturn = .invalid)

/-- `w` has a defined op-code and a 1 in a reserved zero field (30_encoding.md R92). -/
def reservedBitSet (p : Params) (w : Word) : Prop :=
  ¬ absentOpcode p w ∧
  ((field w 27 26 = 0b00 ∧ bit w 23 = false ∧ field w 21 17 ≠ 0) ∨
   (field w 27 26 = 0b01 ∧ field w 25 22 = 0b1101 ∧ bit w 21 = false ∧ field w 12 10 ≠ 0) ∨
   (field w 27 26 = 0b10 ∧ bit w 25 = false ∧ bit w 23 = false ∧ field w 21 4 ≠ 0) ∨
   (field w 27 26 = 0b10 ∧ field w 25 24 = 0b10 ∧ field w 23 0 ≠ 0) ∨
   (field w 27 26 = 0b11 ∧ field w 21 0 ≠ 0))

/-- `w` has a defined op-code and a 5-bit register field that holds 10001 to 11111 (30_encoding.md R92). -/
def badRegisterCode (p : Params) (w : Word) : Prop :=
  ¬ absentOpcode p w ∧
  ((field w 27 26 = 0b00 ∧ 17 ≤ (field w 4 0).toNat) ∨
   (field w 27 26 = 0b01 ∧ field w 25 22 = 0b1101 ∧ bit w 21 = false ∧
     (17 ≤ (field w 9 5).toNat ∨ 17 ≤ (field w 4 0).toNat)))

/-- `w` is a `load` whose destination field names the CPSR (30_encoding.md R92). -/
def cpsrLoad (w : Word) : Prop :=
  field w 27 26 = 0b00 ∧ field w 25 24 = 0b00 ∧ field w 4 0 = 0b10000

/-- The states that steps lead to from `s`. -/
inductive Reachable (s : State) : State → Prop where
  | start : Reachable s s
  | next {t u : State} (h : Reachable s t) (e : step t = .next u) : Reachable s u

/-- A run from `s` never meets an invalid instruction (70_reset_and_hazards.md R213 (2)). -/
def NeverInvalid (s : State) : Prop := ∀ t, Reachable s t → ∀ f, step t ≠ .fault f

/-- A run from `s` never stops by a refusal (70_reset_and_hazards.md R213 (3)). -/
def NeverRefused (s : State) : Prop := ∀ t, Reachable s t → ∀ r, step t ≠ .refused r

end Sys2Proof.Machine
end

