-- ==== Sys2Proof/Certificates/Slice0/Obligations.lean ====
section
/-! DEFINITION. The statements for the provers. Each docstring names the rules of spec/ it formalises; a clause
that rests on one of the spec's own decisions (D1 to D28) or on a choice of the model (log <n>) says so. -/

open Sys2Proof Sys2Proof.Machine

/-! ### Encoding and decoding -/

/-- Decode and encode agree on every well-formed instruction, under every value of the parameters
(30_encoding.md sections 2 to 5 and R90; reserved fields by decisions D17, D23). -/
def Obligations.DecodeOfEncodeIsTheInstruction : Prop :=
  ∀ (p : Params) (i : Instr), i.wf p = true → decode p (encode i) = .valid i

/-- A word decodes to an instruction exactly when, its ignored bits cleared, it is that instruction's canonical
word: no bit is ignored but those of 30_encoding.md R93 (derived: (d) is decision D28, zero fields D17, D23). -/
def Obligations.WordDecodesExactlyUpToIgnoredBits : Prop :=
  ∀ (p : Params) (w : Word) (i : Instr), i.wf p = true →
    (decode p w = .valid i ↔ w &&& ~~~ignoredBits i = encode i)

/-- What the decoder answers is an instruction an encoding can hold: no 4-bit field names the CPSR, no `load`
has it as destination (10_state.md section 3, R31; 40_data_movement.md section 5); the second `return` is
decoded only when the parameter `SPECIAL_RETURN` allows it (30_encoding.md R88, R90, 43_special.md R182; decision
D20, log 20). -/
def Obligations.DecodedInstructionIsWellFormed : Prop :=
  ∀ (p : Params) (w : Word) (i : Instr), decode p w = .valid i → i.wf p = true

/-- The invalid words are exactly those whose op-code is absent from its class's table, condition 1111 aside
(30_encoding.md R91; decision D11, and D9 for 1111). -/
def Obligations.InvalidWordsAreTheAbsentOpcodes : Prop :=
  ∀ (p : Params) (w : Word) (c : Cond),
    decode p w = .invalid c ↔ Cond.ofCode (field w 31 28) = some c ∧ absentOpcode p w

/-- The unspecified encodings are exactly the rows of 30_encoding.md R92, each with its reason, in the order of
R90: condition 1111, a reserved field, a register code, the CPSR as `load` destination (decisions D9, D11, D17,
D23). -/
def Obligations.UnspecifiedWordsAreTheListedOnes : Prop :=
  ∀ (p : Params) (w : Word),
    (decode p w = .unspecified .condition1111 ↔ field w 31 28 = 0b1111) ∧
    (decode p w = .unspecified .nonzeroReservedField ↔ field w 31 28 ≠ 0b1111 ∧ reservedBitSet p w) ∧
    (decode p w = .unspecified .registerCode ↔
      field w 31 28 ≠ 0b1111 ∧ ¬ reservedBitSet p w ∧ badRegisterCode p w) ∧
    (decode p w = .unspecified .cpsrAsLoadDestination ↔
      field w 31 28 ≠ 0b1111 ∧ ¬ reservedBitSet p w ∧ cpsrLoad w)

/-- The words that 95_test_vectors.md section 1 gives for the source's own lines decode to those instructions,
and a word of each of the other families too (T41, T82, T98, T107, T132, T140, T142). -/
def Obligations.SampleWordsDecode : Prop :=
  decode Params.default 0xE080FE04 = .valid (.loadOff .al false 127 (.r 0) (.r 4)) ∧
  decode Params.default 0xE0003E04 = .valid (.loadShift .al false ⟨.rol, 31⟩ (.r 0) (.r 4)) ∧
  decode Params.default 0xE1FFF9CD = .valid (.storeOff .al true (-4) .sp .lr) ∧
  decode Params.default 0xE1008804 = .valid (.storeShift .al false ⟨.lsl, 4⟩ (.r 0) (.r 4)) ∧
  decode Params.default 0xE4000012 = .valid (.and .al (.reg (.r 0)) (.r 1) ⟨.rol, 0⟩ (.r 2)) ∧
  decode Params.default 0xE7E01F12 = .valid (.mvn .al (.r 1) ⟨.rol, 0⟩ (.r 2)) ∧
  decode Params.default 0xE77ABCD3 = .valid (.movImm .al true 0xABCD (.r 3)) ∧
  decode Params.default 0xE7400201 = .valid (.movReg .al ⟨.rol, 0⟩ .cpsr (.r 1)) ∧
  decode Params.default 0xE8800064 = .valid (.jumpImm .al 100) ∧
  decode Params.default 0xE900000D = .valid (.jumplRegAbs .al .lr) ∧
  decode Params.default 0xEA000000 = .valid (.ret .al) ∧
  decode Params.default 0xEC000000 = .valid (.pass .al) ∧
  decode Params.default 0xEC400000 = .valid (.halt .al)

/-- 30_encoding.md R82: `MOV` in immediate form has the op-code 1101 with bit 21 = 1, its Load Higher Bytes
Enable Bit is bit 20, its immediate bits 19-4, its destination the 4-bit code in bits 3-0. -/
def Obligations.MovImmediateFormat : Prop :=
  ∀ (p : Params) (w : Word) (c : Cond), Cond.ofCode (field w 31 28) = some c →
    field w 27 26 = 0b01 → field w 25 22 = 0b1101 → bit w 21 = true →
    decode p w = .valid (.movImm c (bit w 20) (field w 19 4) (Reg.ofCode4 (field w 3 0)))

/-- 30_encoding.md R77: with Offset Enable Bit 1, bits 21-9 are a 13-bit signed integer, -4096 to 4095, and the
address is the address register plus that integer, unscaled, mod 2^32; for `load` and for `store`. -/
def Obligations.OffsetFormAddress : Prop :=
  (∀ (p : Params) (w : Word) (c : Cond) (r : Reg), Cond.ofCode (field w 31 28) = some c →
    field w 27 26 = 0b00 → bit w 23 = true → Reg.ofCode5 (field w 4 0) = some r →
    (field w 25 24 = 0b00 → r ≠ .cpsr →
      decode p w = .valid (.loadOff c (bit w 22) (field w 21 9) (Reg.ofCode4 (field w 8 5)) r)) ∧
    (field w 25 24 = 0b01 →
      decode p w = .valid (.storeOff c (bit w 22) (field w 21 9) (Reg.ofCode4 (field w 8 5)) r))) ∧
  (∀ (s : State) (ra : Reg) (off : BitVec 13),
    ((s.offsetAddress ra off).toNat : Int) = ((s.readReg ra).toNat + off.toInt) % 2 ^ 32 ∧
    -4096 ≤ off.toInt ∧ off.toInt ≤ 4095)

/-! ### Conditions -/

/-- 30_encoding.md R72: the fifteen condition codes, and when each is met in terms of the flags. -/
def Obligations.ConditionTable : Prop :=
  (∀ (k : BitVec 4) (c : Cond), Cond.ofCode k = some c ↔ k = c.code) ∧
  (∀ s : State,
    (s.conditionPassed .eq = true ↔ s.flagZ = true) ∧ (s.conditionPassed .ne = true ↔ s.flagZ = false) ∧
    (s.conditionPassed .cs = true ↔ s.flagC = true) ∧ (s.conditionPassed .cc = true ↔ s.flagC = false) ∧
    (s.conditionPassed .mi = true ↔ s.flagN = true) ∧ (s.conditionPassed .pl = true ↔ s.flagN = false) ∧
    (s.conditionPassed .vs = true ↔ s.flagV = true) ∧ (s.conditionPassed .vc = true ↔ s.flagV = false) ∧
    (s.conditionPassed .hi = true ↔ s.flagC = true ∧ s.flagZ = false) ∧
    (s.conditionPassed .ls = true ↔ s.flagC = false ∨ s.flagZ = true) ∧
    (s.conditionPassed .ge = true ↔ s.flagN = s.flagV) ∧ (s.conditionPassed .lt = true ↔ s.flagN ≠ s.flagV) ∧
    (s.conditionPassed .gt = true ↔ s.flagZ = false ∧ s.flagN = s.flagV) ∧
    (s.conditionPassed .le = true ↔ s.flagZ = true ∨ s.flagN ≠ s.flagV) ∧
    s.conditionPassed .al = true)

/-- 30_encoding.md R71: every instruction has its condition in bits 31-28 and its class in bits 27-26, and is
executed only if the condition is met: otherwise nothing changes. -/
def Obligations.ExecutedOnlyIfTheConditionIsMet : Prop :=
  (∀ (p : Params) (w : Word) (i : Instr), decode p w = .valid i →
    field w 31 28 = i.cond.code ∧ field w 27 26 = instrClass i) ∧
  (∀ (i : Instr) (s : State), s.conditionPassed i.cond = false → exec i s = .next s)

/-- A step of a valid instruction whose condition is not met changes nothing but the PC, which advances by `W`
(00_scope.md R14, which the spec marks derived; the advance is decision D4, `W` D1). -/
def Obligations.FailedConditionOnlyAdvancesThePc : Prop :=
  ∀ (s : State) (w : Word) (i : Instr), s.halted = false → s.fetch = .ok w → decode s.params w = .valid i →
    s.conditionPassed i.cond = false →
    ∃ t, step s = .next t ∧ t.pc = s.pc + BitVec.ofNat 32 s.params.wordUnits ∧ OnlyRegisters [.pc] s t

/-! ### One step -/

/-- A step runs the decoded instruction: when the word at the PC can be fetched and decodes to `i`, the step is
`exec` of `i` in the state whose PC has advanced by `W` and which is otherwise the same (00_scope.md section 6,
R13; the advance before execution is decision D4). -/
def Obligations.StepRunsTheDecodedInstruction : Prop :=
  ∀ (s : State) (i : Instr), s.halted = false →
    aligned s.params s.pc = true → populatedAt s.params s.pc = true → s.fetchExcluded s.pc = false →
    decode s.params (Memory.readWord s.fetchMemory s.params s.pc) = .valid i →
    step s = exec i { s with pc := s.pc + BitVec.ofNat 32 s.params.wordUnits }

/-- A halted core executes no instruction and keeps its whole state (10_state.md R37, 60_exceptions.md R203,
decision D13). That the step answers the same state, and does not stop, is the model's choice (log 8). -/
def Obligations.HaltedCoreKeepsItsState : Prop := ∀ s : State, s.halted = true → step s = .next s

/-- 60_exceptions.md R190: a step raises `InvalidInstruction(A, word)` exactly when it fetches at `A` a word that
is invalid and whose condition is met; no other instruction raises it. -/
def Obligations.OnlyInvalidWordsRaiseTheInterrupt : Prop :=
  (∀ (s : State) (f : Fault), step s = .fault f →
    s.halted = false ∧ ∃ (w : Word) (c : Cond) (t : State), s.fetch = .ok w ∧ decode s.params w = .invalid c ∧
      s.conditionPassed c = true ∧ f = .invalidInstruction s.pc w t) ∧
  (∀ (s : State) (w : Word) (c : Cond), s.halted = false → s.fetch = .ok w → decode s.params w = .invalid c →
    s.conditionPassed c = true → ∃ t, step s = .fault (.invalidInstruction s.pc w t))

/-- The state at the fault is the state before the step with the PC advanced by `W`; the invalid word has changed
nothing else (60_exceptions.md R193, R195; decisions D12, D4). -/
def Obligations.FaultLeavesOnlyThePcAdvanced : Prop :=
  ∀ (s t : State) (a w : Word), step s = .fault (.invalidInstruction a w t) →
    a = s.pc ∧ s.fetch = .ok w ∧ t.pc = s.pc + BitVec.ofNat 32 s.params.wordUnits ∧ OnlyRegisters [.pc] s t

/-- The stops of the fetch, in the order of 60_exceptions.md R196 (1) and (2): a misaligned PC, an unpopulated
address, an address that a `store` has written (decisions D3, D26, D16; with the model's own parameter
`coherentFetch` of log 11 the last does not arise in a unified memory). -/
def Obligations.FetchStopsInOrder : Prop :=
  ∀ s : State, s.halted = false →
    (s.pc.toNat % s.params.wordUnits ≠ 0 → step s = .refused .misalignedPc) ∧
    (s.pc.toNat % s.params.wordUnits = 0 → populatedAt s.params s.pc = false →
      step s = .refused .unpopulatedAddress) ∧
    (s.pc.toNat % s.params.wordUnits = 0 → populatedAt s.params s.pc = true → s.pc.toNat ∈ s.stored →
      ¬ (s.params.unified = true ∧ s.params.coherentFetch = true) →
      step s = .refused .fetchOfStoredToAddress)

/-- A fetched word that the decoder gives no meaning is refused with its reason whatever its condition, and an
invalid word whose condition is not met is refused (60_exceptions.md R196 (3) to (5); decisions D9, D10, D11,
D17). -/
def Obligations.WordsWithoutMeaningAreRefused : Prop :=
  ∀ (s : State) (w : Word), s.halted = false → s.fetch = .ok w →
    (∀ why, decode s.params w = .unspecified why → step s = .refused (.encoding why)) ∧
    (∀ c, decode s.params w = .invalid c → s.conditionPassed c = false →
      step s = .refused .invalidWordConditionFalse)

/-- A valid instruction is refused during its execution only if it is a `load` or a `store`, and only for its
data address or the own-address write-back (60_exceptions.md R196 (6); 20_memory.md R63; decisions D3, D18,
D26; the name `programTextAccess` is the model's, log 10). -/
def Obligations.ExecutionStopsOnlyInDataMovement : Prop :=
  ∀ (i : Instr) (s : State) (r : Refusal), exec i s = .refused r →
    isDataMovement i = true ∧ s.conditionPassed i.cond = true ∧
    (r = .misalignedAccess ∨ r = .unpopulatedAddress ∨ r = .programTextAccess ∨
      (r = .loadWriteBackOwnAddress ∧ isStore i = false))

/-- An instruction that is no control flow instruction and names the PC in no field it writes leaves the PC where
the sequential advance put it, `A + W` (10_state.md R27, 42_control_flow.md R166, derived; decisions D1, D4). -/
def Obligations.SequentialAdvanceUnlessThePcIsWritten : Prop :=
  ∀ (s t : State) (w : Word) (i : Instr), s.halted = false → s.fetch = .ok w →
    decode s.params w = .valid i → isControlFlow i = false → Reg.pc ∉ namedWrites i → step s = .next t →
    t.pc = s.pc + BitVec.ofNat 32 s.params.wordUnits

/-! ### Data movement -/

/-- `load` completes, in both forms, when its condition is met, the word at its effective address is aligned,
populated and not excluded, and it does not write back into its destination; it changes its destination, its
address register if the Write Back Bit is set, and nothing else (40_data_movement.md R100, R101; decisions D3,
D18, D26). -/
def Obligations.LoadResultAndFrame : Prop :=
  ∀ (s : State) (c : Cond) (wb : Bool) (ra rd : Reg), s.conditionPassed c = true → ra ≠ .cpsr → rd ≠ .cpsr →
    ¬ (wb = true ∧ rd = ra) →
    (∀ off : BitVec 13, s.dataCheck (s.readReg ra + off.signExtend 32) = none →
      LoadCompletes (.loadOff c wb off ra rd) s wb (s.readReg ra + off.signExtend 32) ra rd) ∧
    (∀ sh : Shift, s.dataCheck (applyShift sh (s.readReg ra)) = none →
      LoadCompletes (.loadShift c wb sh ra rd) s wb (applyShift sh (s.readReg ra)) ra rd)

/-- `store` completes, in both forms, when its condition is met and the word at its effective address is aligned,
populated and not excluded; the word there is what the source held before, and every byte outside the word is
unchanged (40_data_movement.md R100, R102; decisions D3, D26, D27). Two clauses are about the model's own fields:
that no byte of the instruction memory changes is the model's reading (log 10), that `ea` counts as stored to is log
11. -/
def Obligations.StoreResultAndFrame : Prop :=
  ∀ (s : State) (c : Cond) (wb : Bool) (ra rs : Reg), s.conditionPassed c = true → ra ≠ .cpsr →
    (∀ off : BitVec 13, s.dataCheck (s.readReg ra + off.signExtend 32) = none →
      StoreCompletes (.storeOff c wb off ra rs) s wb (s.readReg ra + off.signExtend 32) ra rs) ∧
    (∀ sh : Shift, s.dataCheck (applyShift sh (s.readReg ra)) = none →
      StoreCompletes (.storeShift c wb sh ra rs) s wb (applyShift sh (s.readReg ra)) ra rs)

/-- 40_data_movement.md R103: with the Write Back Bit set the altered address is written to the address
register; otherwise the address register keeps its value, unless it is the destination of the `load`. -/
def Obligations.WriteBackOfTheAlteredAddress : Prop :=
  ∀ (s t : State) (c : Cond) (wb : Bool) (ra r : Reg), s.conditionPassed c = true → ra ≠ .cpsr →
    (∀ off : BitVec 13,
      (exec (.loadOff c wb off ra r) s = .next t → r ≠ ra →
        t.readReg ra = if wb then s.readReg ra + off.signExtend 32 else s.readReg ra) ∧
      (exec (.storeOff c wb off ra r) s = .next t →
        t.readReg ra = if wb then s.readReg ra + off.signExtend 32 else s.readReg ra)) ∧
    (∀ sh : Shift,
      (exec (.loadShift c wb sh ra r) s = .next t → r ≠ ra →
        t.readReg ra = if wb then applyShift sh (s.readReg ra) else s.readReg ra) ∧
      (exec (.storeShift c wb sh ra r) s = .next t →
        t.readReg ra = if wb then applyShift sh (s.readReg ra) else s.readReg ra))

/-- Where `load` and `store` stop: a misaligned address, then an unpopulated one, then one in the program text
when the memory is not unified; and a `load` with write-back into its own address register before any of these
(20_memory.md R53, R55, R57, R63; 40_data_movement.md R101 (d); decisions D3, D16, D18, D26; log 10). -/
def Obligations.DataAccessStops : Prop :=
  ∀ (s : State) (c : Cond) (wb : Bool) (off : BitVec 13) (sh : Shift) (ra r : Reg),
    s.conditionPassed c = true →
    (wb = true → r = ra → exec (.loadOff c wb off ra r) s = .refused .loadWriteBackOwnAddress ∧
      exec (.loadShift c wb sh ra r) s = .refused .loadWriteBackOwnAddress) ∧
    (∀ why, s.dataCheck (s.readReg ra + off.signExtend 32) = some why →
      exec (.storeOff c wb off ra r) s = .refused why ∧
      (¬ (wb = true ∧ r = ra) → exec (.loadOff c wb off ra r) s = .refused why)) ∧
    (∀ why, s.dataCheck (applyShift sh (s.readReg ra)) = some why →
      exec (.storeShift c wb sh ra r) s = .refused why ∧
      (¬ (wb = true ∧ r = ra) → exec (.loadShift c wb sh ra r) s = .refused why)) ∧
    (∀ ea : Word,
      (ea.toNat % s.params.wordUnits ≠ 0 → s.dataCheck ea = some .misalignedAccess) ∧
      (ea.toNat % s.params.wordUnits = 0 → populatedAt s.params ea = false →
        s.dataCheck ea = some .unpopulatedAddress) ∧
      (ea.toNat % s.params.wordUnits = 0 → populatedAt s.params ea = true → s.params.unified = false →
        touchesWord s.params.text s.params ea = true → s.dataCheck ea = some .programTextAccess) ∧
      (ea.toNat % s.params.wordUnits = 0 → populatedAt s.params ea = true →
        ¬ (s.params.unified = false ∧ touchesWord s.params.text s.params ea = true) → s.dataCheck ea = none))

/-- A `store` is seen by a later `load` of the same address, and a `load` of another word is not changed by it
(20_memory.md R53, R60, 70_reset_and_hazards.md R215; decisions D16, D26). Shift form with no shift. -/
def Obligations.StoreThenLoad : Prop :=
  ∀ (s : State) (ra rb rs rd : Reg), ra ≠ .cpsr → rb ≠ .cpsr → rd ≠ .cpsr →
    s.dataCheck (s.readReg ra) = none → s.dataCheck (s.readReg rb) = none →
    ∃ t u, exec (.storeShift .al false ⟨.rol, 0⟩ ra rs) s = .next t ∧
      exec (.loadShift .al false ⟨.rol, 0⟩ rb rd) t = .next u ∧
      u.readReg rd = if s.readReg ra = s.readReg rb then s.readReg rs
        else Memory.readWord s.mem s.params (s.readReg rb)

/-- Memory is read by instruction fetch and `load` and written by `store` only (10_state.md R38): no other
instruction changes a byte of it, and what an instruction other than `load` does to the rest of the state does not
depend on it. Two clauses are about the model's own fields: that no instruction, `store` included, changes a byte of
the instruction memory is the model's reading (log 10), that only a `store` adds a stored-to address is log 11. -/
def Obligations.WhoReadsAndWritesMemory : Prop :=
  ∀ (i : Instr) (s t : State), exec i s = .next t →
    (isStore i = false → MemoryKept s t) ∧ (∀ k, Memory.get t.imem k = Memory.get s.imem k) ∧
    (isLoad i = false → ∀ m n : Memory, ∃ u, exec i { s with mem := m, imem := n } = .next u ∧
      { u with mem := t.mem, imem := t.imem } = t)

/-! ### Data processing -/

/-- `AND`, `EOR`, `ORR`, `BIC`, `MVN`: the shifted result in the destination, N and Z from the result before the
shift, C and V kept, nothing else changed (41_data_processing.md R124, R125, R136, R139, R140; the flags are
decisions D6, D7). -/
def Obligations.LogicalResultAndFlags : Prop :=
  ∀ (s : State) (c : Cond) (a : Op1) (rm : Reg) (sh : Shift) (rd : Reg), s.params.layout.wf = true →
    s.conditionPassed c = true → rd ≠ .cpsr →
    let x := s.op1Value a
    let y := s.readReg rm
    let completes := fun (i : Instr) (res : Word) =>
      CompletesWithResult i s rd (applyShift sh res) res.msb (decide (res = 0)) s.flagC s.flagV
    completes (.and c a rm sh rd) (x &&& y) ∧ completes (.eor c a rm sh rd) (x ^^^ y) ∧
    completes (.orr c a rm sh rd) (x ||| y) ∧ completes (.bic c a rm sh rd) (x &&& ~~~y) ∧
    completes (.mvn c rm sh rd) (~~~y)

/-- `ADD` and `ADC`: the shifted sum mod 2^32 in the destination; from the sum before the shift N, Z, C (carry
out) and V (the signed sum does not fit); nothing else changed (41_data_processing.md R128, R129; the flags are
decisions D6, D7). -/
def Obligations.AdditionResultAndFlags : Prop :=
  ∀ (s : State) (c : Cond) (a : Op1) (rm : Reg) (sh : Shift) (rd : Reg), s.params.layout.wf = true →
    s.conditionPassed c = true → rd ≠ .cpsr →
    let x := s.op1Value a
    let y := s.readReg rm
    let k := s.flagC.toNat
    let completes := fun (i : Instr) (res : Word) (carry : Bool) (exact : Int) =>
      CompletesWithResult i s rd (applyShift sh res) res.msb (decide (res = 0)) carry (signedOverflow exact)
    completes (.add c a rm sh rd) (x + y) (decide (2 ^ 32 ≤ x.toNat + y.toNat)) (x.toInt + y.toInt) ∧
    completes (.adc c a rm sh rd) (x + y + BitVec.ofNat 32 k) (decide (2 ^ 32 ≤ x.toNat + y.toNat + k))
      (x.toInt + y.toInt + k)

/-- `SUB` and `RSB`: the shifted difference in the destination; C is "no borrow", V that the signed difference
does not fit (41_data_processing.md R126, R127; the flags are decisions D6, D7). -/
def Obligations.SubtractionResultAndFlags : Prop :=
  ∀ (s : State) (c : Cond) (a : Op1) (rm : Reg) (sh : Shift) (rd : Reg), s.params.layout.wf = true →
    s.conditionPassed c = true → rd ≠ .cpsr →
    let x := s.op1Value a
    let y := s.readReg rm
    let completes := fun (i : Instr) (res : Word) (carry : Bool) (exact : Int) =>
      CompletesWithResult i s rd (applyShift sh res) res.msb (decide (res = 0)) carry (signedOverflow exact)
    completes (.sub c a rm sh rd) (x - y) (decide (y.toNat ≤ x.toNat)) (x.toInt - y.toInt) ∧
    completes (.rsb c a rm sh rd) (y - x) (decide (x.toNat ≤ y.toNat)) (y.toInt - x.toInt)

/-- `SBC` and `RSC`: the difference + carry - 1, carry as it stood before; C is "no borrow"
(41_data_processing.md R130, R131; the flags are decisions D6, D7). -/
def Obligations.SubtractionWithCarryResultAndFlags : Prop :=
  ∀ (s : State) (c : Cond) (a : Op1) (rm : Reg) (sh : Shift) (rd : Reg), s.params.layout.wf = true →
    s.conditionPassed c = true → rd ≠ .cpsr →
    let x := s.op1Value a
    let y := s.readReg rm
    let k := s.flagC.toNat
    let completes := fun (i : Instr) (res : Word) (carry : Bool) (exact : Int) =>
      CompletesWithResult i s rd (applyShift sh res) res.msb (decide (res = 0)) carry (signedOverflow exact)
    completes (.sbc c a rm sh rd) (x - y + BitVec.ofNat 32 k - 1) (decide (y.toNat + 1 ≤ x.toNat + k))
      (x.toInt - y.toInt + k - 1) ∧
    completes (.rsc c a rm sh rd) (y - x + BitVec.ofNat 32 k - 1) (decide (x.toNat + 1 ≤ y.toNat + k))
      (y.toInt - x.toInt + k - 1)

/-- `TST`, `TEQ`, `CMP`, `CMN`: the flags of `AND`, `EOR`, `SUB`, `ADD`, and no register but the CPSR written
(41_data_processing.md R132 to R135; the flags are decisions D6, D7). -/
def Obligations.ComparingInstructionsWriteOnlyFlags : Prop :=
  ∀ (s : State) (c : Cond) (a : Op1) (rm : Reg), s.params.layout.wf = true → s.conditionPassed c = true →
    let x := s.op1Value a
    let y := s.readReg rm
    CompletesWithFlags (.tst c a rm) s (x &&& y).msb (decide (x &&& y = 0)) s.flagC s.flagV ∧
    CompletesWithFlags (.teq c a rm) s (x ^^^ y).msb (decide (x = y)) s.flagC s.flagV ∧
    CompletesWithFlags (.cmp c a rm) s (x - y).msb (decide (x = y)) (decide (y.toNat ≤ x.toNat))
      (signedOverflow (x.toInt - y.toInt)) ∧
    CompletesWithFlags (.cmn c a rm) s (x + y).msb (decide (x = -y)) (decide (2 ^ 32 ≤ x.toNat + y.toNat))
      (signedOverflow (x.toInt + y.toInt))

/-- After `CMP a, b` the conditions compare a with b, unsigned and signed (41_data_processing.md R134, which the
spec marks derived, over decisions D6, D7). -/
def Obligations.ConditionsAfterCompare : Prop :=
  ∀ (s : State) (a : Op1) (rm : Reg), s.params.layout.wf = true →
    let x := s.op1Value a
    let y := s.readReg rm
    ∃ t, exec (.cmp .al a rm) s = .next t ∧
      t.conditionPassed .eq = decide (x = y) ∧ t.conditionPassed .ne = decide (x ≠ y) ∧
      t.conditionPassed .cs = decide (y.toNat ≤ x.toNat) ∧ t.conditionPassed .cc = decide (x.toNat < y.toNat) ∧
      t.conditionPassed .hi = decide (y.toNat < x.toNat) ∧ t.conditionPassed .ls = decide (x.toNat ≤ y.toNat) ∧
      t.conditionPassed .ge = decide (y.toInt ≤ x.toInt) ∧ t.conditionPassed .lt = decide (x.toInt < y.toInt) ∧
      t.conditionPassed .gt = decide (y.toInt < x.toInt) ∧ t.conditionPassed .le = decide (x.toInt ≤ y.toInt)

/-- `MOV` in immediate form: the immediate in the lower half (`H` = 0) or the higher half (`H` = 1) of the
destination, its other half kept, nothing else changed, no flag (41_data_processing.md R137; which half is
conflict C5, no flag decision D6). -/
def Obligations.MovImmediateReplacesOneHalf : Prop :=
  ∀ (s : State) (c : Cond) (imm : BitVec 16) (rd : Reg), s.conditionPassed c = true → rd ≠ .cpsr →
    (∃ v : Word, CompletesWithRegister (.movImm c false imm rd) s rd v ∧
      v.toNat % 2 ^ 16 = imm.toNat ∧ v.toNat / 2 ^ 16 = (s.readReg rd).toNat / 2 ^ 16) ∧
    (∃ v : Word, CompletesWithRegister (.movImm c true imm rd) s rd v ∧
      v.toNat / 2 ^ 16 = imm.toNat ∧ v.toNat % 2 ^ 16 = (s.readReg rd).toNat % 2 ^ 16)

/-- Two `MOV` immediates, either half first, give a register a value that does not depend on what it held
(10_state.md R40, 70_reset_and_hazards.md R214; over decisions D6, D24). -/
def Obligations.TwoMovImmediatesSetTheWholeRegister : Prop :=
  ∀ (s : State) (v : Word) (rd : Reg), rd ≠ .cpsr → rd ≠ .pc →
    (∃ t u, exec (.movImm .al false (v.extractLsb' 0 16) rd) s = .next t ∧
      exec (.movImm .al true (v.extractLsb' 16 16) rd) t = .next u ∧ u = s.writeReg rd v) ∧
    (∃ t u, exec (.movImm .al true (v.extractLsb' 16 16) rd) s = .next t ∧
      exec (.movImm .al false (v.extractLsb' 0 16) rd) t = .next u ∧ u = s.writeReg rd v)

/-- `MOV` in register form: the shifted source in the destination, which of the CPSR is bits 7-0, and nothing
else changed (41_data_processing.md R138; no flag as a side effect is decision D6). -/
def Obligations.MovRegisterMovesTheShiftedSource : Prop :=
  ∀ (s : State) (c : Cond) (sh : Shift) (rs rd : Reg), s.conditionPassed c = true →
    (rd ≠ .cpsr → CompletesWithRegister (.movReg c sh rs rd) s rd (applyShift sh (s.readReg rs))) ∧
    (rd = .cpsr → CompletesWithRegister (.movReg c sh rs rd) s rd
      (BitVec.ofNat 32 ((applyShift sh (s.readReg rs)).toNat % 2 ^ 8)))

/-- 10_state.md R30: reading the CPSR yields its 8 bits with the remaining bits zero, writing it keeps the least
significant 8 bits of the value and ignores the rest: by `MOV` to and from it, and by `store`. -/
def Obligations.CpsrIsAccessedThroughItsLowEightBits : Prop :=
  ∀ (s : State) (r : Reg), r ≠ .cpsr →
    (∃ t, exec (.movReg .al ⟨.rol, 0⟩ .cpsr r) s = .next t ∧ (t.readReg r).toNat = s.cpsr.toNat) ∧
    (∃ t, exec (.movReg .al ⟨.rol, 0⟩ r .cpsr) s = .next t ∧
      t.cpsr.toNat = (s.readReg r).toNat % 2 ^ 8) ∧
    (s.dataCheck (s.readReg r) = none → ∃ t, exec (.storeShift .al false ⟨.rol, 0⟩ r .cpsr) s = .next t ∧
      (Memory.readWord t.mem s.params (s.readReg r)).toNat = s.cpsr.toNat)

/-- Every bit of a shifted value (00_scope.md R10: the exact results, for amounts 0 to 63, are decision D8):
rotate left takes bit `i - n` mod 32, the logical shifts fill with 0, the arithmetic one with the sign. -/
def Obligations.ShiftedBits : Prop :=
  ∀ (n : BitVec 6) (v : Word) (i : Nat), i < 32 →
    (applyShift ⟨.rol, n⟩ v).getLsbD i = v.getLsbD ((i + 64 - n.toNat) % 32) ∧
    (applyShift ⟨.lsl, n⟩ v).getLsbD i = (decide (n.toNat ≤ i) && v.getLsbD (i - n.toNat)) ∧
    (applyShift ⟨.lsr, n⟩ v).getLsbD i = (decide (i + n.toNat < 32) && v.getLsbD (i + n.toNat)) ∧
    (applyShift ⟨.asr, n⟩ v).getLsbD i = v.getLsbD (min (i + n.toNat) 31)

/-- The adder gives the source's expressions mod 2^32: differences, and sums and differences with the carry
(41_data_processing.md R121, 00_scope.md R11; the adder is the spec's own device, D7). -/
def Obligations.AdderGivesTheSourceExpressions : Prop :=
  ∀ (a b : Word) (k : Bool),
    (addWithCarry a b false).res = a + b ∧ (addWithCarry a (~~~b) true).res = a - b ∧
    (addWithCarry a b k).res = a + b + BitVec.ofNat 32 k.toNat ∧
    (addWithCarry a (~~~b) k).res = a - b + BitVec.ofNat 32 k.toNat - 1 ∧
    ((addWithCarry a b k).cout = true ↔ 2 ^ 32 ≤ a.toNat + b.toNat + k.toNat) ∧
    ((addWithCarry a b k).ovf = true ↔ a.msb = b.msb ∧ (addWithCarry a b k).res.msb ≠ a.msb)

/-- Which instructions change the CPSR: the fifteen data processing instructions other than `MOV`, and `MOV` in
register form to the CPSR; and of those only the latter changes a bit that is no flag (10_state.md R33, R35;
decisions D5, D6). -/
def Obligations.WhoWritesTheCpsr : Prop :=
  ∀ (i : Instr) (s t : State), i.wf s.params = true → exec i s = .next t → Reg.cpsr ∉ namedWrites i →
    (writesFlags i = false → t.cpsr = s.cpsr) ∧
    (∀ b : Fin 8, isStorageBit s.params.layout b → t.cpsr.getLsbD b = s.cpsr.getLsbD b)

/-- 10_state.md R34: the flags are read by conditions other than `AL`, by `ADC`, `SBC`, `RSC`, and by `MOV` and
`store` with source CPSR; nothing else reads them: with condition `AL` every other instruction does the same
whatever the CPSR holds, the CPSR's own new value aside. -/
def Obligations.NothingElseReadsTheFlags : Prop :=
  ∀ (i : Instr) (s : State) (x : BitVec 8), i.wf s.params = true → i.cond = .al → readsFlags i = false →
    forgetCpsr (exec i { s with cpsr := x }) = forgetCpsr (exec i s)

/-! ### Control flow -/

/-- `jump` in its three forms: the target is the PC as it reads plus the signed offset, the PC plus the register,
or the register, mod 2^32; nothing else changes (42_control_flow.md R160, R161; that the PC reads `A + W` is
decision D4, carried by `StepRunsTheDecodedInstruction`). -/
def Obligations.JumpTargets : Prop :=
  ∀ (s : State) (c : Cond), s.conditionPassed c = true →
    (∀ off : BitVec 23, ∃ v : Word, CompletesWithRegister (.jumpImm c off) s .pc v ∧
      (v.toNat : Int) = (s.pc.toNat + off.toInt) % 2 ^ 32) ∧
    (∀ rs : Reg, rs ≠ .cpsr → ∃ v : Word, CompletesWithRegister (.jumpRegOff c rs) s .pc v ∧
      (v.toNat : Int) = (s.pc.toNat + (s.readReg rs).toInt) % 2 ^ 32) ∧
    (∀ rs : Reg, rs ≠ .cpsr → CompletesWithRegister (.jumpRegAbs c rs) s .pc (s.readReg rs))

/-- `jumpl` in its three forms: the targets of `jump`, taken from the registers before LR is written, and LR
receives the PC as it reads; nothing else changes (42_control_flow.md R160, R162; decisions D4, D19). -/
def Obligations.JumplTargetsAndLink : Prop :=
  ∀ (s : State) (c : Cond), s.conditionPassed c = true →
    let links := fun (i : Instr) (target : Int) =>
      ∃ t, exec i s = .next t ∧ (t.pc.toNat : Int) = target % 2 ^ 32 ∧ t.lr = s.pc ∧
        OnlyRegisters [.pc, .lr] s t
    (∀ off : BitVec 23, links (.jumplImm c off) (s.pc.toNat + off.toInt)) ∧
    (∀ rs : Reg, rs ≠ .cpsr → links (.jumplRegOff c rs) (s.pc.toNat + (s.readReg rs).toInt)) ∧
    (∀ rs : Reg, rs ≠ .cpsr → links (.jumplRegAbs c rs) (s.readReg rs).toNat)

/-- 42_control_flow.md R163: `return` moves LR to the PC and changes nothing else; its bits 23-0 are zero, and a
word with one of them set is unspecified. -/
def Obligations.ReturnMovesTheLinkRegisterToThePc : Prop :=
  (∀ (s : State) (c : Cond), s.conditionPassed c = true → CompletesWithRegister (.ret c) s .pc s.lr) ∧
  (∀ (p : Params) (w : Word) (c : Cond), Cond.ofCode (field w 31 28) = some c → field w 27 26 = 0b10 →
    field w 25 24 = 0b10 →
    decode p w = if field w 23 0 = 0 then .valid (.ret c) else .unspecified .nonzeroReservedField)

/-- The special-class `return`: with `SPECIAL_RETURN` a second encoding it does what `return` does, and with
`SPECIAL_RETURN` = invalid its word is an invalid instruction (43_special.md R182; decision D20). -/
def Obligations.SpecialReturnFollowsItsParameter : Prop :=
  (∀ (s : State) (c : Cond), s.conditionPassed c = true → CompletesWithRegister (.retSpecial c) s .pc s.lr) ∧
  (∀ (p : Params) (w : Word) (c : Cond), Cond.ofCode (field w 31 28) = some c → field w 27 26 = 0b11 →
    field w 25 22 = 0b0010 → field w 21 0 = 0 →
    decode p w = if p.specialReturn = .invalid then .invalid c else .valid (.retSpecial c))

/-- A `jumpl` followed by a `return` resumes after the `jumpl`, in every form (42_control_flow.md R162, R163;
10_state.md R26: the reason for decision D4). -/
def Obligations.ReturnResumesAfterTheCall : Prop :=
  ∀ (s t : State) (i : Instr), isJumpl i = true → s.conditionPassed i.cond = true → exec i s = .next t →
    ∃ u, exec (.ret .al) t = .next u ∧ u.pc = s.pc ∧ OnlyRegisters [.lr] s u

/-- LR is changed by `jumpl`, and otherwise only by an instruction that names it in a field it writes
(10_state.md R23, section 1). -/
def Obligations.WhoWritesTheLinkRegister : Prop :=
  ∀ (i : Instr) (s t : State), exec i s = .next t → isJumpl i = false → Reg.lr ∉ namedWrites i → t.lr = s.lr

/-- No instruction reads or writes SP implicitly (10_state.md R24, which the spec marks derived): SP changes only
where a field that the instruction writes names it, and an instruction that names SP in no field does the same
whatever SP holds, and keeps it. -/
def Obligations.StackPointerHasNoImplicitUse : Prop :=
  (∀ (i : Instr) (s t : State), exec i s = .next t → Reg.sp ∉ namedWrites i → t.sp = s.sp) ∧
  (∀ (i : Instr) (s : State) (v : Word), Reg.sp ∉ namedRegisters i →
    exec i { s with sp := v } = withSp v (exec i s))

/-! ### Special instructions -/

/-- 43_special.md R180: `pass` does nothing; the step's only effect is `pc = A + W`, whether its condition is met
or not; a word with one of bits 21-0 set is unspecified. -/
def Obligations.PassDoesNothing : Prop :=
  (∀ (s : State) (c : Cond), exec (.pass c) s = .next s) ∧
  (∀ (s : State) (c : Cond), s.halted = false → s.fetch = .ok (encode (.pass c)) →
    ∃ t, step s = .next t ∧ t.pc = s.pc + BitVec.ofNat 32 s.params.wordUnits ∧ OnlyRegisters [.pc] s t) ∧
  (∀ (p : Params) (w : Word) (c : Cond), Cond.ofCode (field w 31 28) = some c → field w 27 26 = 0b11 →
    field w 25 22 = 0b0000 →
    decode p w = if field w 21 0 = 0 then .valid (.pass c) else .unspecified .nonzeroReservedField)

/-- `halt` sets `halted`; every register, the CPSR and memory keep their values (43_special.md R181; decision
D13). -/
def Obligations.HaltSetsHalted : Prop :=
  ∀ (s : State) (c : Cond), s.conditionPassed c = true →
    ∃ t, exec (.halt c) s = .next t ∧ t.halted = true ∧ RegistersKept [] s t ∧ MemoryKept s t ∧
      t.params = s.params

/-- `halted` is set by an executed `halt` and by nothing else, and no instruction clears it (10_state.md R37;
decisions D13, D25). -/
def Obligations.OnlyHaltChangesHalted : Prop :=
  ∀ (i : Instr) (s t : State), exec i s = .next t →
    t.halted = (s.halted || (isHalt i && s.conditionPassed i.cond))

/-! ### Invariants and whole runs -/

/-- Every step keeps the states in order: memories in canonical form within the address space, stored-to
addresses rising words of populated memory, parameters as R5 and R39 ask (20_memory.md R53, R63; the canonical
form and the list of stored-to addresses are the model's, log 3 and log 11). -/
def Obligations.StepKeepsTheStateInOrder : Prop :=
  ∀ s t : State, s.Inv → step s = .next t → t.Inv

/-- The state right after reset is in order (the model's form of memory, log 3; 10_state.md section 6). -/
def Obligations.ResetStateIsInOrder : Prop := State.reset.Inv

/-- What reset leaves: PC = `RESET_PC` with the default 0, `halted` false, the defaults of R5, no `store` run yet
(10_state.md R39, decision D14); the registers and the CPSR at the model's choice 0 (log 1, log 2), memory with
nothing listed (log 3). -/
def Obligations.ResetValues : Prop :=
  State.reset.pc = State.reset.params.resetPc ∧ State.reset.pc = 0 ∧ State.reset.halted = false ∧
  State.reset.params = Params.default ∧ State.reset.stored = [] ∧
  (∀ r, State.reset.readReg r = 0) ∧ (∀ k, Memory.get State.reset.mem k = 0)

/-- 10_state.md R41: the parameters of the machine are no state that an instruction can change: no step of any
run changes one. -/
def Obligations.NoInstructionChangesAParameter : Prop :=
  ∀ s t : State, Reachable s t → t.params = s.params

/-- Along every run, a word that no `store` has written holds what it held at the start (20_memory.md R53, R58,
R63; decisions D16, D26; the list of stored-to addresses is log 11). -/
def Obligations.UnstoredWordsKeepTheirContents : Prop :=
  ∀ (s t : State) (a : Word), Reachable s t → aligned s.params a = true → a.toNat ∉ t.stored →
    Memory.readWord t.mem s.params a = Memory.readWord s.mem s.params a

/-- Refusing the fetch of a stored-to address makes the program text constant: along every run, each word that is
fetched is the word that stood there at the start of the run, whatever was stored (20_memory.md R63, decision
D16; log 10, log 11). -/
def Obligations.FetchedWordsAreThoseOfTheLaunch : Prop :=
  ∀ (s t : State) (w : Word), Reachable s t → s.params.coherentFetch = false → t.fetch = .ok w →
    w = Memory.readWord s.fetchMemory s.params t.pc

/-- Once halted, a run stays in that one state (10_state.md R37, 43_special.md R181: all registers, CPSR and
memory keep their values; decision D13; that the step answers the same state is log 8). -/
def Obligations.HaltedRunStaysPut : Prop :=
  ∀ s t : State, s.halted = true → Reachable s t → t = s

/-- A word placed by `withFetchWord` is the one the very next step fetches and runs, from every state, under every
value of the parameters (the launch of 70_reset_and_hazards.md R212; the model's own interface, log 12). -/
def Obligations.PlacedWordIsFetched : Prop :=
  ∀ (s : State) (nbits w : Nat), (s.withFetchWord nbits w).fetch = .ok (tableWord nbits w) ∧
    (s.withFetchWord nbits w).halted = false

/-! ### The launch of a program -/

/-- A launch state is one whose image and data addresses all lie in `MEM_POPULATED` (70_reset_and_hazards.md R212),
its parameters as 10_state.md R32 and R39 ask; nothing else is launched. That a data address must be a multiple of
`W`, and that the image wraps mod 2^32, is log 22. -/
def Obligations.LaunchNeedsPopulatedAddresses : Prop :=
  ∀ (p : Params) (draw : State) (image : List Word) (data : List (Word × Word)),
    (∃ t, State.launch p draw image data = some t) ↔
      p.wf = true ∧
      (∀ k, k < image.length → populatedAt p (p.resetPc + BitVec.ofNat 32 (k * p.wordUnits)) = true) ∧
      (∀ d ∈ data, d.1.toNat % p.wordUnits = 0 ∧ populatedAt p d.1 = true)

/-- A launched state is in order, its PC is `RESET_PC`, it is not halted, no `store` has run, its parameters are the
given ones, and everything else is the draw's: every register but the PC, every byte of memory outside the data words
and, in a unified memory, outside the image, every byte of the instruction memory outside the image of a memory that
is not unified (10_state.md section 6, 70_reset_and_hazards.md section 1; decisions D14, D24; the canonical form is
log 3, the instruction memory log 10, the stored-to list log 11, the program text log 10 and log 22). -/
def Obligations.LaunchedStateIsInOrder : Prop :=
  ∀ (p : Params) (draw t : State) (image : List Word) (data : List (Word × Word)),
    Memory.wf draw.mem = true → (∀ c ∈ draw.mem, c.1 < cellCount p) →
    Memory.wf draw.imem = true → (∀ c ∈ draw.imem, c.1 < cellCount p) →
    State.launch p draw image data = some t →
    let inImage := fun (k : Nat) =>
      ∃ j, j < image.length ∧ inWord p (p.resetPc + BitVec.ofNat 32 (j * p.wordUnits)) k
    let inData := fun (k : Nat) => ∃ d ∈ data, inWord p d.1 k
    t.Inv ∧ t.pc = p.resetPc ∧ t.halted = false ∧ t.stored = [] ∧ RegistersKept [.pc] draw t ∧
      { t.params with text := p.text } = p ∧
      (∀ k, ¬ inData k → (p.unified = true → ¬ inImage k) → Memory.get t.mem k = Memory.get draw.mem k) ∧
      (∀ k, (p.unified = false → ¬ inImage k) → Memory.get t.imem k = Memory.get draw.imem k)

/-- The words of a launched image stand where fetch reads them, word `k` at `RESET_PC + k * W`, and a data access to
one of them is refused when the memory is not unified (70_reset_and_hazards.md section 1, 20_memory.md section 5;
decisions D14, D16): for an image that fits the address space and, in a unified memory, an address at which no data
word is named. Every data word stands in memory at its address, unless a later one is named there. That addresses
wrap mod 2^32, and the program text with them, and that the last word named at an address stands, is log 22; the
refusal's name log 10. -/
def Obligations.LaunchedImageIsTheProgramText : Prop :=
  ∀ (p : Params) (draw t : State) (image : List Word) (data : List (Word × Word)),
    State.launch p draw image data = some t →
    (∀ (k : Nat) (w : Word), image.length * p.wordUnits ≤ 2 ^ 32 → image[k]? = some w →
      let a := p.resetPc + BitVec.ofNat 32 (k * p.wordUnits)
      ((p.unified = true → ∀ d ∈ data, d.1 ≠ a) → Memory.readWord t.fetchMemory t.params a = w) ∧
      (p.unified = false → t.dataCheck a = some .programTextAccess)) ∧
    (∀ (j : Nat) (a v : Word), data[j]? = some (a, v) → (∀ d ∈ data.drop (j + 1), d.1 ≠ a) →
      Memory.readWord t.mem t.params a = v)
end

