-- ==== Sys2Proof/Laws/Decode.lean ====
section
/-! SUPPORT. The codes of the small fields read back as what they encode, and the fields of a word built by
concatenation (30_encoding.md R72, R78; 10_state.md R20, R21). -/

set_option linter.unusedSimpArgs false

namespace Sys2Proof

@[simp] theorem Cond.ofCode_code (c : Cond) : Cond.ofCode c.code = some c := by cases c <;> rfl

/-- The code of a condition that is read from a code is that code. -/
theorem Cond.code_ofCode {k : BitVec 4} {c : Cond} (h : Cond.ofCode k = some c) : c.code = k := by
  have all : ∀ (k : BitVec 4) (c : Cond), Cond.ofCode k = some c → c.code = k := by
    intro k c; revert k; cases c <;> decide
  exact all k c h

/-- Condition 1111, and no other code, names no condition (30_encoding.md R73). -/
theorem Cond.ofCode_none (k : BitVec 4) : Cond.ofCode k = none ↔ k = 0b1111#4 := by
  revert k; decide

@[simp] theorem ShiftMethod.ofCode_code (m : ShiftMethod) : ShiftMethod.ofCode m.code = m := by
  cases m <;> rfl

@[simp] theorem ShiftMethod.code_ofCode (k : BitVec 2) : (ShiftMethod.ofCode k).code = k := by
  revert k; decide

@[simp] theorem Reg.ofCode5_code5 (r : Reg) : Reg.ofCode5 r.code5 = some r := by
  cases r with
  | r i => revert i; decide
  | _ => rfl

@[simp] theorem Reg.ofCode4_code4 {r : Reg} (h : r.fourBit = true) : Reg.ofCode4 r.code4 = r := by
  cases r with
  | r i => revert i; decide
  | cpsr => exact absurd h (by decide)
  | _ => rfl

@[simp] theorem Reg.code4_ofCode4 (k : BitVec 4) : (Reg.ofCode4 k).code4 = k := by revert k; decide

@[simp] theorem Reg.fourBit_ofCode4 (k : BitVec 4) : (Reg.ofCode4 k).fourBit = true := by revert k; decide

/-- The code of a register that is read from a 5-bit field is that field. -/
theorem Reg.code5_ofCode5 {k : BitVec 5} {r : Reg} (h : Reg.ofCode5 k = some r) : r.code5 = k := by
  have all : ∀ k : BitVec 5, ∀ r ∈ Reg.ofCode5 k, r.code5 = k := by decide
  exact all k r h

/-- Codes 10001 to 11111, and no others, name no register (10_state.md R21). -/
theorem Reg.ofCode5_none (k : BitVec 5) : Reg.ofCode5 k = none ↔ 17 ≤ k.toNat := by
  revert k; decide

/-! ### The fields of the words the encoder builds -/

/-- A concatenation as a number: the upper part counts `2 ^ m` times. -/
theorem toNat_cat {n m : Nat} (x : BitVec n) (y : BitVec m) :
    (x ++ y).toNat = x.toNat * 2 ^ m + y.toNat := by
  rw [BitVec.toNat_append, Nat.shiftLeft_eq, Nat.mul_comm, Nat.two_pow_add_eq_or_of_lt y.isLt]

/-- A field as a number. -/
theorem toNat_field (w : Word) (hi lo : Nat) :
    (field w hi lo).toNat = w.toNat / 2 ^ lo % 2 ^ (hi - lo + 1) := by
  simp [field, BitVec.extractLsb'_toNat, Nat.shiftRight_eq_div_pow]

/-- A field read as a bit vector is known by its number. -/
theorem field_eq {w : Word} {hi lo : Nat} {x : BitVec (hi - lo + 1)}
    (h : w.toNat / 2 ^ lo % 2 ^ (hi - lo + 1) = x.toNat) : field w hi lo = x :=
  BitVec.eq_of_toNat_eq (by rw [toNat_field, h])

/-- One bit as a number. -/
theorem bit_eq {w : Word} {k : Nat} {b : Bool} (h : w.toNat / 2 ^ k % 2 = b.toNat) :
    bit w k = b := by
  rw [bit, BitVec.getLsbD, Nat.testBit_eq_decide_div_mod_eq, h]
  cases b <;> rfl

theorem toNat_ofBool_lt (b : Bool) : b.toNat < 2 := by cases b <;> decide

/-- Operand 1 as the decoder reads it from a word with these three fields (30_encoding.md R81). -/
theorem operand1_of_fields {a : Op1} (h : a.wf = true) {w : Word} (h1 : bit w 21 = a.isImm)
    (h2 : field w 12 8 = a.code) (h3 : field w 11 8 = a.code.setWidth 4) : operand1 w = a := by
  cases a with
  | imm k => simp_all [operand1, Op1.isImm, Op1.code]
  | reg r =>
    have e : ((0#1 ++ r.code4) : BitVec 5).setWidth 4 = r.code4 := by
      generalize r.code4 = k; clear * -; revert k; decide
    simp_all [operand1, Op1.isImm, Op1.code, Op1.wf]

@[simp] theorem movementOffsetWord_cond (c : BitVec 4) (op : BitVec 2) (wb : Bool) (off : BitVec 13) (ra : BitVec 4) (r5 : BitVec 5) :
    field (movementOffsetWord c op wb off ra r5) 31 28 = c := by
  apply field_eq
  simp only [movementOffsetWord, toNat_cat, BitVec.toNat_ofBool, BitVec.ofNat_eq_ofNat, BitVec.toNat_ofNat,
    BitVec.toNat_setWidth, Bool.toNat_true, Bool.toNat_false]
  have := c.isLt
  have := op.isLt
  have := off.isLt
  have := ra.isLt
  have := r5.isLt
  have := toNat_ofBool_lt wb
  omega

@[simp] theorem movementOffsetWord_class (c : BitVec 4) (op : BitVec 2) (wb : Bool) (off : BitVec 13) (ra : BitVec 4) (r5 : BitVec 5) :
    field (movementOffsetWord c op wb off ra r5) 27 26 = 0 := by
  apply field_eq
  simp only [movementOffsetWord, toNat_cat, BitVec.toNat_ofBool, BitVec.ofNat_eq_ofNat, BitVec.toNat_ofNat,
    BitVec.toNat_setWidth, Bool.toNat_true, Bool.toNat_false]
  have := c.isLt
  have := op.isLt
  have := off.isLt
  have := ra.isLt
  have := r5.isLt
  have := toNat_ofBool_lt wb
  omega

@[simp] theorem movementOffsetWord_op (c : BitVec 4) (op : BitVec 2) (wb : Bool) (off : BitVec 13) (ra : BitVec 4) (r5 : BitVec 5) :
    field (movementOffsetWord c op wb off ra r5) 25 24 = op := by
  apply field_eq
  simp only [movementOffsetWord, toNat_cat, BitVec.toNat_ofBool, BitVec.ofNat_eq_ofNat, BitVec.toNat_ofNat,
    BitVec.toNat_setWidth, Bool.toNat_true, Bool.toNat_false]
  have := c.isLt
  have := op.isLt
  have := off.isLt
  have := ra.isLt
  have := r5.isLt
  have := toNat_ofBool_lt wb
  omega

@[simp] theorem movementOffsetWord_offsetEnable (c : BitVec 4) (op : BitVec 2) (wb : Bool) (off : BitVec 13) (ra : BitVec 4) (r5 : BitVec 5) :
    bit (movementOffsetWord c op wb off ra r5) 23 = true := by
  apply bit_eq
  simp only [movementOffsetWord, toNat_cat, BitVec.toNat_ofBool, BitVec.ofNat_eq_ofNat, BitVec.toNat_ofNat,
    BitVec.toNat_setWidth, Bool.toNat_true, Bool.toNat_false]
  have := c.isLt
  have := op.isLt
  have := off.isLt
  have := ra.isLt
  have := r5.isLt
  have := toNat_ofBool_lt wb
  omega

@[simp] theorem movementOffsetWord_writeBack (c : BitVec 4) (op : BitVec 2) (wb : Bool) (off : BitVec 13) (ra : BitVec 4) (r5 : BitVec 5) :
    bit (movementOffsetWord c op wb off ra r5) 22 = wb := by
  apply bit_eq
  simp only [movementOffsetWord, toNat_cat, BitVec.toNat_ofBool, BitVec.ofNat_eq_ofNat, BitVec.toNat_ofNat,
    BitVec.toNat_setWidth, Bool.toNat_true, Bool.toNat_false]
  have := c.isLt
  have := op.isLt
  have := off.isLt
  have := ra.isLt
  have := r5.isLt
  have := toNat_ofBool_lt wb
  omega

@[simp] theorem movementOffsetWord_offset (c : BitVec 4) (op : BitVec 2) (wb : Bool) (off : BitVec 13) (ra : BitVec 4) (r5 : BitVec 5) :
    field (movementOffsetWord c op wb off ra r5) 21 9 = off := by
  apply field_eq
  simp only [movementOffsetWord, toNat_cat, BitVec.toNat_ofBool, BitVec.ofNat_eq_ofNat, BitVec.toNat_ofNat,
    BitVec.toNat_setWidth, Bool.toNat_true, Bool.toNat_false]
  have := c.isLt
  have := op.isLt
  have := off.isLt
  have := ra.isLt
  have := r5.isLt
  have := toNat_ofBool_lt wb
  omega

@[simp] theorem movementOffsetWord_address (c : BitVec 4) (op : BitVec 2) (wb : Bool) (off : BitVec 13) (ra : BitVec 4) (r5 : BitVec 5) :
    field (movementOffsetWord c op wb off ra r5) 8 5 = ra := by
  apply field_eq
  simp only [movementOffsetWord, toNat_cat, BitVec.toNat_ofBool, BitVec.ofNat_eq_ofNat, BitVec.toNat_ofNat,
    BitVec.toNat_setWidth, Bool.toNat_true, Bool.toNat_false]
  have := c.isLt
  have := op.isLt
  have := off.isLt
  have := ra.isLt
  have := r5.isLt
  have := toNat_ofBool_lt wb
  omega

@[simp] theorem movementOffsetWord_register (c : BitVec 4) (op : BitVec 2) (wb : Bool) (off : BitVec 13) (ra : BitVec 4) (r5 : BitVec 5) :
    field (movementOffsetWord c op wb off ra r5) 4 0 = r5 := by
  apply field_eq
  simp only [movementOffsetWord, toNat_cat, BitVec.toNat_ofBool, BitVec.ofNat_eq_ofNat, BitVec.toNat_ofNat,
    BitVec.toNat_setWidth, Bool.toNat_true, Bool.toNat_false]
  have := c.isLt
  have := op.isLt
  have := off.isLt
  have := ra.isLt
  have := r5.isLt
  have := toNat_ofBool_lt wb
  omega

@[simp] theorem movementShiftWord_cond (c : BitVec 4) (op : BitVec 2) (wb : Bool) (m : BitVec 2) (n : BitVec 6) (ra : BitVec 4)
    (r5 : BitVec 5) :
    field (movementShiftWord c op wb m n ra r5) 31 28 = c := by
  apply field_eq
  simp only [movementShiftWord, toNat_cat, BitVec.toNat_ofBool, BitVec.ofNat_eq_ofNat, BitVec.toNat_ofNat,
    BitVec.toNat_setWidth, Bool.toNat_true, Bool.toNat_false]
  have := c.isLt
  have := op.isLt
  have := m.isLt
  have := n.isLt
  have := ra.isLt
  have := r5.isLt
  have := toNat_ofBool_lt wb
  omega

@[simp] theorem movementShiftWord_class (c : BitVec 4) (op : BitVec 2) (wb : Bool) (m : BitVec 2) (n : BitVec 6) (ra : BitVec 4)
    (r5 : BitVec 5) :
    field (movementShiftWord c op wb m n ra r5) 27 26 = 0 := by
  apply field_eq
  simp only [movementShiftWord, toNat_cat, BitVec.toNat_ofBool, BitVec.ofNat_eq_ofNat, BitVec.toNat_ofNat,
    BitVec.toNat_setWidth, Bool.toNat_true, Bool.toNat_false]
  have := c.isLt
  have := op.isLt
  have := m.isLt
  have := n.isLt
  have := ra.isLt
  have := r5.isLt
  have := toNat_ofBool_lt wb
  omega

@[simp] theorem movementShiftWord_op (c : BitVec 4) (op : BitVec 2) (wb : Bool) (m : BitVec 2) (n : BitVec 6) (ra : BitVec 4)
    (r5 : BitVec 5) :
    field (movementShiftWord c op wb m n ra r5) 25 24 = op := by
  apply field_eq
  simp only [movementShiftWord, toNat_cat, BitVec.toNat_ofBool, BitVec.ofNat_eq_ofNat, BitVec.toNat_ofNat,
    BitVec.toNat_setWidth, Bool.toNat_true, Bool.toNat_false]
  have := c.isLt
  have := op.isLt
  have := m.isLt
  have := n.isLt
  have := ra.isLt
  have := r5.isLt
  have := toNat_ofBool_lt wb
  omega

@[simp] theorem movementShiftWord_offsetEnable (c : BitVec 4) (op : BitVec 2) (wb : Bool) (m : BitVec 2) (n : BitVec 6) (ra : BitVec 4)
    (r5 : BitVec 5) :
    bit (movementShiftWord c op wb m n ra r5) 23 = false := by
  apply bit_eq
  simp only [movementShiftWord, toNat_cat, BitVec.toNat_ofBool, BitVec.ofNat_eq_ofNat, BitVec.toNat_ofNat,
    BitVec.toNat_setWidth, Bool.toNat_true, Bool.toNat_false]
  have := c.isLt
  have := op.isLt
  have := m.isLt
  have := n.isLt
  have := ra.isLt
  have := r5.isLt
  have := toNat_ofBool_lt wb
  omega

@[simp] theorem movementShiftWord_writeBack (c : BitVec 4) (op : BitVec 2) (wb : Bool) (m : BitVec 2) (n : BitVec 6) (ra : BitVec 4)
    (r5 : BitVec 5) :
    bit (movementShiftWord c op wb m n ra r5) 22 = wb := by
  apply bit_eq
  simp only [movementShiftWord, toNat_cat, BitVec.toNat_ofBool, BitVec.ofNat_eq_ofNat, BitVec.toNat_ofNat,
    BitVec.toNat_setWidth, Bool.toNat_true, Bool.toNat_false]
  have := c.isLt
  have := op.isLt
  have := m.isLt
  have := n.isLt
  have := ra.isLt
  have := r5.isLt
  have := toNat_ofBool_lt wb
  omega

@[simp] theorem movementShiftWord_reserved (c : BitVec 4) (op : BitVec 2) (wb : Bool) (m : BitVec 2) (n : BitVec 6) (ra : BitVec 4)
    (r5 : BitVec 5) :
    field (movementShiftWord c op wb m n ra r5) 21 17 = 0 := by
  apply field_eq
  simp only [movementShiftWord, toNat_cat, BitVec.toNat_ofBool, BitVec.ofNat_eq_ofNat, BitVec.toNat_ofNat,
    BitVec.toNat_setWidth, Bool.toNat_true, Bool.toNat_false]
  have := c.isLt
  have := op.isLt
  have := m.isLt
  have := n.isLt
  have := ra.isLt
  have := r5.isLt
  have := toNat_ofBool_lt wb
  omega

@[simp] theorem movementShiftWord_method (c : BitVec 4) (op : BitVec 2) (wb : Bool) (m : BitVec 2) (n : BitVec 6) (ra : BitVec 4)
    (r5 : BitVec 5) :
    field (movementShiftWord c op wb m n ra r5) 16 15 = m := by
  apply field_eq
  simp only [movementShiftWord, toNat_cat, BitVec.toNat_ofBool, BitVec.ofNat_eq_ofNat, BitVec.toNat_ofNat,
    BitVec.toNat_setWidth, Bool.toNat_true, Bool.toNat_false]
  have := c.isLt
  have := op.isLt
  have := m.isLt
  have := n.isLt
  have := ra.isLt
  have := r5.isLt
  have := toNat_ofBool_lt wb
  omega

@[simp] theorem movementShiftWord_amount (c : BitVec 4) (op : BitVec 2) (wb : Bool) (m : BitVec 2) (n : BitVec 6) (ra : BitVec 4)
    (r5 : BitVec 5) :
    field (movementShiftWord c op wb m n ra r5) 14 9 = n := by
  apply field_eq
  simp only [movementShiftWord, toNat_cat, BitVec.toNat_ofBool, BitVec.ofNat_eq_ofNat, BitVec.toNat_ofNat,
    BitVec.toNat_setWidth, Bool.toNat_true, Bool.toNat_false]
  have := c.isLt
  have := op.isLt
  have := m.isLt
  have := n.isLt
  have := ra.isLt
  have := r5.isLt
  have := toNat_ofBool_lt wb
  omega

@[simp] theorem movementShiftWord_address (c : BitVec 4) (op : BitVec 2) (wb : Bool) (m : BitVec 2) (n : BitVec 6) (ra : BitVec 4)
    (r5 : BitVec 5) :
    field (movementShiftWord c op wb m n ra r5) 8 5 = ra := by
  apply field_eq
  simp only [movementShiftWord, toNat_cat, BitVec.toNat_ofBool, BitVec.ofNat_eq_ofNat, BitVec.toNat_ofNat,
    BitVec.toNat_setWidth, Bool.toNat_true, Bool.toNat_false]
  have := c.isLt
  have := op.isLt
  have := m.isLt
  have := n.isLt
  have := ra.isLt
  have := r5.isLt
  have := toNat_ofBool_lt wb
  omega

@[simp] theorem movementShiftWord_register (c : BitVec 4) (op : BitVec 2) (wb : Bool) (m : BitVec 2) (n : BitVec 6) (ra : BitVec 4)
    (r5 : BitVec 5) :
    field (movementShiftWord c op wb m n ra r5) 4 0 = r5 := by
  apply field_eq
  simp only [movementShiftWord, toNat_cat, BitVec.toNat_ofBool, BitVec.ofNat_eq_ofNat, BitVec.toNat_ofNat,
    BitVec.toNat_setWidth, Bool.toNat_true, Bool.toNat_false]
  have := c.isLt
  have := op.isLt
  have := m.isLt
  have := n.isLt
  have := ra.isLt
  have := r5.isLt
  have := toNat_ofBool_lt wb
  omega

@[simp] theorem commonWord_cond (c op : BitVec 4) (i : Bool) (m : BitVec 2) (n : BitVec 6) (op1f : BitVec 5) (rm rd : BitVec 4) :
    field (commonWord c op i m n op1f rm rd) 31 28 = c := by
  apply field_eq
  simp only [commonWord, toNat_cat, BitVec.toNat_ofBool, BitVec.ofNat_eq_ofNat, BitVec.toNat_ofNat,
    BitVec.toNat_setWidth, Bool.toNat_true, Bool.toNat_false]
  have := c.isLt
  have := op.isLt
  have := m.isLt
  have := n.isLt
  have := op1f.isLt
  have := rm.isLt
  have := rd.isLt
  have := toNat_ofBool_lt i
  omega

@[simp] theorem commonWord_class (c op : BitVec 4) (i : Bool) (m : BitVec 2) (n : BitVec 6) (op1f : BitVec 5) (rm rd : BitVec 4) :
    field (commonWord c op i m n op1f rm rd) 27 26 = 1 := by
  apply field_eq
  simp only [commonWord, toNat_cat, BitVec.toNat_ofBool, BitVec.ofNat_eq_ofNat, BitVec.toNat_ofNat,
    BitVec.toNat_setWidth, Bool.toNat_true, Bool.toNat_false]
  have := c.isLt
  have := op.isLt
  have := m.isLt
  have := n.isLt
  have := op1f.isLt
  have := rm.isLt
  have := rd.isLt
  have := toNat_ofBool_lt i
  omega

@[simp] theorem commonWord_op (c op : BitVec 4) (i : Bool) (m : BitVec 2) (n : BitVec 6) (op1f : BitVec 5) (rm rd : BitVec 4) :
    field (commonWord c op i m n op1f rm rd) 25 22 = op := by
  apply field_eq
  simp only [commonWord, toNat_cat, BitVec.toNat_ofBool, BitVec.ofNat_eq_ofNat, BitVec.toNat_ofNat,
    BitVec.toNat_setWidth, Bool.toNat_true, Bool.toNat_false]
  have := c.isLt
  have := op.isLt
  have := m.isLt
  have := n.isLt
  have := op1f.isLt
  have := rm.isLt
  have := rd.isLt
  have := toNat_ofBool_lt i
  omega

@[simp] theorem commonWord_immediate (c op : BitVec 4) (i : Bool) (m : BitVec 2) (n : BitVec 6) (op1f : BitVec 5) (rm rd : BitVec 4) :
    bit (commonWord c op i m n op1f rm rd) 21 = i := by
  apply bit_eq
  simp only [commonWord, toNat_cat, BitVec.toNat_ofBool, BitVec.ofNat_eq_ofNat, BitVec.toNat_ofNat,
    BitVec.toNat_setWidth, Bool.toNat_true, Bool.toNat_false]
  have := c.isLt
  have := op.isLt
  have := m.isLt
  have := n.isLt
  have := op1f.isLt
  have := rm.isLt
  have := rd.isLt
  have := toNat_ofBool_lt i
  omega

@[simp] theorem commonWord_method (c op : BitVec 4) (i : Bool) (m : BitVec 2) (n : BitVec 6) (op1f : BitVec 5) (rm rd : BitVec 4) :
    field (commonWord c op i m n op1f rm rd) 20 19 = m := by
  apply field_eq
  simp only [commonWord, toNat_cat, BitVec.toNat_ofBool, BitVec.ofNat_eq_ofNat, BitVec.toNat_ofNat,
    BitVec.toNat_setWidth, Bool.toNat_true, Bool.toNat_false]
  have := c.isLt
  have := op.isLt
  have := m.isLt
  have := n.isLt
  have := op1f.isLt
  have := rm.isLt
  have := rd.isLt
  have := toNat_ofBool_lt i
  omega

@[simp] theorem commonWord_amount (c op : BitVec 4) (i : Bool) (m : BitVec 2) (n : BitVec 6) (op1f : BitVec 5) (rm rd : BitVec 4) :
    field (commonWord c op i m n op1f rm rd) 18 13 = n := by
  apply field_eq
  simp only [commonWord, toNat_cat, BitVec.toNat_ofBool, BitVec.ofNat_eq_ofNat, BitVec.toNat_ofNat,
    BitVec.toNat_setWidth, Bool.toNat_true, Bool.toNat_false]
  have := c.isLt
  have := op.isLt
  have := m.isLt
  have := n.isLt
  have := op1f.isLt
  have := rm.isLt
  have := rd.isLt
  have := toNat_ofBool_lt i
  omega

@[simp] theorem commonWord_operand1 (c op : BitVec 4) (i : Bool) (m : BitVec 2) (n : BitVec 6) (op1f : BitVec 5) (rm rd : BitVec 4) :
    field (commonWord c op i m n op1f rm rd) 12 8 = op1f := by
  apply field_eq
  simp only [commonWord, toNat_cat, BitVec.toNat_ofBool, BitVec.ofNat_eq_ofNat, BitVec.toNat_ofNat,
    BitVec.toNat_setWidth, Bool.toNat_true, Bool.toNat_false]
  have := c.isLt
  have := op.isLt
  have := m.isLt
  have := n.isLt
  have := op1f.isLt
  have := rm.isLt
  have := rd.isLt
  have := toNat_ofBool_lt i
  omega

@[simp] theorem commonWord_operand1Register (c op : BitVec 4) (i : Bool) (m : BitVec 2) (n : BitVec 6) (op1f : BitVec 5) (rm rd : BitVec 4) :
    field (commonWord c op i m n op1f rm rd) 11 8 = op1f.setWidth 4 := by
  apply field_eq
  simp only [commonWord, toNat_cat, BitVec.toNat_ofBool, BitVec.ofNat_eq_ofNat, BitVec.toNat_ofNat,
    BitVec.toNat_setWidth, Bool.toNat_true, Bool.toNat_false]
  have := c.isLt
  have := op.isLt
  have := m.isLt
  have := n.isLt
  have := op1f.isLt
  have := rm.isLt
  have := rd.isLt
  have := toNat_ofBool_lt i
  omega

@[simp] theorem commonWord_operand2 (c op : BitVec 4) (i : Bool) (m : BitVec 2) (n : BitVec 6) (op1f : BitVec 5) (rm rd : BitVec 4) :
    field (commonWord c op i m n op1f rm rd) 7 4 = rm := by
  apply field_eq
  simp only [commonWord, toNat_cat, BitVec.toNat_ofBool, BitVec.ofNat_eq_ofNat, BitVec.toNat_ofNat,
    BitVec.toNat_setWidth, Bool.toNat_true, Bool.toNat_false]
  have := c.isLt
  have := op.isLt
  have := m.isLt
  have := n.isLt
  have := op1f.isLt
  have := rm.isLt
  have := rd.isLt
  have := toNat_ofBool_lt i
  omega

@[simp] theorem commonWord_destination (c op : BitVec 4) (i : Bool) (m : BitVec 2) (n : BitVec 6) (op1f : BitVec 5) (rm rd : BitVec 4) :
    field (commonWord c op i m n op1f rm rd) 3 0 = rd := by
  apply field_eq
  simp only [commonWord, toNat_cat, BitVec.toNat_ofBool, BitVec.ofNat_eq_ofNat, BitVec.toNat_ofNat,
    BitVec.toNat_setWidth, Bool.toNat_true, Bool.toNat_false]
  have := c.isLt
  have := op.isLt
  have := m.isLt
  have := n.isLt
  have := op1f.isLt
  have := rm.isLt
  have := rd.isLt
  have := toNat_ofBool_lt i
  omega

@[simp] theorem movImmWord_cond (c : BitVec 4) (high : Bool) (imm : BitVec 16) (rd : BitVec 4) :
    field (movImmWord c high imm rd) 31 28 = c := by
  apply field_eq
  simp only [movImmWord, toNat_cat, BitVec.toNat_ofBool, BitVec.ofNat_eq_ofNat, BitVec.toNat_ofNat,
    BitVec.toNat_setWidth, Bool.toNat_true, Bool.toNat_false]
  have := c.isLt
  have := imm.isLt
  have := rd.isLt
  have := toNat_ofBool_lt high
  omega

@[simp] theorem movImmWord_class (c : BitVec 4) (high : Bool) (imm : BitVec 16) (rd : BitVec 4) :
    field (movImmWord c high imm rd) 27 26 = 1 := by
  apply field_eq
  simp only [movImmWord, toNat_cat, BitVec.toNat_ofBool, BitVec.ofNat_eq_ofNat, BitVec.toNat_ofNat,
    BitVec.toNat_setWidth, Bool.toNat_true, Bool.toNat_false]
  have := c.isLt
  have := imm.isLt
  have := rd.isLt
  have := toNat_ofBool_lt high
  omega

@[simp] theorem movImmWord_op (c : BitVec 4) (high : Bool) (imm : BitVec 16) (rd : BitVec 4) :
    field (movImmWord c high imm rd) 25 22 = 13 := by
  apply field_eq
  simp only [movImmWord, toNat_cat, BitVec.toNat_ofBool, BitVec.ofNat_eq_ofNat, BitVec.toNat_ofNat,
    BitVec.toNat_setWidth, Bool.toNat_true, Bool.toNat_false]
  have := c.isLt
  have := imm.isLt
  have := rd.isLt
  have := toNat_ofBool_lt high
  omega

@[simp] theorem movImmWord_immediate (c : BitVec 4) (high : Bool) (imm : BitVec 16) (rd : BitVec 4) :
    bit (movImmWord c high imm rd) 21 = true := by
  apply bit_eq
  simp only [movImmWord, toNat_cat, BitVec.toNat_ofBool, BitVec.ofNat_eq_ofNat, BitVec.toNat_ofNat,
    BitVec.toNat_setWidth, Bool.toNat_true, Bool.toNat_false]
  have := c.isLt
  have := imm.isLt
  have := rd.isLt
  have := toNat_ofBool_lt high
  omega

@[simp] theorem movImmWord_high (c : BitVec 4) (high : Bool) (imm : BitVec 16) (rd : BitVec 4) :
    bit (movImmWord c high imm rd) 20 = high := by
  apply bit_eq
  simp only [movImmWord, toNat_cat, BitVec.toNat_ofBool, BitVec.ofNat_eq_ofNat, BitVec.toNat_ofNat,
    BitVec.toNat_setWidth, Bool.toNat_true, Bool.toNat_false]
  have := c.isLt
  have := imm.isLt
  have := rd.isLt
  have := toNat_ofBool_lt high
  omega

@[simp] theorem movImmWord_value (c : BitVec 4) (high : Bool) (imm : BitVec 16) (rd : BitVec 4) :
    field (movImmWord c high imm rd) 19 4 = imm := by
  apply field_eq
  simp only [movImmWord, toNat_cat, BitVec.toNat_ofBool, BitVec.ofNat_eq_ofNat, BitVec.toNat_ofNat,
    BitVec.toNat_setWidth, Bool.toNat_true, Bool.toNat_false]
  have := c.isLt
  have := imm.isLt
  have := rd.isLt
  have := toNat_ofBool_lt high
  omega

@[simp] theorem movImmWord_destination (c : BitVec 4) (high : Bool) (imm : BitVec 16) (rd : BitVec 4) :
    field (movImmWord c high imm rd) 3 0 = rd := by
  apply field_eq
  simp only [movImmWord, toNat_cat, BitVec.toNat_ofBool, BitVec.ofNat_eq_ofNat, BitVec.toNat_ofNat,
    BitVec.toNat_setWidth, Bool.toNat_true, Bool.toNat_false]
  have := c.isLt
  have := imm.isLt
  have := rd.isLt
  have := toNat_ofBool_lt high
  omega

@[simp] theorem movRegWord_cond (c : BitVec 4) (m : BitVec 2) (n : BitVec 6) (rs rd : BitVec 5) :
    field (movRegWord c m n rs rd) 31 28 = c := by
  apply field_eq
  simp only [movRegWord, toNat_cat, BitVec.toNat_ofBool, BitVec.ofNat_eq_ofNat, BitVec.toNat_ofNat,
    BitVec.toNat_setWidth, Bool.toNat_true, Bool.toNat_false]
  have := c.isLt
  have := m.isLt
  have := n.isLt
  have := rs.isLt
  have := rd.isLt
  omega

@[simp] theorem movRegWord_class (c : BitVec 4) (m : BitVec 2) (n : BitVec 6) (rs rd : BitVec 5) :
    field (movRegWord c m n rs rd) 27 26 = 1 := by
  apply field_eq
  simp only [movRegWord, toNat_cat, BitVec.toNat_ofBool, BitVec.ofNat_eq_ofNat, BitVec.toNat_ofNat,
    BitVec.toNat_setWidth, Bool.toNat_true, Bool.toNat_false]
  have := c.isLt
  have := m.isLt
  have := n.isLt
  have := rs.isLt
  have := rd.isLt
  omega

@[simp] theorem movRegWord_op (c : BitVec 4) (m : BitVec 2) (n : BitVec 6) (rs rd : BitVec 5) :
    field (movRegWord c m n rs rd) 25 22 = 13 := by
  apply field_eq
  simp only [movRegWord, toNat_cat, BitVec.toNat_ofBool, BitVec.ofNat_eq_ofNat, BitVec.toNat_ofNat,
    BitVec.toNat_setWidth, Bool.toNat_true, Bool.toNat_false]
  have := c.isLt
  have := m.isLt
  have := n.isLt
  have := rs.isLt
  have := rd.isLt
  omega

@[simp] theorem movRegWord_immediate (c : BitVec 4) (m : BitVec 2) (n : BitVec 6) (rs rd : BitVec 5) :
    bit (movRegWord c m n rs rd) 21 = false := by
  apply bit_eq
  simp only [movRegWord, toNat_cat, BitVec.toNat_ofBool, BitVec.ofNat_eq_ofNat, BitVec.toNat_ofNat,
    BitVec.toNat_setWidth, Bool.toNat_true, Bool.toNat_false]
  have := c.isLt
  have := m.isLt
  have := n.isLt
  have := rs.isLt
  have := rd.isLt
  omega

@[simp] theorem movRegWord_method (c : BitVec 4) (m : BitVec 2) (n : BitVec 6) (rs rd : BitVec 5) :
    field (movRegWord c m n rs rd) 20 19 = m := by
  apply field_eq
  simp only [movRegWord, toNat_cat, BitVec.toNat_ofBool, BitVec.ofNat_eq_ofNat, BitVec.toNat_ofNat,
    BitVec.toNat_setWidth, Bool.toNat_true, Bool.toNat_false]
  have := c.isLt
  have := m.isLt
  have := n.isLt
  have := rs.isLt
  have := rd.isLt
  omega

@[simp] theorem movRegWord_amount (c : BitVec 4) (m : BitVec 2) (n : BitVec 6) (rs rd : BitVec 5) :
    field (movRegWord c m n rs rd) 18 13 = n := by
  apply field_eq
  simp only [movRegWord, toNat_cat, BitVec.toNat_ofBool, BitVec.ofNat_eq_ofNat, BitVec.toNat_ofNat,
    BitVec.toNat_setWidth, Bool.toNat_true, Bool.toNat_false]
  have := c.isLt
  have := m.isLt
  have := n.isLt
  have := rs.isLt
  have := rd.isLt
  omega

@[simp] theorem movRegWord_reserved (c : BitVec 4) (m : BitVec 2) (n : BitVec 6) (rs rd : BitVec 5) :
    field (movRegWord c m n rs rd) 12 10 = 0 := by
  apply field_eq
  simp only [movRegWord, toNat_cat, BitVec.toNat_ofBool, BitVec.ofNat_eq_ofNat, BitVec.toNat_ofNat,
    BitVec.toNat_setWidth, Bool.toNat_true, Bool.toNat_false]
  have := c.isLt
  have := m.isLt
  have := n.isLt
  have := rs.isLt
  have := rd.isLt
  omega

@[simp] theorem movRegWord_source (c : BitVec 4) (m : BitVec 2) (n : BitVec 6) (rs rd : BitVec 5) :
    field (movRegWord c m n rs rd) 9 5 = rs := by
  apply field_eq
  simp only [movRegWord, toNat_cat, BitVec.toNat_ofBool, BitVec.ofNat_eq_ofNat, BitVec.toNat_ofNat,
    BitVec.toNat_setWidth, Bool.toNat_true, Bool.toNat_false]
  have := c.isLt
  have := m.isLt
  have := n.isLt
  have := rs.isLt
  have := rd.isLt
  omega

@[simp] theorem movRegWord_destination (c : BitVec 4) (m : BitVec 2) (n : BitVec 6) (rs rd : BitVec 5) :
    field (movRegWord c m n rs rd) 4 0 = rd := by
  apply field_eq
  simp only [movRegWord, toNat_cat, BitVec.toNat_ofBool, BitVec.ofNat_eq_ofNat, BitVec.toNat_ofNat,
    BitVec.toNat_setWidth, Bool.toNat_true, Bool.toNat_false]
  have := c.isLt
  have := m.isLt
  have := n.isLt
  have := rs.isLt
  have := rd.isLt
  omega

@[simp] theorem jumpImmWord_cond (c : BitVec 4) (op : BitVec 2) (off : BitVec 23) :
    field (jumpImmWord c op off) 31 28 = c := by
  apply field_eq
  simp only [jumpImmWord, toNat_cat, BitVec.toNat_ofBool, BitVec.ofNat_eq_ofNat, BitVec.toNat_ofNat,
    BitVec.toNat_setWidth, Bool.toNat_true, Bool.toNat_false]
  have := c.isLt
  have := op.isLt
  have := off.isLt
  omega

@[simp] theorem jumpImmWord_class (c : BitVec 4) (op : BitVec 2) (off : BitVec 23) :
    field (jumpImmWord c op off) 27 26 = 2 := by
  apply field_eq
  simp only [jumpImmWord, toNat_cat, BitVec.toNat_ofBool, BitVec.ofNat_eq_ofNat, BitVec.toNat_ofNat,
    BitVec.toNat_setWidth, Bool.toNat_true, Bool.toNat_false]
  have := c.isLt
  have := op.isLt
  have := off.isLt
  omega

@[simp] theorem jumpImmWord_op (c : BitVec 4) (op : BitVec 2) (off : BitVec 23) :
    field (jumpImmWord c op off) 25 24 = op := by
  apply field_eq
  simp only [jumpImmWord, toNat_cat, BitVec.toNat_ofBool, BitVec.ofNat_eq_ofNat, BitVec.toNat_ofNat,
    BitVec.toNat_setWidth, Bool.toNat_true, Bool.toNat_false]
  have := c.isLt
  have := op.isLt
  have := off.isLt
  omega

@[simp] theorem jumpImmWord_immediate (c : BitVec 4) (op : BitVec 2) (off : BitVec 23) :
    bit (jumpImmWord c op off) 23 = true := by
  apply bit_eq
  simp only [jumpImmWord, toNat_cat, BitVec.toNat_ofBool, BitVec.ofNat_eq_ofNat, BitVec.toNat_ofNat,
    BitVec.toNat_setWidth, Bool.toNat_true, Bool.toNat_false]
  have := c.isLt
  have := op.isLt
  have := off.isLt
  omega

@[simp] theorem jumpImmWord_offset (c : BitVec 4) (op : BitVec 2) (off : BitVec 23) :
    field (jumpImmWord c op off) 22 0 = off := by
  apply field_eq
  simp only [jumpImmWord, toNat_cat, BitVec.toNat_ofBool, BitVec.ofNat_eq_ofNat, BitVec.toNat_ofNat,
    BitVec.toNat_setWidth, Bool.toNat_true, Bool.toNat_false]
  have := c.isLt
  have := op.isLt
  have := off.isLt
  omega

@[simp] theorem jumpRegWord_cond (c : BitVec 4) (op : BitVec 2) (asOffset : Bool) (rs : BitVec 4) :
    field (jumpRegWord c op asOffset rs) 31 28 = c := by
  apply field_eq
  simp only [jumpRegWord, toNat_cat, BitVec.toNat_ofBool, BitVec.ofNat_eq_ofNat, BitVec.toNat_ofNat,
    BitVec.toNat_setWidth, Bool.toNat_true, Bool.toNat_false]
  have := c.isLt
  have := op.isLt
  have := rs.isLt
  have := toNat_ofBool_lt asOffset
  omega

@[simp] theorem jumpRegWord_class (c : BitVec 4) (op : BitVec 2) (asOffset : Bool) (rs : BitVec 4) :
    field (jumpRegWord c op asOffset rs) 27 26 = 2 := by
  apply field_eq
  simp only [jumpRegWord, toNat_cat, BitVec.toNat_ofBool, BitVec.ofNat_eq_ofNat, BitVec.toNat_ofNat,
    BitVec.toNat_setWidth, Bool.toNat_true, Bool.toNat_false]
  have := c.isLt
  have := op.isLt
  have := rs.isLt
  have := toNat_ofBool_lt asOffset
  omega

@[simp] theorem jumpRegWord_op (c : BitVec 4) (op : BitVec 2) (asOffset : Bool) (rs : BitVec 4) :
    field (jumpRegWord c op asOffset rs) 25 24 = op := by
  apply field_eq
  simp only [jumpRegWord, toNat_cat, BitVec.toNat_ofBool, BitVec.ofNat_eq_ofNat, BitVec.toNat_ofNat,
    BitVec.toNat_setWidth, Bool.toNat_true, Bool.toNat_false]
  have := c.isLt
  have := op.isLt
  have := rs.isLt
  have := toNat_ofBool_lt asOffset
  omega

@[simp] theorem jumpRegWord_immediate (c : BitVec 4) (op : BitVec 2) (asOffset : Bool) (rs : BitVec 4) :
    bit (jumpRegWord c op asOffset rs) 23 = false := by
  apply bit_eq
  simp only [jumpRegWord, toNat_cat, BitVec.toNat_ofBool, BitVec.ofNat_eq_ofNat, BitVec.toNat_ofNat,
    BitVec.toNat_setWidth, Bool.toNat_true, Bool.toNat_false]
  have := c.isLt
  have := op.isLt
  have := rs.isLt
  have := toNat_ofBool_lt asOffset
  omega

@[simp] theorem jumpRegWord_asOffset (c : BitVec 4) (op : BitVec 2) (asOffset : Bool) (rs : BitVec 4) :
    bit (jumpRegWord c op asOffset rs) 22 = asOffset := by
  apply bit_eq
  simp only [jumpRegWord, toNat_cat, BitVec.toNat_ofBool, BitVec.ofNat_eq_ofNat, BitVec.toNat_ofNat,
    BitVec.toNat_setWidth, Bool.toNat_true, Bool.toNat_false]
  have := c.isLt
  have := op.isLt
  have := rs.isLt
  have := toNat_ofBool_lt asOffset
  omega

@[simp] theorem jumpRegWord_reserved (c : BitVec 4) (op : BitVec 2) (asOffset : Bool) (rs : BitVec 4) :
    field (jumpRegWord c op asOffset rs) 21 4 = 0 := by
  apply field_eq
  simp only [jumpRegWord, toNat_cat, BitVec.toNat_ofBool, BitVec.ofNat_eq_ofNat, BitVec.toNat_ofNat,
    BitVec.toNat_setWidth, Bool.toNat_true, Bool.toNat_false]
  have := c.isLt
  have := op.isLt
  have := rs.isLt
  have := toNat_ofBool_lt asOffset
  omega

@[simp] theorem jumpRegWord_source (c : BitVec 4) (op : BitVec 2) (asOffset : Bool) (rs : BitVec 4) :
    field (jumpRegWord c op asOffset rs) 3 0 = rs := by
  apply field_eq
  simp only [jumpRegWord, toNat_cat, BitVec.toNat_ofBool, BitVec.ofNat_eq_ofNat, BitVec.toNat_ofNat,
    BitVec.toNat_setWidth, Bool.toNat_true, Bool.toNat_false]
  have := c.isLt
  have := op.isLt
  have := rs.isLt
  have := toNat_ofBool_lt asOffset
  omega

@[simp] theorem returnWord_cond (c : BitVec 4) :
    field (returnWord c) 31 28 = c := by
  apply field_eq
  simp only [returnWord, toNat_cat, BitVec.toNat_ofBool, BitVec.ofNat_eq_ofNat, BitVec.toNat_ofNat,
    BitVec.toNat_setWidth, Bool.toNat_true, Bool.toNat_false]
  have := c.isLt
  omega

@[simp] theorem returnWord_class (c : BitVec 4) :
    field (returnWord c) 27 26 = 2 := by
  apply field_eq
  simp only [returnWord, toNat_cat, BitVec.toNat_ofBool, BitVec.ofNat_eq_ofNat, BitVec.toNat_ofNat,
    BitVec.toNat_setWidth, Bool.toNat_true, Bool.toNat_false]
  have := c.isLt
  omega

@[simp] theorem returnWord_op (c : BitVec 4) :
    field (returnWord c) 25 24 = 2 := by
  apply field_eq
  simp only [returnWord, toNat_cat, BitVec.toNat_ofBool, BitVec.ofNat_eq_ofNat, BitVec.toNat_ofNat,
    BitVec.toNat_setWidth, Bool.toNat_true, Bool.toNat_false]
  have := c.isLt
  omega

@[simp] theorem returnWord_reserved (c : BitVec 4) :
    field (returnWord c) 23 0 = 0 := by
  apply field_eq
  simp only [returnWord, toNat_cat, BitVec.toNat_ofBool, BitVec.ofNat_eq_ofNat, BitVec.toNat_ofNat,
    BitVec.toNat_setWidth, Bool.toNat_true, Bool.toNat_false]
  have := c.isLt
  omega

@[simp] theorem specialWord_cond (c op : BitVec 4) :
    field (specialWord c op) 31 28 = c := by
  apply field_eq
  simp only [specialWord, toNat_cat, BitVec.toNat_ofBool, BitVec.ofNat_eq_ofNat, BitVec.toNat_ofNat,
    BitVec.toNat_setWidth, Bool.toNat_true, Bool.toNat_false]
  have := c.isLt
  have := op.isLt
  omega

@[simp] theorem specialWord_class (c op : BitVec 4) :
    field (specialWord c op) 27 26 = 3 := by
  apply field_eq
  simp only [specialWord, toNat_cat, BitVec.toNat_ofBool, BitVec.ofNat_eq_ofNat, BitVec.toNat_ofNat,
    BitVec.toNat_setWidth, Bool.toNat_true, Bool.toNat_false]
  have := c.isLt
  have := op.isLt
  omega

@[simp] theorem specialWord_op (c op : BitVec 4) :
    field (specialWord c op) 25 22 = op := by
  apply field_eq
  simp only [specialWord, toNat_cat, BitVec.toNat_ofBool, BitVec.ofNat_eq_ofNat, BitVec.toNat_ofNat,
    BitVec.toNat_setWidth, Bool.toNat_true, Bool.toNat_false]
  have := c.isLt
  have := op.isLt
  omega

@[simp] theorem specialWord_reserved (c op : BitVec 4) :
    field (specialWord c op) 21 0 = 0 := by
  apply field_eq
  simp only [specialWord, toNat_cat, BitVec.toNat_ofBool, BitVec.ofNat_eq_ofNat, BitVec.toNat_ofNat,
    BitVec.toNat_setWidth, Bool.toNat_true, Bool.toNat_false]
  have := c.isLt
  have := op.isLt
  omega

end Sys2Proof
end

