-- ==== Sys2Proof/Laws/State.lean ====
section
/-! SUPPORT. One lemma per field per update of the state, so that no later proof unfolds a record update. -/

namespace Sys2Proof.Machine

variable (s : State)

/-! ### `advance` -/

@[simp] theorem advance_gpr : (s.advance).gpr = s.gpr := rfl
@[simp] theorem advance_lr : (s.advance).lr = s.lr := rfl
@[simp] theorem advance_sp : (s.advance).sp = s.sp := rfl
@[simp] theorem advance_cpsr : (s.advance).cpsr = s.cpsr := rfl
@[simp] theorem advance_halted : (s.advance).halted = s.halted := rfl
@[simp] theorem advance_mem : (s.advance).mem = s.mem := rfl
@[simp] theorem advance_imem : (s.advance).imem = s.imem := rfl
@[simp] theorem advance_stored : (s.advance).stored = s.stored := rfl
@[simp] theorem advance_params : (s.advance).params = s.params := rfl

/-! ### `jumpTo` -/

@[simp] theorem jumpTo_gpr (a : Word) : (s.jumpTo a).gpr = s.gpr := rfl
@[simp] theorem jumpTo_lr (a : Word) : (s.jumpTo a).lr = s.lr := rfl
@[simp] theorem jumpTo_sp (a : Word) : (s.jumpTo a).sp = s.sp := rfl
@[simp] theorem jumpTo_cpsr (a : Word) : (s.jumpTo a).cpsr = s.cpsr := rfl
@[simp] theorem jumpTo_halted (a : Word) : (s.jumpTo a).halted = s.halted := rfl
@[simp] theorem jumpTo_mem (a : Word) : (s.jumpTo a).mem = s.mem := rfl
@[simp] theorem jumpTo_imem (a : Word) : (s.jumpTo a).imem = s.imem := rfl
@[simp] theorem jumpTo_stored (a : Word) : (s.jumpTo a).stored = s.stored := rfl
@[simp] theorem jumpTo_params (a : Word) : (s.jumpTo a).params = s.params := rfl

/-! ### `linkAndJumpTo` -/

@[simp] theorem linkAndJumpTo_gpr (a : Word) : (s.linkAndJumpTo a).gpr = s.gpr := rfl
@[simp] theorem linkAndJumpTo_sp (a : Word) : (s.linkAndJumpTo a).sp = s.sp := rfl
@[simp] theorem linkAndJumpTo_cpsr (a : Word) : (s.linkAndJumpTo a).cpsr = s.cpsr := rfl
@[simp] theorem linkAndJumpTo_halted (a : Word) : (s.linkAndJumpTo a).halted = s.halted := rfl
@[simp] theorem linkAndJumpTo_mem (a : Word) : (s.linkAndJumpTo a).mem = s.mem := rfl
@[simp] theorem linkAndJumpTo_imem (a : Word) : (s.linkAndJumpTo a).imem = s.imem := rfl
@[simp] theorem linkAndJumpTo_stored (a : Word) : (s.linkAndJumpTo a).stored = s.stored := rfl
@[simp] theorem linkAndJumpTo_params (a : Word) : (s.linkAndJumpTo a).params = s.params := rfl

/-! ### `setN` -/

@[simp] theorem setN_gpr (b : Bool) : (s.setN b).gpr = s.gpr := rfl
@[simp] theorem setN_lr (b : Bool) : (s.setN b).lr = s.lr := rfl
@[simp] theorem setN_sp (b : Bool) : (s.setN b).sp = s.sp := rfl
@[simp] theorem setN_pc (b : Bool) : (s.setN b).pc = s.pc := rfl
@[simp] theorem setN_halted (b : Bool) : (s.setN b).halted = s.halted := rfl
@[simp] theorem setN_mem (b : Bool) : (s.setN b).mem = s.mem := rfl
@[simp] theorem setN_imem (b : Bool) : (s.setN b).imem = s.imem := rfl
@[simp] theorem setN_stored (b : Bool) : (s.setN b).stored = s.stored := rfl
@[simp] theorem setN_params (b : Bool) : (s.setN b).params = s.params := rfl

/-! ### `setZ` -/

@[simp] theorem setZ_gpr (b : Bool) : (s.setZ b).gpr = s.gpr := rfl
@[simp] theorem setZ_lr (b : Bool) : (s.setZ b).lr = s.lr := rfl
@[simp] theorem setZ_sp (b : Bool) : (s.setZ b).sp = s.sp := rfl
@[simp] theorem setZ_pc (b : Bool) : (s.setZ b).pc = s.pc := rfl
@[simp] theorem setZ_halted (b : Bool) : (s.setZ b).halted = s.halted := rfl
@[simp] theorem setZ_mem (b : Bool) : (s.setZ b).mem = s.mem := rfl
@[simp] theorem setZ_imem (b : Bool) : (s.setZ b).imem = s.imem := rfl
@[simp] theorem setZ_stored (b : Bool) : (s.setZ b).stored = s.stored := rfl
@[simp] theorem setZ_params (b : Bool) : (s.setZ b).params = s.params := rfl

/-! ### `setC` -/

@[simp] theorem setC_gpr (b : Bool) : (s.setC b).gpr = s.gpr := rfl
@[simp] theorem setC_lr (b : Bool) : (s.setC b).lr = s.lr := rfl
@[simp] theorem setC_sp (b : Bool) : (s.setC b).sp = s.sp := rfl
@[simp] theorem setC_pc (b : Bool) : (s.setC b).pc = s.pc := rfl
@[simp] theorem setC_halted (b : Bool) : (s.setC b).halted = s.halted := rfl
@[simp] theorem setC_mem (b : Bool) : (s.setC b).mem = s.mem := rfl
@[simp] theorem setC_imem (b : Bool) : (s.setC b).imem = s.imem := rfl
@[simp] theorem setC_stored (b : Bool) : (s.setC b).stored = s.stored := rfl
@[simp] theorem setC_params (b : Bool) : (s.setC b).params = s.params := rfl

/-! ### `setV` -/

@[simp] theorem setV_gpr (b : Bool) : (s.setV b).gpr = s.gpr := rfl
@[simp] theorem setV_lr (b : Bool) : (s.setV b).lr = s.lr := rfl
@[simp] theorem setV_sp (b : Bool) : (s.setV b).sp = s.sp := rfl
@[simp] theorem setV_pc (b : Bool) : (s.setV b).pc = s.pc := rfl
@[simp] theorem setV_halted (b : Bool) : (s.setV b).halted = s.halted := rfl
@[simp] theorem setV_mem (b : Bool) : (s.setV b).mem = s.mem := rfl
@[simp] theorem setV_imem (b : Bool) : (s.setV b).imem = s.imem := rfl
@[simp] theorem setV_stored (b : Bool) : (s.setV b).stored = s.stored := rfl
@[simp] theorem setV_params (b : Bool) : (s.setV b).params = s.params := rfl

/-! ### `setLogicalFlags` -/

@[simp] theorem setLogicalFlags_gpr (x : Word) : (s.setLogicalFlags x).gpr = s.gpr := rfl
@[simp] theorem setLogicalFlags_lr (x : Word) : (s.setLogicalFlags x).lr = s.lr := rfl
@[simp] theorem setLogicalFlags_sp (x : Word) : (s.setLogicalFlags x).sp = s.sp := rfl
@[simp] theorem setLogicalFlags_pc (x : Word) : (s.setLogicalFlags x).pc = s.pc := rfl
@[simp] theorem setLogicalFlags_halted (x : Word) : (s.setLogicalFlags x).halted = s.halted := rfl
@[simp] theorem setLogicalFlags_mem (x : Word) : (s.setLogicalFlags x).mem = s.mem := rfl
@[simp] theorem setLogicalFlags_imem (x : Word) : (s.setLogicalFlags x).imem = s.imem := rfl
@[simp] theorem setLogicalFlags_stored (x : Word) : (s.setLogicalFlags x).stored = s.stored := rfl
@[simp] theorem setLogicalFlags_params (x : Word) : (s.setLogicalFlags x).params = s.params := rfl

/-! ### `setArithmeticFlags` -/

@[simp] theorem setArithmeticFlags_gpr (o : AddOut) : (s.setArithmeticFlags o).gpr = s.gpr := rfl
@[simp] theorem setArithmeticFlags_lr (o : AddOut) : (s.setArithmeticFlags o).lr = s.lr := rfl
@[simp] theorem setArithmeticFlags_sp (o : AddOut) : (s.setArithmeticFlags o).sp = s.sp := rfl
@[simp] theorem setArithmeticFlags_pc (o : AddOut) : (s.setArithmeticFlags o).pc = s.pc := rfl
@[simp] theorem setArithmeticFlags_halted (o : AddOut) : (s.setArithmeticFlags o).halted = s.halted := rfl
@[simp] theorem setArithmeticFlags_mem (o : AddOut) : (s.setArithmeticFlags o).mem = s.mem := rfl
@[simp] theorem setArithmeticFlags_imem (o : AddOut) : (s.setArithmeticFlags o).imem = s.imem := rfl
@[simp] theorem setArithmeticFlags_stored (o : AddOut) : (s.setArithmeticFlags o).stored = s.stored := rfl
@[simp] theorem setArithmeticFlags_params (o : AddOut) : (s.setArithmeticFlags o).params = s.params := rfl

@[simp] theorem advance_pc : s.advance.pc = s.pc + BitVec.ofNat 32 s.params.wordUnits := rfl
@[simp] theorem jumpTo_pc (a : Word) : (s.jumpTo a).pc = a := rfl
@[simp] theorem linkAndJumpTo_pc (a : Word) : (s.linkAndJumpTo a).pc = a := rfl
@[simp] theorem linkAndJumpTo_lr (a : Word) : (s.linkAndJumpTo a).lr = s.pc := rfl
@[simp] theorem setN_cpsr (b : Bool) : (s.setN b).cpsr = setBit s.cpsr s.params.layout.n b := rfl
@[simp] theorem setZ_cpsr (b : Bool) : (s.setZ b).cpsr = setBit s.cpsr s.params.layout.z b := rfl
@[simp] theorem setC_cpsr (b : Bool) : (s.setC b).cpsr = setBit s.cpsr s.params.layout.c b := rfl
@[simp] theorem setV_cpsr (b : Bool) : (s.setV b).cpsr = setBit s.cpsr s.params.layout.v b := rfl
@[simp] theorem setLogicalFlags_cpsr (x : Word) : (s.setLogicalFlags x).cpsr =
    setBit (setBit s.cpsr s.params.layout.n x.msb) s.params.layout.z (x == 0) := rfl
@[simp] theorem setArithmeticFlags_cpsr (o : AddOut) : (s.setArithmeticFlags o).cpsr =
    setBit (setBit (setBit (setBit s.cpsr s.params.layout.n o.res.msb) s.params.layout.z (o.res == 0))
      s.params.layout.c o.cout) s.params.layout.v o.ovf := rfl

/-! ### Writing a register -/

@[simp] theorem writeReg_halted (r : Reg) (v : Word) : (s.writeReg r v).halted = s.halted := by cases r <;> rfl
@[simp] theorem writeShifted_halted (r : Reg) (sh : Shift) (v : Word) : (s.writeShifted r sh v).halted = s.halted := by
  simp [State.writeShifted]
@[simp] theorem writeBack_halted (b : Bool) (r : Reg) (v : Word) : (s.writeBack b r v).halted = s.halted := by
  cases b <;> simp [State.writeBack]
@[simp] theorem writeReg_mem (r : Reg) (v : Word) : (s.writeReg r v).mem = s.mem := by cases r <;> rfl
@[simp] theorem writeShifted_mem (r : Reg) (sh : Shift) (v : Word) : (s.writeShifted r sh v).mem = s.mem := by
  simp [State.writeShifted]
@[simp] theorem writeBack_mem (b : Bool) (r : Reg) (v : Word) : (s.writeBack b r v).mem = s.mem := by
  cases b <;> simp [State.writeBack]
@[simp] theorem writeReg_imem (r : Reg) (v : Word) : (s.writeReg r v).imem = s.imem := by cases r <;> rfl
@[simp] theorem writeShifted_imem (r : Reg) (sh : Shift) (v : Word) : (s.writeShifted r sh v).imem = s.imem := by
  simp [State.writeShifted]
@[simp] theorem writeBack_imem (b : Bool) (r : Reg) (v : Word) : (s.writeBack b r v).imem = s.imem := by
  cases b <;> simp [State.writeBack]
@[simp] theorem writeReg_stored (r : Reg) (v : Word) : (s.writeReg r v).stored = s.stored := by cases r <;> rfl
@[simp] theorem writeShifted_stored (r : Reg) (sh : Shift) (v : Word) : (s.writeShifted r sh v).stored = s.stored := by
  simp [State.writeShifted]
@[simp] theorem writeBack_stored (b : Bool) (r : Reg) (v : Word) : (s.writeBack b r v).stored = s.stored := by
  cases b <;> simp [State.writeBack]
@[simp] theorem writeReg_params (r : Reg) (v : Word) : (s.writeReg r v).params = s.params := by cases r <;> rfl
@[simp] theorem writeShifted_params (r : Reg) (sh : Shift) (v : Word) : (s.writeShifted r sh v).params = s.params := by
  simp [State.writeShifted]
@[simp] theorem writeBack_params (b : Bool) (r : Reg) (v : Word) : (s.writeBack b r v).params = s.params := by
  cases b <;> simp [State.writeBack]

/-! ### Reading a register by its name -/

@[simp] theorem readReg_r (i : Fin 13) : s.readReg (.r i) = s.gpr[i] := rfl
@[simp] theorem readReg_lr : s.readReg .lr = s.lr := rfl
@[simp] theorem readReg_sp : s.readReg .sp = s.sp := rfl
@[simp] theorem readReg_pc : s.readReg .pc = s.pc := rfl
@[simp] theorem readReg_cpsr : s.readReg .cpsr = s.cpsr.setWidth 32 := rfl

end Sys2Proof.Machine
end

