-- ==== Sys2Proof/Laws/Registers.lean ====
section
/-! SUPPORT. What reading a register answers after each write (00_scope.md R8, 10_state.md R30). -/

namespace Sys2Proof.Machine

variable (s : State)

/-- A written register other than the CPSR reads as the value written. -/
@[simp] theorem readReg_writeReg_self {r : Reg} (h : r ≠ .cpsr) (v : Word) :
    (s.writeReg r v).readReg r = v := by
  cases r <;> simp_all [State.writeReg, State.readReg]

/-- The CPSR reads as bits 7-0 of the value written. -/
@[simp] theorem readReg_writeReg_cpsr (v : Word) :
    (s.writeReg .cpsr v).readReg .cpsr = (v.setWidth 8).setWidth 32 := rfl

/-- A register write leaves every other register alone. -/
@[simp] theorem readReg_writeReg_of_ne {r q : Reg} (h : q ≠ r) (v : Word) :
    (s.writeReg r v).readReg q = s.readReg q := by
  cases r with
  | r i =>
    cases q with
    | r j =>
      have hij : i ≠ j := fun e => h (e ▸ rfl)
      simp only [State.writeReg, State.readReg]
      exact Vector.getElem_set_ne _ _ (fun e => hij (Fin.ext e))
    | _ => rfl
  | _ => cases q <;> first | rfl | exact absurd rfl h

/-- Writing a register back with what it holds changes nothing. -/
theorem writeReg_readReg (r : Reg) : s.writeReg r (s.readReg r) = s := by
  cases r with
  | r i => simp [State.writeReg]
  | cpsr => simp [State.writeReg]
  | _ => rfl

/-- Flag writes leave every register but the CPSR alone. -/
@[simp] theorem readReg_setLogicalFlags {r : Reg} (h : r ≠ .cpsr) (x : Word) :
    (s.setLogicalFlags x).readReg r = s.readReg r := by
  cases r <;> first | rfl | exact absurd rfl h

/-- Flag writes leave every register but the CPSR alone. -/
@[simp] theorem readReg_setArithmeticFlags {r : Reg} (h : r ≠ .cpsr) (o : AddOut) :
    (s.setArithmeticFlags o).readReg r = s.readReg r := by
  cases r <;> first | rfl | exact absurd rfl h

/-- A jump leaves every register but the PC alone. -/
@[simp] theorem readReg_jumpTo {r : Reg} (h : r ≠ .pc) (a : Word) : (s.jumpTo a).readReg r = s.readReg r := by
  cases r <;> first | rfl | exact absurd rfl h

/-- A jump with link leaves every register but LR and the PC alone. -/
@[simp] theorem readReg_linkAndJumpTo {r : Reg} (hl : r ≠ .lr) (hp : r ≠ .pc) (a : Word) :
    (s.linkAndJumpTo a).readReg r = s.readReg r := by
  cases r <;> first | rfl | exact absurd rfl hl | exact absurd rfl hp

/-- The write of a shifted result, read back from a register other than the CPSR. -/
@[simp] theorem readReg_writeShifted_self {r : Reg} (h : r ≠ .cpsr) (sh : Shift) (v : Word) :
    (s.writeShifted r sh v).readReg r = applyShift sh v := readReg_writeReg_self s h _

/-- The write of a shifted result leaves every other register alone. -/
@[simp] theorem readReg_writeShifted_of_ne {r q : Reg} (h : q ≠ r) (sh : Shift) (v : Word) :
    (s.writeShifted r sh v).readReg q = s.readReg q := readReg_writeReg_of_ne s h _

/-- Write-back leaves every register but the address register alone. -/
@[simp] theorem readReg_writeBack_of_ne {ra q : Reg} (h : q ≠ ra) (wb : Bool) (ea : Word) :
    (s.writeBack wb ra ea).readReg q = s.readReg q := by
  cases wb
  · rfl
  · exact readReg_writeReg_of_ne s h ea

/-- The address register after the write-back: the altered address, or what it held (40_data_movement.md
R103). -/
theorem readReg_writeBack_self {ra : Reg} (h : ra ≠ .cpsr) (wb : Bool) (ea : Word) :
    (s.writeBack wb ra ea).readReg ra = if wb then ea else s.readReg ra := by
  cases wb
  · rfl
  · exact readReg_writeReg_self s h ea

/-- Registers depend on no other part of the state. -/
theorem readReg_congr {s t : State} (hg : t.gpr = s.gpr) (hl : t.lr = s.lr) (hs : t.sp = s.sp)
    (hp : t.pc = s.pc) (hc : t.cpsr = s.cpsr) (r : Reg) : t.readReg r = s.readReg r := by
  cases r <;> simp [State.readReg, *]

/-- A 4-bit register field never names the CPSR (10_state.md R21). -/
theorem ne_cpsr_of_fourBit {r : Reg} (h : r.fourBit = true) : r ≠ .cpsr := by
  rintro rfl; exact absurd h (by decide)

/-- Writing a register of a 4-bit field leaves the CPSR alone. -/
theorem writeReg_cpsr_of_ne {r : Reg} (h : r ≠ .cpsr) (v : Word) : (s.writeReg r v).cpsr = s.cpsr := by
  cases r <;> first | rfl | exact absurd rfl h

end Sys2Proof.Machine
end

