-- ==== Sys2Proof/Laws/Flags.lean ====
section
/-! SUPPORT. The flags after each flag write (10_state.md R32, R35; 41_data_processing.md R122). -/

namespace Sys2Proof.Machine

/-- A flag write changes its own bit and "leaves the other seven bits of `cpsr` alone" (00_scope.md R8). -/
theorem getLsbD_setBit (x : BitVec 8) (i : Fin 8) (b : Bool) (j : Fin 8) :
    (setBit x i b).getLsbD j = if j = i then b else x.getLsbD j := by
  have hv : (j = i) = ((j : Nat) = i) := propext Fin.ext_iff
  cases b <;> simp only [setBit, hv] <;> by_cases h : (j : Nat) = i <;> simp [h]

/-- The same, in the form simp brings a bit of a BitVec to. -/
@[simp] theorem getElem_setBit (x : BitVec 8) (i : Fin 8) (b : Bool) (j : Fin 8) :
    (setBit x i b)[(j : Nat)] = if j = i then b else x[(j : Nat)] := by
  simpa using getLsbD_setBit x i b j

/-- The four flags have four different bits (10_state.md R32). -/
theorem layout_distinct {l : CpsrLayout} (h : l.wf = true) :
    l.n ≠ l.z ∧ l.n ≠ l.c ∧ l.n ≠ l.v ∧ l.z ≠ l.c ∧ l.z ≠ l.v ∧ l.c ≠ l.v := by
  simpa [CpsrLayout.wf, and_assoc] using h

/-- What the flags of a logical instruction are (41_data_processing.md R122). -/
theorem setLogicalFlags_flags {s : State} (h : s.params.layout.wf = true) (x : Word) :
    FlagsAre s (s.setLogicalFlags x) x.msb (x == 0) s.flagC s.flagV := by
  obtain ⟨h1, h2, h3, h4, h5, h6⟩ := layout_distinct h
  constructor <;>
    simp [State.flagN, State.flagZ, State.flagC, State.flagV, isStorageBit, h1, h2.symm, h3.symm, h4.symm,
      h5.symm]
  intro i hn hz _ _
  simp [hn, hz]

/-- What the flags of an arithmetic instruction are (41_data_processing.md R122). -/
theorem setArithmeticFlags_flags {s : State} (h : s.params.layout.wf = true) (o : AddOut) :
    FlagsAre s (s.setArithmeticFlags o) o.res.msb (o.res == 0) o.cout o.ovf := by
  obtain ⟨h1, h2, h3, h4, h5, h6⟩ := layout_distinct h
  constructor <;>
    simp [State.flagN, State.flagZ, State.flagC, State.flagV, isStorageBit, h1, h2, h3, h4, h5, h6]
  intro i hn hz hc hv
  simp [hn, hz, hc, hv]

/-- The flags are read from the CPSR and the parameters alone. -/
theorem conditionPassed_congr {s t : State} (hc : t.cpsr = s.cpsr) (hp : t.params = s.params) (c : Cond) :
    t.conditionPassed c = s.conditionPassed c := by
  cases c <;> simp [State.conditionPassed, State.flagN, State.flagZ, State.flagC, State.flagV, hc, hp]

/-- `FlagsAre` reads only the CPSR and the parameters of the later state. -/
theorem FlagsAre.congr {s t u : State} {n z c v : Bool} (h : FlagsAre s t n z c v) (hc : u.cpsr = t.cpsr)
    (hp : u.params = t.params) : FlagsAre s u n z c v := by
  obtain ⟨h1, h2, h3, h4, h5⟩ := h
  constructor <;> simp_all [State.flagN, State.flagZ, State.flagC, State.flagV]

@[simp] theorem conditionPassed_al (s : State) : s.conditionPassed .al = true := rfl

end Sys2Proof.Machine
end

