-- ==== Sys2Proof/Laws/Memory.lean ====
section
/-! SUPPORT. The laws of memory: reads after writes, and the canonical form kept by every operation
(20_memory.md R53). -/

namespace Sys2Proof.Machine

/-! ### One byte -/

@[simp] theorem Memory.get_nil (k : Nat) : Memory.get [] k = unlistedByte := rfl

@[simp] theorem Memory.get_cons (j : Nat) (b : Byte) (m : Memory) (k : Nat) :
    Memory.get ((j, b) :: m) k = if j = k then b else Memory.get m k := rfl

theorem Memory.get_erase (m : Memory) (k j : Nat) :
    Memory.get (Memory.erase m k) j = if j = k then unlistedByte else Memory.get m j := by
  induction m with
  | nil => simp [Memory.erase]
  | cons c m ih =>
    obtain ⟨i, b⟩ := c
    simp only [Memory.erase] at ih
    by_cases hi : i = k
    · subst hi
      simp only [Memory.erase, List.filter_cons, bne_self_eq_false, Bool.false_eq_true, if_false, ih,
        Memory.get_cons]
      by_cases hj : j = i
      · simp [hj]
      · simp [hj, Ne.symm hj]
    · have hb : (i != k) = true := by simpa using hi
      simp only [Memory.erase, List.filter_cons, hb, if_true, Memory.get_cons, ih]
      by_cases hj : i = j
      · subst hj; simp [hi]
      · simp [hj]

theorem Memory.get_insert (m : Memory) (k : Nat) (v : Byte) (h : ∀ c ∈ m, c.1 ≠ k) (j : Nat) :
    Memory.get (Memory.insert m k v) j = if j = k then v else Memory.get m j := by
  induction m with
  | nil => simp [Memory.insert, eq_comm]
  | cons c m ih =>
    obtain ⟨i, b⟩ := c
    have hi : i ≠ k := h (i, b) (by simp)
    have ih := ih (fun c hc => h c (by simp [hc]))
    simp only [Memory.insert]
    split
    · simp [Memory.get_cons, eq_comm]
    · simp only [Memory.get_cons, ih]
      by_cases hj : i = j
      · subst hj; simp [hi]
      · simp [hj]

theorem Memory.erase_ne (m : Memory) (k : Nat) : ∀ c ∈ Memory.erase m k, c.1 ≠ k := by
  intro c hc; simpa [Memory.erase] using (List.mem_filter.mp hc).2

/-- A write to one cell: that cell reads as the value written, every other cell as before. -/
theorem Memory.get_set (m : Memory) (k : Nat) (v : Byte) (j : Nat) :
    Memory.get (Memory.set m k v) j = if j = k then v else Memory.get m j := by
  unfold Memory.set
  split
  · rename_i hv; rw [Memory.get_erase, hv]
  · rw [Memory.get_insert _ _ _ (Memory.erase_ne m k), Memory.get_erase]
    split <;> rfl

/-! ### The canonical form -/

theorem Memory.wf_cons (j : Nat) (b : Byte) (m : Memory) :
    Memory.wf ((j, b) :: m) = true ↔ b ≠ unlistedByte ∧ (∀ c ∈ m, j < c.1) ∧ Memory.wf m = true := by
  simp [Memory.wf, and_assoc]

theorem Memory.wf_erase (m : Memory) (k : Nat) (h : Memory.wf m = true) :
    Memory.wf (Memory.erase m k) = true := by
  induction m with
  | nil => rfl
  | cons c m ih =>
    obtain ⟨j, b⟩ := c
    obtain ⟨hb, hlt, hm⟩ := (Memory.wf_cons j b m).mp h
    have ih := ih hm
    simp only [Memory.erase, List.filter_cons] at ih ⊢
    split
    · exact (Memory.wf_cons ..).mpr ⟨hb, fun c hc => hlt c (List.mem_filter.mp hc).1, ih⟩
    · exact ih

theorem Memory.mem_insert (m : Memory) (k : Nat) (v : Byte) (c : Host.Cell) :
    c ∈ Memory.insert m k v ↔ c = (k, v) ∨ c ∈ m := by
  induction m with
  | nil => simp [Memory.insert]
  | cons d m ih =>
    simp only [Memory.insert]
    split
    · simp
    · simp only [List.mem_cons, ih]; tauto

theorem Memory.wf_insert (m : Memory) (k : Nat) (v : Byte) (hm : Memory.wf m = true) (hv : v ≠ unlistedByte)
    (h : ∀ c ∈ m, c.1 ≠ k) : Memory.wf (Memory.insert m k v) = true := by
  induction m with
  | nil => simpa [Memory.insert, Memory.wf] using hv
  | cons c m ih =>
    obtain ⟨j, b⟩ := c
    obtain ⟨hb, hlt, hm'⟩ := (Memory.wf_cons j b m).mp hm
    have hj : j ≠ k := h (j, b) (by simp)
    simp only [Memory.insert]
    split
    · rename_i hk
      refine (Memory.wf_cons ..).mpr ⟨hv, fun c hc => ?_, hm⟩
      rcases List.mem_cons.mp hc with rfl | hc
      · exact hk
      · exact lt_trans hk (hlt c hc)
    · rename_i hk
      refine (Memory.wf_cons ..).mpr ⟨hb, fun c hc => ?_, ih hm' (fun c hc => h c (by simp [hc]))⟩
      rcases (Memory.mem_insert ..).mp hc with rfl | hc
      · simp only; omega
      · exact hlt c hc

/-- A write keeps the canonical form. -/
theorem Memory.wf_set (m : Memory) (k : Nat) (v : Byte) (h : Memory.wf m = true) :
    Memory.wf (Memory.set m k v) = true := by
  unfold Memory.set
  split
  · exact Memory.wf_erase m k h
  · rename_i hv
    exact Memory.wf_insert _ k v (Memory.wf_erase m k h) hv (Memory.erase_ne m k)

/-- A write lists no cell but the one written beside those listed before. -/
theorem Memory.mem_set {m : Memory} {k : Nat} {v : Byte} {c : Host.Cell} (h : c ∈ Memory.set m k v) :
    c.1 = k ∨ c ∈ m := by
  unfold Memory.set at h
  split at h
  · exact .inr (List.mem_filter.mp h).1
  · rcases (Memory.mem_insert ..).mp h with rfl | h
    · exact .inl rfl
    · exact .inr (List.mem_filter.mp h).1

/-! ### One word -/

theorem Memory.wf_writeWord (m : Memory) (p : Params) (a v : Word) (h : Memory.wf m = true) :
    Memory.wf (Memory.writeWord m p a v) = true := by
  simp only [Memory.writeWord]
  exact Memory.wf_set _ _ _ (Memory.wf_set _ _ _ (Memory.wf_set _ _ _ (Memory.wf_set _ _ _ h)))

/-- A word write lists no cell but the word's four beside those listed before. -/
theorem Memory.mem_writeWord {m : Memory} {p : Params} {a v : Word} {c : Host.Cell}
    (h : c ∈ Memory.writeWord m p a v) : (cellBase p a ≤ c.1 ∧ c.1 < cellBase p a + 4) ∨ c ∈ m := by
  simp only [Memory.writeWord] at h
  rcases Memory.mem_set h with h | h
  · left; omega
  · rcases Memory.mem_set h with h | h
    · left; omega
    · rcases Memory.mem_set h with h | h
      · left; omega
      · rcases Memory.mem_set h with h | h
        · left; omega
        · exact .inr h

/-- Every byte of memory after a word write: the word's four bytes, and every other byte as before. -/
theorem Memory.get_writeWord (m : Memory) (p : Params) (a v : Word) (k : Nat) :
    Memory.get (Memory.writeWord m p a v) k =
      if k = cellBase p a + 3 then byteOfWord p.byteOrder v 3
      else if k = cellBase p a + 2 then byteOfWord p.byteOrder v 2
      else if k = cellBase p a + 1 then byteOfWord p.byteOrder v 1
      else if k = cellBase p a then byteOfWord p.byteOrder v 0
      else Memory.get m k := by
  simp only [Memory.writeWord, Memory.get_set]

/-- Outside its four bytes a word write changes nothing. -/
theorem Memory.get_writeWord_outside (m : Memory) (p : Params) (a v : Word) (k : Nat)
    (h : k < cellBase p a ∨ cellBase p a + 4 ≤ k) :
    Memory.get (Memory.writeWord m p a v) k = Memory.get m k := by
  rw [Memory.get_writeWord, if_neg (by omega), if_neg (by omega), if_neg (by omega), if_neg (by omega)]

theorem wordOfBytes_byteOfWord (o : ByteOrder) (v : Word) :
    wordOfBytes o (byteOfWord o v 0) (byteOfWord o v 1) (byteOfWord o v 2) (byteOfWord o v 3) = v := by
  cases o <;> (simp only [wordOfBytes, byteOfWord]; ext i hi; simp; grind)

/-- A word reads back as it was written (20_memory.md R53). -/
@[simp] theorem Memory.readWord_writeWord_self (m : Memory) (p : Params) (a v : Word) :
    Memory.readWord (Memory.writeWord m p a v) p a = v := by
  simp [Memory.readWord, Memory.get_writeWord, wordOfBytes_byteOfWord]

/-- The reads of a word agree where the word's four bytes do. -/
theorem Memory.readWord_congr {m n : Memory} (p : Params) (a : Word)
    (h : ∀ k, cellBase p a ≤ k → k < cellBase p a + 4 → Memory.get m k = Memory.get n k) :
    Memory.readWord m p a = Memory.readWord n p a := by
  simp only [Memory.readWord]
  rw [h _ (by omega) (by omega), h _ (by omega) (by omega), h _ (by omega) (by omega), h _ (by omega) (by omega)]

/-- The cells of two different aligned words do not meet. -/
theorem cellBase_disjoint {p : Params} {a b : Word} (ha : aligned p a = true) (hb : aligned p b = true)
    (h : a ≠ b) : cellBase p a + 4 ≤ cellBase p b ∨ cellBase p b + 4 ≤ cellBase p a := by
  have h' : a.toNat ≠ b.toNat := fun e => h (BitVec.eq_of_toNat_eq e)
  unfold aligned Params.wordUnits at ha hb
  unfold cellBase
  cases hu : p.unit <;> simp [hu] at ha hb ⊢ <;> omega

/-- A word write changes only the addressed word (20_memory.md R53, R58). -/
theorem Memory.readWord_writeWord_of_ne (m : Memory) {p : Params} {a b : Word} (v : Word)
    (ha : aligned p a = true) (hb : aligned p b = true) (h : b ≠ a) :
    Memory.readWord (Memory.writeWord m p a v) p b = Memory.readWord m p b := by
  apply Memory.readWord_congr
  intro k h1 h2
  apply Memory.get_writeWord_outside
  rcases cellBase_disjoint ha hb h.symm with h | h <;> omega

/-- The cells of an aligned word lie within the address space. -/
theorem cellBase_lt {p : Params} {a : Word} (h : aligned p a = true) : cellBase p a + 4 ≤ cellCount p := by
  have := a.isLt
  unfold aligned Params.wordUnits at h
  unfold cellBase cellCount
  cases hu : p.unit <;> simp [hu] at h ⊢ <;> omega

/-! ### The stored-to addresses -/

theorem mem_addStored (l : List Nat) (a x : Nat) : x ∈ addStored l a ↔ x = a ∨ x ∈ l := by
  induction l with
  | nil => simp [addStored]
  | cons b l ih =>
    simp only [addStored]
    split
    · simp
    · split
      · rename_i h; subst h; simp
      · simp only [List.mem_cons, ih]; tauto

theorem addStored_rising (l : List Nat) (a : Nat) (h : l.Pairwise (fun x y => x < y)) :
    (addStored l a).Pairwise (fun x y => x < y) := by
  induction l with
  | nil => simp [addStored]
  | cons b l ih =>
    obtain ⟨h1, h2⟩ := List.pairwise_cons.mp h
    simp only [addStored]
    split
    · rename_i hab
      refine List.pairwise_cons.mpr ⟨fun x hx => ?_, h⟩
      rcases List.mem_cons.mp hx with rfl | hx
      · exact hab
      · exact lt_trans hab (h1 x hx)
    · split
      · exact h
      · refine List.pairwise_cons.mpr ⟨fun x hx => ?_, ih h2⟩
        rcases (mem_addStored ..).mp hx with rfl | hx
        · omega
        · exact h1 x hx

/-! ### Reset -/

/-- The memory right after reset is in canonical form. -/
theorem reset_mem_wf : Memory.wf State.reset.mem = true := rfl

end Sys2Proof.Machine
end

