-- ==== Sys2Proof/Laws/Operations.lean ====
section
/-! SUPPORT. Each shared operation once: everything it can do, for later proofs to cite instead of unfolding
it. -/

namespace Sys2Proof.Machine

variable {s t : State}

/-! ### Conditions -/

theorem onCondition_pass {c : Cond} (h : s.conditionPassed c = true) (o : Outcome) :
    s.onCondition c o = o := by simp [State.onCondition, h]

theorem onCondition_fail {c : Cond} (h : s.conditionPassed c = false) (o : Outcome) :
    s.onCondition c o = .next s := by simp [State.onCondition, h]

/-- Everything a conditional execution can do: run the body, or change nothing further. -/
theorem onCondition_next {c : Cond} {o : Outcome} (h : s.onCondition c o = .next t) :
    (s.conditionPassed c = true ∧ o = .next t) ∨ (s.conditionPassed c = false ∧ t = s) := by
  cases hc : s.conditionPassed c
  · rw [onCondition_fail hc] at h; cases h; exact .inr ⟨rfl, rfl⟩
  · rw [onCondition_pass hc] at h; exact .inl ⟨rfl, h⟩

/-! ### Memory access -/

/-- When the checks of a data access pass (20_memory.md R53, R63). -/
theorem dataCheck_none {a : Word} : s.dataCheck a = none ↔
    aligned s.params a = true ∧ populatedAt s.params a = true ∧ dataExcluded s.params a = false := by
  unfold State.dataCheck
  split
  · simp_all
  · split
    · simp_all
    · split <;> simp_all

/-- Everything a `MemRead` can do. -/
theorem memRead_ok {a v : Word} : s.memRead a = .ok v ↔
    s.dataCheck a = none ∧ Memory.readWord s.mem s.params a = v := by
  unfold State.memRead
  cases s.dataCheck a <;> simp

/-- Everything a `MemWrite` can do. -/
theorem memWrite_ok {a v : Word} : s.memWrite a v = .ok t ↔
    s.dataCheck a = none ∧
    { s with mem := Memory.writeWord s.mem s.params a v, stored := addStored s.stored a.toNat } = t := by
  unfold State.memWrite
  cases s.dataCheck a <;> simp

/-- Everything a fetch can do (60_exceptions.md R196 (1), (2)). -/
theorem fetch_ok {w : Word} : s.fetch = .ok w ↔
    aligned s.params s.pc = true ∧ populatedAt s.params s.pc = true ∧ s.fetchExcluded s.pc = false ∧
    Memory.readWord s.fetchMemory s.params s.pc = w := by
  unfold State.fetch
  cases aligned s.params s.pc <;> cases populatedAt s.params s.pc <;> cases s.fetchExcluded s.pc <;> simp

/-! ### The bodies the instructions share -/

/-- Everything the body of `load` can do. -/
theorem loadFrom_next {wb : Bool} {ea : Word} {ra rd : Reg} : s.loadFrom wb ea ra rd = .next t ↔
    ¬ (wb = true ∧ rd = ra) ∧ s.dataCheck ea = none ∧
    (s.writeBack wb ra ea).writeReg rd (Memory.readWord s.mem s.params ea) = t := by
  unfold State.loadFrom State.memRead
  split
  · rename_i h; simp [h]
  · rename_i h
    cases s.dataCheck ea <;> simp only [h, not_false_eq_true, true_and] <;> simp

/-- Everything the body of `store` can do. -/
theorem storeTo_next {wb : Bool} {ea : Word} {ra rs : Reg} : s.storeTo wb ea ra rs = .next t ↔
    s.dataCheck ea = none ∧
    ({ s with mem := Memory.writeWord s.mem s.params ea (s.readReg rs)
              stored := addStored s.stored ea.toNat } : State).writeBack wb ra ea = t := by
  unfold State.storeTo State.memWrite
  cases s.dataCheck ea <;> simp

/-- What `finishLogical` and `finishArithmetic` leave in memory and in the machine. -/
theorem finish_kept (f : State) (hf : f.mem = s.mem ∧ f.imem = s.imem ∧ f.stored = s.stored)
    (rd : Reg) (sh : Shift) (v : Word) : MemoryKept s (f.writeShifted rd sh v) := by
  obtain ⟨h1, h2, h3⟩ := hf
  constructor <;> simp [h1, h2, h3]

/-- No body faults: the only fault is raised by `step` (60_exceptions.md R190). -/
theorem loadFrom_no_fault {wb : Bool} {ea : Word} {ra rd : Reg} (f : Fault) :
    s.loadFrom wb ea ra rd ≠ .fault f := by
  unfold State.loadFrom
  split
  · simp
  · split <;> simp

theorem storeTo_no_fault {wb : Bool} {ea : Word} {ra rs : Reg} (f : Fault) :
    s.storeTo wb ea ra rs ≠ .fault f := by
  unfold State.storeTo
  split <;> simp

/-! ### One step -/

/-- Everything a step of a halted core does. -/
@[simp] theorem haltedStep_eq (s : State) : s.haltedStep = .next s := rfl

/-- Everything a step can do when it answers a next state (00_scope.md R13, 10_state.md R37). -/
theorem step_next (h : step s = .next t) :
    (s.halted = true ∧ t = s) ∨
    (s.halted = false ∧ ∃ w i, s.fetch = .ok w ∧ decode s.params w = .valid i ∧
      exec i s.advance = .next t) := by
  unfold step at h
  cases hh : s.halted
  · rw [hh] at h
    simp only [Bool.false_eq_true, if_false] at h
    cases hf : s.fetch with
    | error r => rw [hf] at h; cases h
    | ok w =>
      rw [hf] at h
      simp only [State.runWord, advance_params] at h
      cases hd : decode s.params w with
      | valid i => rw [hd] at h; exact .inr ⟨rfl, w, i, rfl, hd, h⟩
      | invalid c =>
        rw [hd] at h
        simp only [raiseInvalidInstruction] at h
        split at h <;> cases h
      | unspecified r => rw [hd] at h; cases h
  · rw [hh] at h; simp at h; exact .inl ⟨rfl, h.symm⟩

end Sys2Proof.Machine
end

