-- ==== Sys2Proof/Laws/Launch.lean ====
section
/-! SUPPORT. What placing a program leaves alone, field by field, and everything a launch can do
(70_reset_and_hazards.md R212). -/

namespace Sys2Proof.Machine

/-! ### `putFetchWord`, `putImage`, `putData` -/

/-- Placing a word changes the two memories alone. -/
theorem putFetchWord_kept (s : State) (a w : Word) : s.putFetchWord a w =
    { s with mem := (s.putFetchWord a w).mem, imem := (s.putFetchWord a w).imem } := by
  unfold State.putFetchWord; split <;> rfl

/-- Placing an image changes the two memories alone. -/
theorem putImage_kept (image : List Word) : ∀ (s : State) (k : Nat), s.putImage k image =
    { s with mem := (s.putImage k image).mem, imem := (s.putImage k image).imem } := by
  induction image with
  | nil => intro s k; rfl
  | cons w rest ih =>
    intro s k
    rw [State.putImage, ih, putFetchWord_kept]

/-- Placing data changes the data memory alone. -/
theorem putData_kept (data : List (Word × Word)) : ∀ s : State,
    s.putData data = { s with mem := (s.putData data).mem } := by
  induction data with
  | nil => intro s; rfl
  | cons d rest ih => intro s; rw [State.putData, ih]

@[simp] theorem putFetchWord_gpr (s : State) (a w : Word) : (s.putFetchWord a w).gpr = s.gpr :=
  (congrArg State.gpr (putFetchWord_kept s a w)).trans rfl
@[simp] theorem putFetchWord_lr (s : State) (a w : Word) : (s.putFetchWord a w).lr = s.lr :=
  (congrArg State.lr (putFetchWord_kept s a w)).trans rfl
@[simp] theorem putFetchWord_sp (s : State) (a w : Word) : (s.putFetchWord a w).sp = s.sp :=
  (congrArg State.sp (putFetchWord_kept s a w)).trans rfl
@[simp] theorem putFetchWord_pc (s : State) (a w : Word) : (s.putFetchWord a w).pc = s.pc :=
  (congrArg State.pc (putFetchWord_kept s a w)).trans rfl
@[simp] theorem putFetchWord_cpsr (s : State) (a w : Word) : (s.putFetchWord a w).cpsr = s.cpsr :=
  (congrArg State.cpsr (putFetchWord_kept s a w)).trans rfl
@[simp] theorem putFetchWord_halted (s : State) (a w : Word) : (s.putFetchWord a w).halted = s.halted :=
  (congrArg State.halted (putFetchWord_kept s a w)).trans rfl
@[simp] theorem putFetchWord_stored (s : State) (a w : Word) : (s.putFetchWord a w).stored = s.stored :=
  (congrArg State.stored (putFetchWord_kept s a w)).trans rfl
@[simp] theorem putFetchWord_params (s : State) (a w : Word) : (s.putFetchWord a w).params = s.params :=
  (congrArg State.params (putFetchWord_kept s a w)).trans rfl

@[simp] theorem putImage_gpr (s : State) (k : Nat) (image : List Word) : (s.putImage k image).gpr = s.gpr :=
  (congrArg State.gpr (putImage_kept image s k)).trans rfl
@[simp] theorem putImage_lr (s : State) (k : Nat) (image : List Word) : (s.putImage k image).lr = s.lr :=
  (congrArg State.lr (putImage_kept image s k)).trans rfl
@[simp] theorem putImage_sp (s : State) (k : Nat) (image : List Word) : (s.putImage k image).sp = s.sp :=
  (congrArg State.sp (putImage_kept image s k)).trans rfl
@[simp] theorem putImage_pc (s : State) (k : Nat) (image : List Word) : (s.putImage k image).pc = s.pc :=
  (congrArg State.pc (putImage_kept image s k)).trans rfl
@[simp] theorem putImage_cpsr (s : State) (k : Nat) (image : List Word) : (s.putImage k image).cpsr = s.cpsr :=
  (congrArg State.cpsr (putImage_kept image s k)).trans rfl
@[simp] theorem putImage_halted (s : State) (k : Nat) (image : List Word) : (s.putImage k image).halted = s.halted :=
  (congrArg State.halted (putImage_kept image s k)).trans rfl
@[simp] theorem putImage_stored (s : State) (k : Nat) (image : List Word) : (s.putImage k image).stored = s.stored :=
  (congrArg State.stored (putImage_kept image s k)).trans rfl
@[simp] theorem putImage_params (s : State) (k : Nat) (image : List Word) : (s.putImage k image).params = s.params :=
  (congrArg State.params (putImage_kept image s k)).trans rfl

@[simp] theorem putData_gpr (s : State) (data : List (Word × Word)) : (s.putData data).gpr = s.gpr :=
  (congrArg State.gpr (putData_kept data s)).trans rfl
@[simp] theorem putData_lr (s : State) (data : List (Word × Word)) : (s.putData data).lr = s.lr :=
  (congrArg State.lr (putData_kept data s)).trans rfl
@[simp] theorem putData_sp (s : State) (data : List (Word × Word)) : (s.putData data).sp = s.sp :=
  (congrArg State.sp (putData_kept data s)).trans rfl
@[simp] theorem putData_pc (s : State) (data : List (Word × Word)) : (s.putData data).pc = s.pc :=
  (congrArg State.pc (putData_kept data s)).trans rfl
@[simp] theorem putData_cpsr (s : State) (data : List (Word × Word)) : (s.putData data).cpsr = s.cpsr :=
  (congrArg State.cpsr (putData_kept data s)).trans rfl
@[simp] theorem putData_halted (s : State) (data : List (Word × Word)) : (s.putData data).halted = s.halted :=
  (congrArg State.halted (putData_kept data s)).trans rfl
@[simp] theorem putData_stored (s : State) (data : List (Word × Word)) : (s.putData data).stored = s.stored :=
  (congrArg State.stored (putData_kept data s)).trans rfl
@[simp] theorem putData_params (s : State) (data : List (Word × Word)) : (s.putData data).params = s.params :=
  (congrArg State.params (putData_kept data s)).trans rfl
@[simp] theorem putData_imem (s : State) (data : List (Word × Word)) : (s.putData data).imem = s.imem :=
  (congrArg State.imem (putData_kept data s)).trans rfl

/-- The word that `putFetchWord` places is the one that stands there in the memory fetch reads. -/
theorem readWord_putFetchWord_self (s : State) (a w : Word) :
    Memory.readWord (s.putFetchWord a w).fetchMemory s.params a = w := by
  unfold State.fetchMemory
  rw [putFetchWord_params]
  unfold State.putFetchWord
  cases s.params.unified <;> simp

/-- Placing a word changes no byte of the memory that `load` and `store` see outside the word, and none at all when
the memory is not unified. -/
theorem get_mem_putFetchWord (s : State) (a w : Word) (k : Nat)
    (h : s.params.unified = true → k < cellBase s.params a ∨ cellBase s.params a + 4 ≤ k) :
    Memory.get (s.putFetchWord a w).mem k = Memory.get s.mem k := by
  unfold State.putFetchWord
  split
  · rename_i hu; exact Memory.get_writeWord_outside _ _ _ _ _ (h hu)
  · rfl

/-- Placing a word changes no byte of the instruction memory outside the word, and none at all in a unified one. -/
theorem get_imem_putFetchWord (s : State) (a w : Word) (k : Nat)
    (h : s.params.unified = false → k < cellBase s.params a ∨ cellBase s.params a + 4 ≤ k) :
    Memory.get (s.putFetchWord a w).imem k = Memory.get s.imem k := by
  unfold State.putFetchWord
  split
  · rfl
  · rename_i hu; exact Memory.get_writeWord_outside _ _ _ _ _ (h (by simpa using hu))

/-! ### The launch -/

/-- Everything a launch can do. -/
theorem launch_some {p : Params} {draw t : State} {image : List Word} {data : List (Word × Word)} :
    State.launch p draw image data = some t ↔
      launchable p image.length data = true ∧
      (({ draw with
          pc := p.resetPc
          halted := false
          stored := []
          params := { p with text := imageText p image.length } } : State).putImage 0 image).putData data = t := by
  unfold State.launch
  split <;> simp_all

end Sys2Proof.Machine
end

