-- ==== Sys2Proof/Laws/PerInstr.lean ====
section
/-! SUPPORT. Per instruction: the canonical word carries the fixed bits of the instruction's row of the opcode
table (class, op-code and the enable bits that select the form) and its condition. -/

set_option linter.unusedSimpArgs false

namespace Sys2Proof.Laws.EncodingMatchesTableRow

/-- The lowest of the fixed bits of the row, which run up to bit 27, and their value (opcode_table.json;
30_encoding.md R74 to R88). -/
def fixedBits (i : Instr) : Nat × Nat :=
  match i with
  | .loadOff _ _ _ _ _ => (23, 1)
  | .loadShift _ _ _ _ _ => (23, 0)
  | .storeOff _ _ _ _ _ => (23, 3)
  | .storeShift _ _ _ _ _ => (23, 2)
  | .and _ _ _ _ _ => (22, 16)
  | .eor _ _ _ _ _ => (22, 17)
  | .sub _ _ _ _ _ => (22, 18)
  | .rsb _ _ _ _ _ => (22, 19)
  | .add _ _ _ _ _ => (22, 20)
  | .adc _ _ _ _ _ => (22, 21)
  | .sbc _ _ _ _ _ => (22, 22)
  | .rsc _ _ _ _ _ => (22, 23)
  | .tst _ _ _ => (22, 24)
  | .teq _ _ _ => (22, 25)
  | .cmp _ _ _ => (22, 26)
  | .cmn _ _ _ => (22, 27)
  | .orr _ _ _ _ _ => (22, 28)
  | .bic _ _ _ _ _ => (22, 30)
  | .mvn _ _ _ _ => (22, 31)
  | .movImm _ _ _ _ => (21, 59)
  | .movReg _ _ _ _ => (21, 58)
  | .jumpImm _ _ => (23, 17)
  | .jumpRegOff _ _ => (22, 33)
  | .jumpRegAbs _ _ => (22, 32)
  | .jumplImm _ _ => (23, 19)
  | .jumplRegOff _ _ => (22, 37)
  | .jumplRegAbs _ _ => (22, 36)
  | .ret _ => (24, 10)
  | .pass _ => (22, 48)
  | .halt _ => (22, 49)
  | .retSpecial _ => (22, 50)

/-- The word of `i` has its condition in bits 31-28 and its row's fixed bits below them. -/
def Statement (i : Instr) : Prop :=
  field (encode i) 31 28 = i.cond.code ∧
    (encode i).toNat / 2 ^ (fixedBits i).1 % 2 ^ (28 - (fixedBits i).1) = (fixedBits i).2

theorem fixed_movementOffsetWord (c : BitVec 4) (op : BitVec 2) (wb : Bool) (off : BitVec 13) (ra : BitVec 4) (r5 : BitVec 5) :
    (movementOffsetWord c op wb off ra r5).toNat / 2 ^ 23 % 2 ^ 5 = op.toNat * 2 + 1 := by
  simp only [movementOffsetWord, toNat_cat, BitVec.toNat_ofBool, BitVec.ofNat_eq_ofNat, BitVec.toNat_ofNat,
    Bool.toNat_true, Bool.toNat_false]
  have := c.isLt
  have := op.isLt
  have := off.isLt
  have := ra.isLt
  have := r5.isLt
  have := toNat_ofBool_lt wb
  omega

theorem fixed_movementShiftWord (c : BitVec 4) (op : BitVec 2) (wb : Bool) (m : BitVec 2) (n : BitVec 6) (ra : BitVec 4)
    (r5 : BitVec 5) :
    (movementShiftWord c op wb m n ra r5).toNat / 2 ^ 23 % 2 ^ 5 = op.toNat * 2 := by
  simp only [movementShiftWord, toNat_cat, BitVec.toNat_ofBool, BitVec.ofNat_eq_ofNat, BitVec.toNat_ofNat,
    Bool.toNat_true, Bool.toNat_false]
  have := c.isLt
  have := op.isLt
  have := m.isLt
  have := n.isLt
  have := ra.isLt
  have := r5.isLt
  have := toNat_ofBool_lt wb
  omega

theorem fixed_commonWord (c op : BitVec 4) (i : Bool) (m : BitVec 2) (n : BitVec 6) (op1f : BitVec 5)
    (rm rd : BitVec 4) :
    (commonWord c op i m n op1f rm rd).toNat / 2 ^ 22 % 2 ^ 6 = 16 + op.toNat := by
  simp only [commonWord, toNat_cat, BitVec.toNat_ofBool, BitVec.ofNat_eq_ofNat, BitVec.toNat_ofNat,
    Bool.toNat_true, Bool.toNat_false]
  have := c.isLt
  have := op.isLt
  have := m.isLt
  have := n.isLt
  have := op1f.isLt
  have := rm.isLt
  have := rd.isLt
  have := toNat_ofBool_lt i
  omega

theorem fixed_movImmWord (c : BitVec 4) (high : Bool) (imm : BitVec 16) (rd : BitVec 4) :
    (movImmWord c high imm rd).toNat / 2 ^ 21 % 2 ^ 7 = 59 := by
  simp only [movImmWord, toNat_cat, BitVec.toNat_ofBool, BitVec.ofNat_eq_ofNat, BitVec.toNat_ofNat,
    Bool.toNat_true, Bool.toNat_false]
  have := c.isLt
  have := imm.isLt
  have := rd.isLt
  have := toNat_ofBool_lt high
  omega

theorem fixed_movRegWord (c : BitVec 4) (m : BitVec 2) (n : BitVec 6) (rs rd : BitVec 5) :
    (movRegWord c m n rs rd).toNat / 2 ^ 21 % 2 ^ 7 = 58 := by
  simp only [movRegWord, toNat_cat, BitVec.toNat_ofBool, BitVec.ofNat_eq_ofNat, BitVec.toNat_ofNat,
    Bool.toNat_true, Bool.toNat_false]
  have := c.isLt
  have := m.isLt
  have := n.isLt
  have := rs.isLt
  have := rd.isLt
  omega

theorem fixed_jumpImmWord (c : BitVec 4) (op : BitVec 2) (off : BitVec 23) :
    (jumpImmWord c op off).toNat / 2 ^ 23 % 2 ^ 5 = 16 + op.toNat * 2 + 1 := by
  simp only [jumpImmWord, toNat_cat, BitVec.toNat_ofBool, BitVec.ofNat_eq_ofNat, BitVec.toNat_ofNat,
    Bool.toNat_true, Bool.toNat_false]
  have := c.isLt
  have := op.isLt
  have := off.isLt
  omega

theorem fixed_jumpRegWord (c : BitVec 4) (op : BitVec 2) (o : Bool) (rs : BitVec 4) :
    (jumpRegWord c op o rs).toNat / 2 ^ 22 % 2 ^ 6 = 32 + op.toNat * 4 + o.toNat := by
  simp only [jumpRegWord, toNat_cat, BitVec.toNat_ofBool, BitVec.ofNat_eq_ofNat, BitVec.toNat_ofNat,
    Bool.toNat_true, Bool.toNat_false]
  have := c.isLt
  have := op.isLt
  have := rs.isLt
  have := toNat_ofBool_lt o
  omega

theorem fixed_returnWord (c : BitVec 4) :
    (returnWord c).toNat / 2 ^ 24 % 2 ^ 4 = 10 := by
  simp only [returnWord, toNat_cat, BitVec.toNat_ofBool, BitVec.ofNat_eq_ofNat, BitVec.toNat_ofNat,
    Bool.toNat_true, Bool.toNat_false]
  have := c.isLt
  omega

theorem fixed_specialWord (c op : BitVec 4) :
    (specialWord c op).toNat / 2 ^ 22 % 2 ^ 6 = 48 + op.toNat := by
  simp only [specialWord, toNat_cat, BitVec.toNat_ofBool, BitVec.ofNat_eq_ofNat, BitVec.toNat_ofNat,
    Bool.toNat_true, Bool.toNat_false]
  have := c.isLt
  have := op.isLt
  omega

theorem loadOff (c : Cond) (wb : Bool) (off : BitVec 13) (ra rd : Reg) : Statement (.loadOff c wb off ra rd) :=
  ⟨movementOffsetWord_cond _ _ _ _ _ _, fixed_movementOffsetWord _ _ _ _ _ _⟩

theorem loadShift (c : Cond) (wb : Bool) (sh : Shift) (ra rd : Reg) : Statement (.loadShift c wb sh ra rd) :=
  ⟨movementShiftWord_cond _ _ _ _ _ _ _, fixed_movementShiftWord _ _ _ _ _ _ _⟩

theorem storeOff (c : Cond) (wb : Bool) (off : BitVec 13) (ra rs : Reg) : Statement (.storeOff c wb off ra rs) :=
  ⟨movementOffsetWord_cond _ _ _ _ _ _, fixed_movementOffsetWord _ _ _ _ _ _⟩

theorem storeShift (c : Cond) (wb : Bool) (sh : Shift) (ra rs : Reg) : Statement (.storeShift c wb sh ra rs) :=
  ⟨movementShiftWord_cond _ _ _ _ _ _ _, fixed_movementShiftWord _ _ _ _ _ _ _⟩

theorem and (c : Cond) (a : Op1) (rm : Reg) (sh : Shift) (rd : Reg) : Statement (.and c a rm sh rd) :=
  ⟨commonWord_cond _ _ _ _ _ _ _ _, fixed_commonWord _ _ _ _ _ _ _ _⟩

theorem eor (c : Cond) (a : Op1) (rm : Reg) (sh : Shift) (rd : Reg) : Statement (.eor c a rm sh rd) :=
  ⟨commonWord_cond _ _ _ _ _ _ _ _, fixed_commonWord _ _ _ _ _ _ _ _⟩

theorem sub (c : Cond) (a : Op1) (rm : Reg) (sh : Shift) (rd : Reg) : Statement (.sub c a rm sh rd) :=
  ⟨commonWord_cond _ _ _ _ _ _ _ _, fixed_commonWord _ _ _ _ _ _ _ _⟩

theorem rsb (c : Cond) (a : Op1) (rm : Reg) (sh : Shift) (rd : Reg) : Statement (.rsb c a rm sh rd) :=
  ⟨commonWord_cond _ _ _ _ _ _ _ _, fixed_commonWord _ _ _ _ _ _ _ _⟩

theorem add (c : Cond) (a : Op1) (rm : Reg) (sh : Shift) (rd : Reg) : Statement (.add c a rm sh rd) :=
  ⟨commonWord_cond _ _ _ _ _ _ _ _, fixed_commonWord _ _ _ _ _ _ _ _⟩

theorem adc (c : Cond) (a : Op1) (rm : Reg) (sh : Shift) (rd : Reg) : Statement (.adc c a rm sh rd) :=
  ⟨commonWord_cond _ _ _ _ _ _ _ _, fixed_commonWord _ _ _ _ _ _ _ _⟩

theorem sbc (c : Cond) (a : Op1) (rm : Reg) (sh : Shift) (rd : Reg) : Statement (.sbc c a rm sh rd) :=
  ⟨commonWord_cond _ _ _ _ _ _ _ _, fixed_commonWord _ _ _ _ _ _ _ _⟩

theorem rsc (c : Cond) (a : Op1) (rm : Reg) (sh : Shift) (rd : Reg) : Statement (.rsc c a rm sh rd) :=
  ⟨commonWord_cond _ _ _ _ _ _ _ _, fixed_commonWord _ _ _ _ _ _ _ _⟩

theorem tst (c : Cond) (a : Op1) (rm : Reg) : Statement (.tst c a rm) :=
  ⟨commonWord_cond _ _ _ _ _ _ _ _, fixed_commonWord _ _ _ _ _ _ _ _⟩

theorem teq (c : Cond) (a : Op1) (rm : Reg) : Statement (.teq c a rm) :=
  ⟨commonWord_cond _ _ _ _ _ _ _ _, fixed_commonWord _ _ _ _ _ _ _ _⟩

theorem cmp (c : Cond) (a : Op1) (rm : Reg) : Statement (.cmp c a rm) :=
  ⟨commonWord_cond _ _ _ _ _ _ _ _, fixed_commonWord _ _ _ _ _ _ _ _⟩

theorem cmn (c : Cond) (a : Op1) (rm : Reg) : Statement (.cmn c a rm) :=
  ⟨commonWord_cond _ _ _ _ _ _ _ _, fixed_commonWord _ _ _ _ _ _ _ _⟩

theorem orr (c : Cond) (a : Op1) (rm : Reg) (sh : Shift) (rd : Reg) : Statement (.orr c a rm sh rd) :=
  ⟨commonWord_cond _ _ _ _ _ _ _ _, fixed_commonWord _ _ _ _ _ _ _ _⟩

theorem bic (c : Cond) (a : Op1) (rm : Reg) (sh : Shift) (rd : Reg) : Statement (.bic c a rm sh rd) :=
  ⟨commonWord_cond _ _ _ _ _ _ _ _, fixed_commonWord _ _ _ _ _ _ _ _⟩

theorem mvn (c : Cond) (rm : Reg) (sh : Shift) (rd : Reg) : Statement (.mvn c rm sh rd) :=
  ⟨commonWord_cond _ _ _ _ _ _ _ _, fixed_commonWord _ _ _ _ _ _ _ _⟩

theorem movImm (c : Cond) (high : Bool) (imm : BitVec 16) (rd : Reg) : Statement (.movImm c high imm rd) :=
  ⟨movImmWord_cond _ _ _ _, fixed_movImmWord _ _ _ _⟩

theorem movReg (c : Cond) (sh : Shift) (rs rd : Reg) : Statement (.movReg c sh rs rd) :=
  ⟨movRegWord_cond _ _ _ _ _, fixed_movRegWord _ _ _ _ _⟩

theorem jumpImm (c : Cond) (off : BitVec 23) : Statement (.jumpImm c off) :=
  ⟨jumpImmWord_cond _ _ _, fixed_jumpImmWord _ _ _⟩

theorem jumpRegOff (c : Cond) (rs : Reg) : Statement (.jumpRegOff c rs) :=
  ⟨jumpRegWord_cond _ _ _ _, fixed_jumpRegWord _ _ _ _⟩

theorem jumpRegAbs (c : Cond) (rs : Reg) : Statement (.jumpRegAbs c rs) :=
  ⟨jumpRegWord_cond _ _ _ _, fixed_jumpRegWord _ _ _ _⟩

theorem jumplImm (c : Cond) (off : BitVec 23) : Statement (.jumplImm c off) :=
  ⟨jumpImmWord_cond _ _ _, fixed_jumpImmWord _ _ _⟩

theorem jumplRegOff (c : Cond) (rs : Reg) : Statement (.jumplRegOff c rs) :=
  ⟨jumpRegWord_cond _ _ _ _, fixed_jumpRegWord _ _ _ _⟩

theorem jumplRegAbs (c : Cond) (rs : Reg) : Statement (.jumplRegAbs c rs) :=
  ⟨jumpRegWord_cond _ _ _ _, fixed_jumpRegWord _ _ _ _⟩

theorem ret (c : Cond) : Statement (.ret c) :=
  ⟨returnWord_cond _, fixed_returnWord _⟩

theorem pass (c : Cond) : Statement (.pass c) :=
  ⟨specialWord_cond _ _, fixed_specialWord _ _⟩

theorem halt (c : Cond) : Statement (.halt c) :=
  ⟨specialWord_cond _ _, fixed_specialWord _ _⟩

theorem retSpecial (c : Cond) : Statement (.retSpecial c) :=
  ⟨specialWord_cond _ _, fixed_specialWord _ _⟩

end Sys2Proof.Laws.EncodingMatchesTableRow
end

