-- ==== Sys2Proof/Machine/Asm.lean ====
section
/-! DEFINITION. The assembler's view of the instructions (30_encoding.md R95 to R99): the spelling of every
instruction, the assembler shift names with `ROR`, and the immediate-address pseudo-instruction. The spelling
of what the source does not show is the spec's own notation (R96, decision D21); no machine state is
involved. -/

namespace Sys2Proof.Machine

/-- The condition suffix; `AL` is written as no suffix (30_encoding.md R72, R95 (c)). -/
def condSuffix (c : Cond) : String :=
  match c with
  | .eq => "EQ" | .ne => "NE" | .cs => "CS" | .cc => "CC" | .mi => "MI" | .pl => "PL" | .vs => "VS"
  | .vc => "VC" | .hi => "HI" | .ls => "LS" | .ge => "GE" | .lt => "LT" | .gt => "GT" | .le => "LE"
  | .al => ""

/-- The register names (30_encoding.md R95 (b)). -/
def regName (r : Reg) : String :=
  match r with
  | .r i => "R" ++ Nat.repr i.val
  | .lr => "LR"
  | .sp => "SP"
  | .pc => "PC"
  | .cpsr => "CPSR"

/-- The shift names of the machine's four methods (30_encoding.md R78). -/
def methodName (m : ShiftMethod) : String :=
  match m with
  | .rol => "ROL"
  | .lsl => "LSL"
  | .lsr => "LSR"
  | .asr => "ASR"

/-- A signed number in decimal with its sign, as after an address register (30_encoding.md R95 (f), R96). -/
def signedText (i : Int) : String :=
  if i < 0 then "-" ++ Nat.repr i.natAbs else "+" ++ Nat.repr i.natAbs

/-- A signed number in decimal, as a jump offset (30_encoding.md R95 (f)). -/
def offsetText (i : Int) : String :=
  if i < 0 then "-" ++ Nat.repr i.natAbs else Nat.repr i.natAbs

/-- A shift after a result; method 00 with amount 0 is written as no shift (30_encoding.md R96). -/
def shiftText (lead : String) (sh : Shift) : String :=
  if sh = Shift.unshifted then "" else lead ++ methodName sh.method ++ " " ++ Nat.repr sh.amount.toNat

/-- The write-back mark (30_encoding.md R96). -/
def writeBackText (wb : Bool) : String := if wb then "!" else ""

/-- Operand 1 (30_encoding.md R96). -/
def op1Text (a : Op1) : String :=
  match a with
  | .imm k => "#" ++ Nat.repr k.toNat
  | .reg r => regName r

/-- `load` or `store` in offset form (30_encoding.md R95 (f)). -/
def offsetFormText (name : String) (c : Cond) (wb : Bool) (off : BitVec 13) (ra rd : Reg) : String :=
  name ++ condSuffix c ++ " " ++ regName rd ++ ", [" ++ regName ra ++ signedText off.toInt ++ "]" ++
    writeBackText wb

/-- `load` or `store` in shift form (30_encoding.md R95 (f)). -/
def shiftFormText (name : String) (c : Cond) (wb : Bool) (sh : Shift) (ra rd : Reg) : String :=
  name ++ condSuffix c ++ " " ++ regName rd ++ ", [" ++ regName ra ++ shiftText " " sh ++ "]" ++
    writeBackText wb

/-- `OP Rd, op1, Rm, SH n` (30_encoding.md R96). -/
def commonText (name : String) (c : Cond) (a : Op1) (rm : Reg) (sh : Shift) (rd : Reg) : String :=
  name ++ condSuffix c ++ " " ++ regName rd ++ ", " ++ op1Text a ++ ", " ++ regName rm ++ shiftText ", " sh

/-- `OP op1, Rm` (30_encoding.md R96). -/
def compareText (name : String) (c : Cond) (a : Op1) (rm : Reg) : String :=
  name ++ condSuffix c ++ " " ++ op1Text a ++ ", " ++ regName rm

/-- `jump` or `jumpl` by an offset (30_encoding.md R95 (f)). -/
def jumpImmText (name : String) (c : Cond) (off : BitVec 23) : String :=
  name ++ condSuffix c ++ " " ++ offsetText off.toInt

/-- The assembly line of an instruction (30_encoding.md R95, R96). Both encodings of `return` have one
spelling, which an assembler turns into the class 10 word (43_special.md R182). -/
def asmText (i : Instr) : String :=
  match i with
  | .loadOff c wb off ra rd => offsetFormText "load" c wb off ra rd
  | .loadShift c wb sh ra rd => shiftFormText "load" c wb sh ra rd
  | .storeOff c wb off ra rs => offsetFormText "store" c wb off ra rs
  | .storeShift c wb sh ra rs => shiftFormText "store" c wb sh ra rs
  | .and c a rm sh rd => commonText "AND" c a rm sh rd
  | .eor c a rm sh rd => commonText "EOR" c a rm sh rd
  | .sub c a rm sh rd => commonText "SUB" c a rm sh rd
  | .rsb c a rm sh rd => commonText "RSB" c a rm sh rd
  | .add c a rm sh rd => commonText "ADD" c a rm sh rd
  | .adc c a rm sh rd => commonText "ADC" c a rm sh rd
  | .sbc c a rm sh rd => commonText "SBC" c a rm sh rd
  | .rsc c a rm sh rd => commonText "RSC" c a rm sh rd
  | .tst c a rm => compareText "TST" c a rm
  | .teq c a rm => compareText "TEQ" c a rm
  | .cmp c a rm => compareText "CMP" c a rm
  | .cmn c a rm => compareText "CMN" c a rm
  | .orr c a rm sh rd => commonText "ORR" c a rm sh rd
  | .bic c a rm sh rd => commonText "BIC" c a rm sh rd
  | .mvn c rm sh rd =>
    "MVN" ++ condSuffix c ++ " " ++ regName rd ++ ", " ++ regName rm ++ shiftText ", " sh
  | .movImm c high imm rd =>
    "MOV" ++ condSuffix c ++ " " ++ regName rd ++ ", #" ++ Nat.repr imm.toNat ++ if high then ", HI" else ""
  | .movReg c sh rs rd =>
    "MOV" ++ condSuffix c ++ " " ++ regName rd ++ ", " ++ regName rs ++ shiftText ", " sh
  | .jumpImm c off => jumpImmText "jump" c off
  | .jumpRegOff c rs => "jump" ++ condSuffix c ++ " " ++ regName rs
  | .jumpRegAbs c rs => "jump" ++ condSuffix c ++ " [" ++ regName rs ++ "]"
  | .jumplImm c off => jumpImmText "jumpl" c off
  | .jumplRegOff c rs => "jumpl" ++ condSuffix c ++ " " ++ regName rs
  | .jumplRegAbs c rs => "jumpl" ++ condSuffix c ++ " [" ++ regName rs ++ "]"
  | .ret c => "return" ++ condSuffix c
  | .pass c => "pass" ++ condSuffix c
  | .halt c => "halt" ++ condSuffix c
  | .retSpecial c => "return" ++ condSuffix c

/-- The assembler's `ROR k` is method 00 with value `(32 - k) mod 32`, for `k` in 0..31 (30_encoding.md
R97). -/
def rorShift (k : Fin 32) : Shift := ⟨.rol, BitVec.ofNat 6 ((32 - k.val) % 32)⟩

/-- One expansion of the pseudo-instruction `load Rd, [imm32]`, the spec's illustration (30_encoding.md R98,
decision D22). -/
def loadImmediateAddress (c : Cond) (rd : Reg) (address : Word) : List Instr :=
  [.movImm c false (address.extractLsb' 0 16) rd,
   .movImm c true (address.extractLsb' 16 16) rd,
   .loadShift c false Shift.unshifted rd rd]

end Sys2Proof.Machine
end

