-- ==== Sys2Proof/Tests/Slice0.lean ====
section
/-! SUPPORT. Tests: what WellFormed refuses, one word of every instruction, steps whose expected results are
those of 95_test_vectors.md (T1 to T152, S1 to S14), and for every statement with hypotheses a witness that meets
them. -/

set_option maxRecDepth 20000

open Sys2Proof Sys2Proof.Machine

namespace Sys2Proof.Tests

/-! ### What WellFormed refuses -/

/-- A 4-bit field cannot name the CPSR (10_state.md R21, R31): address register, operands, destination. -/
theorem test_wf_refuses_cpsr_in_four_bits :
    Reg.fourBit .cpsr = false ∧ Op1.wf (.reg .cpsr) = false ∧
    Instr.wf Params.default (.loadOff .al false 0 .cpsr (.r 1)) = false ∧
    Instr.wf Params.default (.loadShift .al false ⟨.rol, 0⟩ .cpsr (.r 1)) = false ∧
    Instr.wf Params.default (.storeOff .al false 0 .cpsr (.r 1)) = false ∧
    Instr.wf Params.default (.storeShift .al false ⟨.rol, 0⟩ .cpsr (.r 1)) = false ∧
    Instr.wf Params.default (.add .al (.reg .cpsr) (.r 1) ⟨.rol, 0⟩ (.r 2)) = false ∧
    Instr.wf Params.default (.add .al (.imm 0) .cpsr ⟨.rol, 0⟩ (.r 2)) = false ∧
    Instr.wf Params.default (.add .al (.imm 0) (.r 1) ⟨.rol, 0⟩ .cpsr) = false ∧
    Instr.wf Params.default (.cmp .al (.imm 0) .cpsr) = false ∧
    Instr.wf Params.default (.mvn .al (.r 1) ⟨.rol, 0⟩ .cpsr) = false ∧
    Instr.wf Params.default (.movImm .al false 0 .cpsr) = false ∧
    Instr.wf Params.default (.jumpRegAbs .al .cpsr) = false ∧
    Instr.wf Params.default (.jumplRegOff .al .cpsr) = false := by decide

/-- The CPSR is no destination of a `load` (30_encoding.md R92). -/
theorem test_wf_refuses_load_to_cpsr :
    Instr.wf Params.default (.loadOff .al false 0 (.r 0) .cpsr) = false ∧
    Instr.wf Params.default (.loadShift .al false ⟨.rol, 0⟩ (.r 0) .cpsr) = false := by decide

/-- With `SPECIAL_RETURN` = invalid the second `return` is no instruction (43_special.md R182). -/
theorem test_wf_refuses_absent_special_return :
    Instr.wf { Params.default with specialReturn := .invalid } (.retSpecial .al) = false := by decide

/-- Two flags in one bit, and a reset PC that is no multiple of `W`, are refused (10_state.md R32, R39). -/
theorem test_wf_refuses_parameters :
    Params.wf { Params.default with layout := ⟨7, 7, 5, 4⟩ } = false ∧
    Params.wf { Params.default with layout := ⟨7, 6, 5, 5⟩ } = false ∧
    Params.wf { Params.default with resetPc := 2 } = false ∧ Params.wf Params.default = true := by decide

/-! ### One word of every instruction, written out from the figures of 30_encoding.md -/

/-- The word decodes to the instruction and the instruction encodes as the word. -/
def isWordOf (w : Word) (i : Instr) : Bool :=
  decide (decode Params.default w = .valid i) && decide (encode i = w)

theorem test_decode_load :
    isWordOf 0b1110_00_00_1_0_0000001111111_0000_00100 (.loadOff .al false 127 (.r 0) (.r 4)) = true ∧
    isWordOf 0b1110_00_00_0_0_00000_11_010100_0011_00110 (.loadShift .al false ⟨.asr, 20⟩ (.r 3) (.r 6)) =
      true := by decide

theorem test_decode_store :
    isWordOf 0b1110_00_01_1_1_1111111111100_1110_01101 (.storeOff .al true (-4) .sp .lr) = true ∧
    isWordOf 0b1110_00_01_0_0_00000_01_000100_0000_10000 (.storeShift .al false ⟨.lsl, 4⟩ (.r 0) .cpsr) =
      true := by decide

theorem test_decode_logical :
    isWordOf 0b0001_01_0000_0_00_000000_00000_0001_0010 (.and .ne (.reg (.r 0)) (.r 1) ⟨.rol, 0⟩ (.r 2)) = true ∧
    isWordOf 0b1110_01_0001_0_00_000000_00011_0011_0011 (.eor .al (.reg (.r 3)) (.r 3) ⟨.rol, 0⟩ (.r 3)) = true ∧
    isWordOf 0b1110_01_1100_0_10_111111_00000_0001_0010 (.orr .al (.reg (.r 0)) (.r 1) ⟨.lsr, 63⟩ (.r 2)) = true ∧
    isWordOf 0b1110_01_1110_0_00_000000_01110_1101_1111 (.bic .al (.reg .sp) .lr ⟨.rol, 0⟩ .pc) = true ∧
    isWordOf 0b1110_01_1111_0_10_011100_00000_0001_0010 (.mvn .al (.r 1) ⟨.lsr, 28⟩ (.r 2)) = true := by decide

theorem test_decode_arithmetic :
    isWordOf 0b1110_01_0010_1_00_000000_11111_0001_0010 (.sub .al (.imm 31) (.r 1) ⟨.rol, 0⟩ (.r 2)) = true ∧
    isWordOf 0b1110_01_0011_1_00_000000_00001_0001_0001 (.rsb .al (.imm 1) (.r 1) ⟨.rol, 0⟩ (.r 1)) = true ∧
    isWordOf 0b1110_01_0100_0_00_101000_00000_0001_0010 (.add .al (.reg (.r 0)) (.r 1) ⟨.rol, 40⟩ (.r 2)) = true ∧
    isWordOf 0b1110_01_0101_0_00_000000_00000_0001_0010 (.adc .al (.reg (.r 0)) (.r 1) ⟨.rol, 0⟩ (.r 2)) = true ∧
    isWordOf 0b1110_01_0110_0_00_000000_00000_0001_0010 (.sbc .al (.reg (.r 0)) (.r 1) ⟨.rol, 0⟩ (.r 2)) = true ∧
    isWordOf 0b1110_01_0111_0_00_000000_00000_0001_0010 (.rsc .al (.reg (.r 0)) (.r 1) ⟨.rol, 0⟩ (.r 2)) = true :=
  by decide

theorem test_decode_compare :
    isWordOf 0b1110_01_1000_0_00_000000_00000_0001_0000 (.tst .al (.reg (.r 0)) (.r 1)) = true ∧
    isWordOf 0b1110_01_1001_0_00_000000_00000_0001_0000 (.teq .al (.reg (.r 0)) (.r 1)) = true ∧
    isWordOf 0b1110_01_1010_1_00_000000_00000_0001_0000 (.cmp .al (.imm 0) (.r 1)) = true ∧
    isWordOf 0b1110_01_1011_0_00_000000_00000_0001_0000 (.cmn .al (.reg (.r 0)) (.r 1)) = true := by decide

theorem test_decode_mov :
    isWordOf 0b1110_01_1101_1_1_1010101111001101_0011 (.movImm .al true 0xABCD (.r 3)) = true ∧
    isWordOf 0b1110_01_1101_0_10_011000_000_00000_10000 (.movReg .al ⟨.lsr, 24⟩ (.r 0) .cpsr) = true := by decide

theorem test_decode_control_flow :
    isWordOf 0b1110_10_00_1_00000000000000001100100 (.jumpImm .al 100) = true ∧
    isWordOf 0b1110_10_00_0_1_000000000000000000_0000 (.jumpRegOff .al (.r 0)) = true ∧
    isWordOf 0b1110_10_00_0_0_000000000000000000_0110 (.jumpRegAbs .al (.r 6)) = true ∧
    isWordOf 0b1110_10_01_1_11111111111111111111100 (.jumplImm .al (-4)) = true ∧
    isWordOf 0b1110_10_01_0_1_000000000000000000_1111 (.jumplRegOff .al .pc) = true ∧
    isWordOf 0b1110_10_01_0_0_000000000000000000_1101 (.jumplRegAbs .al .lr) = true ∧
    isWordOf 0b1100_10_10_000000000000000000000000 (.ret .gt) = true := by decide

theorem test_decode_special :
    isWordOf 0b0000_11_0000_0000000000000000000000 (.pass .eq) = true ∧
    isWordOf 0b1110_11_0001_0000000000000000000000 (.halt .al) = true ∧
    isWordOf 0b1110_11_0010_0000000000000000000000 (.retSpecial .al) = true := by decide

/-- The words of T59, T76 and T82, whose ignored bits are set (30_encoding.md R93). -/
theorem test_decode_ignored_bits :
    decode Params.default 0xE5001012 = .valid (.add .al (.reg (.r 0)) (.r 1) ⟨.rol, 0⟩ (.r 2)) ∧
    decode Params.default 0xE69FE01F = .valid (.cmp .al (.reg (.r 0)) (.r 1)) ∧
    decode Params.default 0xE7E01F12 = .valid (.mvn .al (.r 1) ⟨.rol, 0⟩ (.r 2)) := by decide

/-- Words without a meaning: T23, T24, T25, T112, T137, T138, T148, T151 and the absent op-codes of T37, T139,
T145, T146 (30_encoding.md R91, R92). -/
theorem test_decode_without_meaning :
    decode Params.default 0xE0000010 = .unspecified .cpsrAsLoadDestination ∧
    decode Params.default 0xE0000011 = .unspecified .registerCode ∧
    decode Params.default 0xE0020004 = .unspecified .nonzeroReservedField ∧
    decode Params.default 0xE7400225 = .unspecified .registerCode ∧
    decode Params.default 0xE8000010 = .unspecified .nonzeroReservedField ∧
    decode Params.default 0xEA000001 = .unspecified .nonzeroReservedField ∧
    decode Params.default 0xEC600000 = .unspecified .nonzeroReservedField ∧
    decode Params.default 0xF2000000 = .unspecified .condition1111 ∧
    decode Params.default 0xE2000000 = .invalid .al ∧ decode Params.default 0xEB000000 = .invalid .al ∧
    decode Params.default 0xECC00000 = .invalid .al ∧ decode Params.default 0xEFC00000 = .invalid .al := by decide

/-- A word of the opcode table, and one that is no instruction. -/
theorem test_decodeTableWord :
    decodeTableWord 32 0xEA000000 = some (.ret .al) ∧ decodeTableWord 32 0xEB000000 = none := by decide

/-! ### One step -/

/-- A core at address 0x100 about to fetch the word `w`, its state prepared by `f`. -/
def start (w : Nat) (f : State → State) : State := (f { State.reset with pc := 0x100 }).withFetchWord 32 w

/-- Registers R0, R1, R2 and the CPSR. -/
def regs (a b c : Word) (x : BitVec 8) (s : State) : State :=
  { ((s.writeReg (.r 0) a).writeReg (.r 1) b).writeReg (.r 2) c with cpsr := x }

/-- The word `v` in memory at `a`. -/
def word (a v : Word) (s : State) : State := { s with mem := Memory.writeWord s.mem s.params a v }

/-- The step completes and its state passes the check. -/
def nextIs (w : Nat) (f : State → State) (check : State → Bool) : Bool :=
  match step (start w f) with
  | .next t => check t
  | .fault _ => false
  | .refused _ => false

/-- R2, the CPSR and the PC after a step from R0 = `a`, R1 = `b` and the CPSR `x`. -/
def givesR2 (w : Nat) (a b : Word) (x : BitVec 8) (r : Word) (y : BitVec 8) : Bool :=
  nextIs w (regs a b 0 x) (fun t =>
    t.readReg (.r 2) == r && t.cpsr == y && t.pc == 0x104 && t.readReg (.r 0) == a && t.readReg (.r 1) == b)

/-- The step answers this refusal. -/
def refusedWith (w : Nat) (f : State → State) (r : Refusal) : Bool :=
  match step (start w f) with
  | .next _ => false
  | .fault _ => false
  | .refused q => q == r

/-- The step raises the interrupt with the address 0x100 and the word, and the PC has advanced. -/
def raises (w : Nat) (f : State → State) : Bool :=
  match step (start w f) with
  | .next _ => false
  | .fault (.invalidInstruction a v t) => a == 0x100 && v == BitVec.ofNat 32 w && t.pc == 0x104
  | .refused _ => false

/-- T4, T8. -/
theorem test_load_offset :
    nextIs 0xE0BFF804 (word 0x1FFC 0x11111111 ∘ regs 0x2000 0 0 0)
      (fun t => t.readReg (.r 4) == 0x11111111 && t.readReg (.r 0) == 0x2000 && t.pc == 0x104) = true ∧
    nextIs 0xE0C00804 (word 0x2004 0x22222222 ∘ regs 0x2000 0 0 0)
      (fun t => t.readReg (.r 4) == 0x22222222 && t.readReg (.r 0) == 0x2004) = true := by decide

/-- T11, T16. -/
theorem test_load_shift :
    nextIs 0xE0008804 (word 0x1230 0x77777777 ∘ regs 0xF0000123 0 0 0)
      (fun t => t.readReg (.r 4) == 0x77777777 && t.readReg (.r 0) == 0xF0000123) = true ∧
    nextIs 0xE0408804 (word 0x1230 0x77777777 ∘ regs 0x123 0 0 0)
      (fun t => t.readReg (.r 4) == 0x77777777 && t.readReg (.r 0) == 0x1230) = true := by decide

/-- T33: the old R0 is stored, then written back. -/
theorem test_store_offset :
    nextIs 0xE1C00800 (regs 0x2000 0 0 0)
      (fun t => t.readReg (.r 0) == 0x2004 && Memory.readWord t.mem t.params 0x2004 == 0x2000) = true := by decide

/-- T31, T32. -/
theorem test_store_shift :
    nextIs 0xE1000010 (word 0x2000 0xFFFFFFFF ∘ regs 0x2000 0 0 0xA5)
      (fun t => Memory.readWord t.mem t.params 0x2000 == 0xA5 && t.pc == 0x104) = true ∧
    nextIs 0xE100000F (regs 0x2000 0 0 0)
      (fun t => Memory.readWord t.mem t.params 0x2000 == 0x104) = true := by decide

/-- T42. -/
theorem test_and : givesR2 0xE4000012 0xF0F0F0F0 0x0F0F0F0F 0x3F 0 0x7F = true := by decide
/-- T44. -/
theorem test_eor : givesR2 0xE4400012 0xF0F0F0F0 0x0FF00FF0 0x20 0xFF00FF00 0xA0 = true := by decide
/-- T46, T47. -/
theorem test_sub : givesR2 0xE4800012 0x80000000 1 0 0x7FFFFFFF 0x30 = true ∧
    givesR2 0xE4800012 0 1 0 0xFFFFFFFF 0x80 = true := by decide
/-- T52. -/
theorem test_rsb : givesR2 0xE4C00012 3 0xA 0 7 0x20 = true := by decide
/-- T57, T83: the flags describe the sum before the shift. -/
theorem test_add : givesR2 0xE5000012 0x80000000 0x80000000 0x0A 0 0x7A = true ∧
    givesR2 0xE5088012 0x0F000000 1 0 0xF0000010 0 = true := by decide
/-- T62, T64. -/
theorem test_adc : givesR2 0xE5400012 1 2 0x20 4 0 = true ∧
    givesR2 0xE5400012 0xFFFFFFFF 0 0x20 0 0x60 = true := by decide
/-- T66, T67. -/
theorem test_sbc : givesR2 0xE5800012 0xA 3 0 6 0x20 = true ∧
    givesR2 0xE5800012 0 0 0 0xFFFFFFFF 0x80 = true := by decide
/-- T68, T69. -/
theorem test_rsc : givesR2 0xE5C00012 3 0xA 0 6 0x20 = true ∧ givesR2 0xE5C00012 3 0xA 0x20 7 0x20 = true := by
  decide
/-- T70. -/
theorem test_tst : givesR2 0xE6000010 0xF0F0F0F0 0x0F0F0F0F 0x30 0 0x70 = true := by decide
/-- T72. -/
theorem test_teq : givesR2 0xE6400010 0x80000000 0 0 0 0x80 = true := by decide
/-- T73, T74. -/
theorem test_cmp : givesR2 0xE6800010 5 7 0 0 0x80 = true ∧ givesR2 0xE6800010 0x80000000 1 0 0 0x30 = true := by
  decide
/-- T77. -/
theorem test_cmn : givesR2 0xE6C00010 0xFFFFFFFF 1 0 0 0x60 = true := by decide
/-- T89, T92. -/
theorem test_orr : givesR2 0xE70C0012 1 2 0 0 0 = true ∧
    givesR2 0xE7188012 0x80000000 0xF0 0 0xF800000F 0x80 = true := by decide
/-- T80. -/
theorem test_bic : givesR2 0xE7800012 0xF0F0F0F0 0x0FF00FF0 0 0xF000F000 0x80 = true := by decide
/-- T82, T96. -/
theorem test_mvn : givesR2 0xE7E01F12 0 0xFFFFFFFF 0x80 0 0x40 = true ∧
    givesR2 0xE7D38012 0 0x0FFFFFFF 0 0xF 0x80 = true := by decide

/-- T97, T98. -/
theorem test_mov_immediate :
    nextIs 0xE7612343 (fun s => { s.writeReg (.r 3) 0xAAAA5555 with cpsr := 0xF0 })
      (fun t => t.readReg (.r 3) == 0xAAAA1234 && t.cpsr == 0xF0) = true ∧
    nextIs 0xE77ABCD3 (fun s => s.writeReg (.r 3) 0xAAAA1234) (fun t => t.readReg (.r 3) == 0xABCD1234) =
      true := by decide

/-- T108, T110. -/
theorem test_mov_register :
    nextIs 0xE7400010 (regs 0xFFFFF1A5 0 0 0) (fun t => t.cpsr == 0xA5 && t.pc == 0x104) = true ∧
    nextIs 0xE74B8201 (regs 0 0 0 0xF5) (fun t => t.readReg (.r 1) == 0x50000000 && t.cpsr == 0xF5) = true := by
  decide

/-- T117, T119. -/
theorem test_jump_immediate : nextIs 0xE8FFFEFC id (fun t => t.pc == 0) = true ∧
    nextIs 0xE8C00000 id (fun t => t.pc == 0xFFC00104) = true := by decide
/-- T121, T125. -/
theorem test_jump_register_offset : nextIs 0xE8400000 (regs 0xFFFFFFF0 0 0 0) (fun t => t.pc == 0xF4) = true ∧
    nextIs 0xE840000F id (fun t => t.pc == 0x208) = true := by decide
/-- T126. -/
theorem test_jump_register_address :
    nextIs 0xE8000006 (fun s => s.writeReg (.r 6) 0x4002) (fun t => t.pc == 0x4002 && t.lr == 0) = true := by
  decide
/-- T129. -/
theorem test_jumpl_immediate : nextIs 0xE9800064 id (fun t => t.pc == 0x168 && t.lr == 0x104) = true := by decide
/-- T130. -/
theorem test_jumpl_register_offset :
    nextIs 0xE9400000 (regs 0x20 0 0 0) (fun t => t.pc == 0x124 && t.lr == 0x104) = true := by decide
/-- T132: the old LR is the target. -/
theorem test_jumpl_register_address :
    nextIs 0xE900000D (fun s => s.writeReg .lr 0x5000) (fun t => t.pc == 0x5000 && t.lr == 0x104) = true := by
  decide
/-- T135, T136. -/
theorem test_return :
    nextIs 0xCA000000 (fun s => { s with lr := 0xABC0, cpsr := 0x90 }) (fun t => t.pc == 0xABC0) = true ∧
    nextIs 0xCA000000 (fun s => { s with lr := 0xABC0, cpsr := 0x80 }) (fun t => t.pc == 0x104) = true := by
  decide
/-- T144, in both values of `SPECIAL_RETURN`. -/
theorem test_return_special :
    nextIs 0xEC800000 (fun s => { s with lr := 0xABC0 }) (fun t => t.pc == 0xABC0) = true ∧
    raises 0xEC800000 (fun s => { s with params := { s.params with specialReturn := .invalid } }) = true := by
  decide
/-- T140. -/
theorem test_pass : nextIs 0xEC000000 (regs 1 2 3 0xA5)
    (fun t => t.pc == 0x104 && t.cpsr == 0xA5 && t.readReg (.r 2) == 3) = true := by decide
/-- T142, T143. -/
theorem test_halt : nextIs 0xEC400000 id (fun t => t.halted && t.pc == 0x104) = true ∧
    nextIs 0x1C400000 (regs 0 0 0 0x40) (fun t => !t.halted && t.pc == 0x104) = true := by decide

/-- T2: with `W` = 1 every address is aligned and the next instruction is at 0x101. -/
theorem test_word_addressing :
    nextIs 0xE080FE04
      (word 0x107F 0xCAFEBABE ∘ regs 0x1000 0 0 0 ∘ fun s => { s with params := { s.params with unit := .word } })
      (fun t => t.readReg (.r 4) == 0xCAFEBABE && t.pc == 0x101) = true := by decide

/-- T37, T39, T40. -/
theorem test_invalid_instruction : raises 0xE2000000 id = true ∧ raises 0x02000000 (regs 0 0 0 0x40) = true ∧
    refusedWith 0x02000000 id .invalidWordConditionFalse = true := by decide

/-- T3, T20, T26, T25. -/
theorem test_refusals :
    refusedWith 0xE080FE04 (regs 0x1000 0 0 0) .misalignedAccess = true ∧
    refusedWith 0xE0C00800 (regs 0x2000 0 0 0) .loadWriteBackOwnAddress = true ∧
    refusedWith 0xE0000004
      (regs 0x7000 0 0 0 ∘ fun s => { s with params := { s.params with populated := [⟨0, 0x7000⟩] } })
      .unpopulatedAddress = true ∧
    refusedWith 0xE0020004 id (.encoding .nonzeroReservedField) = true := by decide

/-- T152, and a fetch from an address that a `store` has written (20_memory.md R63). -/
theorem test_fetch_refusals :
    (match step { State.reset with pc := 0x102 } with
      | .refused r => r == .misalignedPc
      | .next _ => false
      | .fault _ => false) = true ∧
    (match step { State.reset with stored := [0] } with
      | .refused r => r == .fetchOfStoredToAddress
      | .next _ => false
      | .fault _ => false) = true := by decide

/-- P5 in the launch state of 70_reset_and_hazards.md R212: the first step replaces one half of R0. -/
theorem test_launch :
    (match (State.launch Params.default State.reset [0xE7600010, 0xE2000000, 0xEC400000] []).map step with
      | some (.next t) => t.readReg (.r 0) == 1 && t.pc == 4 &&
          Memory.readWord t.fetchMemory t.params t.pc == 0xE2000000
      | _ => false) = true := by decide

/-- P2's first data word stands in memory at its address before the first step. -/
theorem test_launch_data :
    (State.launch Params.default State.reset [0xE760FFC0] [(0x1000, 0x11111111)]).map
      (fun s => Memory.readWord s.mem s.params 0x1000) = some 0x11111111 := by decide

/-- "All image and data addresses must lie in `MEM_POPULATED`" (70_reset_and_hazards.md R212): an image that
runs out of the memory, a data word outside it, one that is no multiple of `W`; and a launch that has none. -/
theorem test_launch_addresses :
    launchable { Params.default with populated := [⟨0, 8⟩] } 3 [] = false ∧
    launchable { Params.default with populated := [⟨0, 8⟩] } 2 [(8, 1)] = false ∧
    launchable { Params.default with populated := [⟨0, 8⟩] } 1 [(6, 1)] = false ∧
    launchable { Params.default with populated := [⟨0, 8⟩] } 1 [(4, 1)] = true := by decide

/-- The lines S1, S3, S12 of the source and a suffix with `HI` as in 30_encoding.md R96. -/
theorem test_assembly :
    asmText (.loadOff .al false 127 (.r 0) (.r 4)) = "load R4, [R0+127]" ∧
    rorShift 1 = ⟨.rol, 31⟩ ∧ rorShift 0 = ⟨.rol, 0⟩ ∧
    asmText (.jumpRegAbs .al (.r 6)) = "jump [R6]" ∧
    asmText (.movImm .lt true 5 .sp) = "MOVLT SP, #5, HI" ∧
    (loadImmediateAddress .al (.r 6) 0xabcd1234).map encode = [0xE7612346, 0xE77ABCD6, 0xE00000C6] := by decide

/-! ### Witnesses: a concrete state and operands that meet the hypotheses of each statement -/

/-- A state with a value in each register it names, Z and C set, about to fetch at 0x100. -/
def sample : State :=
  { State.reset with
    gpr := (State.reset.gpr.set 0 0x2000).set 1 0x7FFFFFFF
    lr := 0x5000
    sp := 0x8000
    pc := 0x100
    cpsr := 0x65 }

/-- The same with the memory not unified and program text at 0 to 0xFFF (20_memory.md R63). -/
def split : State :=
  { sample with params := { Params.default with unified := false, text := [⟨0, 0x1000⟩] } }

/-- The same with memory below 0x2000 only. -/
def small : State := { sample with params := { Params.default with populated := [⟨0, 0x2000⟩] } }

/-- `sample` about to fetch the word `w`. -/
def fetching (w : Nat) : State := sample.withFetchWord 32 w

/-- The parameters with `SPECIAL_RETURN` = invalid. -/
def noSpecial : Params := { Params.default with specialReturn := .invalid }

theorem witness_DecodeOfEncodeIsTheInstruction :
    (Instr.loadOff .le true (-4096) .pc (.r 12)).wf Params.default = true ∧
    (Instr.movReg .al ⟨.asr, 63⟩ .cpsr .cpsr).wf noSpecial = true ∧
    (Instr.retSpecial .eq).wf Params.default = true := by decide

theorem witness_WordDecodesExactlyUpToIgnoredBits :
    (Instr.cmp .al (.imm 31) .pc).wf Params.default = true ∧ (Instr.halt .al).wf noSpecial = true := by decide

theorem witness_DecodedInstructionIsWellFormed :
    decode Params.default 0xE00001CD = .valid (.loadShift .al false ⟨.rol, 0⟩ .sp .lr) ∧
    decode noSpecial 0xEC000000 = .valid (.pass .al) := by decide

theorem witness_MovImmediateFormat :
    Cond.ofCode (field 0xE77FFFFF 31 28) = some .al ∧ field 0xE77FFFFF 27 26 = 0b01 ∧
    field 0xE77FFFFF 25 22 = 0b1101 ∧ bit 0xE77FFFFF 21 = true ∧
    Cond.ofCode (field 0x07600000 31 28) = some .eq ∧ field 0x07600000 27 26 = 0b01 ∧
    field 0x07600000 25 22 = 0b1101 ∧ bit 0x07600000 21 = true := by decide

/-- The least offset of a `load`, the greatest of a `store` whose source is the CPSR. -/
theorem witness_OffsetFormAddress :
    (Cond.ofCode (field 0xE0A00004 31 28) = some .al ∧ field 0xE0A00004 27 26 = 0b00 ∧
      bit 0xE0A00004 23 = true ∧ Reg.ofCode5 (field 0xE0A00004 4 0) = some (.r 4) ∧
      field 0xE0A00004 25 24 = 0b00 ∧ Reg.r 4 ≠ .cpsr) ∧
    (Cond.ofCode (field 0xE19FFE10 31 28) = some .al ∧ field 0xE19FFE10 27 26 = 0b00 ∧
      bit 0xE19FFE10 23 = true ∧ Reg.ofCode5 (field 0xE19FFE10 4 0) = some .cpsr ∧
      field 0xE19FFE10 25 24 = 0b01) := by decide

theorem witness_ExecutedOnlyIfTheConditionIsMet :
    decode Params.default 0x18FFFFF4 = .valid (.jumpImm .ne (-12)) ∧
    sample.conditionPassed (Instr.jumpImm .ne (-12)).cond = false := by decide

theorem witness_FailedConditionOnlyAdvancesThePc :
    (fetching 0x18FFFFF4).halted = false ∧ (fetching 0x18FFFFF4).fetch = .ok 0x18FFFFF4 ∧
    decode (fetching 0x18FFFFF4).params 0x18FFFFF4 = .valid (.jumpImm .ne (-12)) ∧
    (fetching 0x18FFFFF4).conditionPassed (Instr.jumpImm .ne (-12)).cond = false := by
  refine ⟨by decide, rfl, by decide, by decide⟩

theorem witness_StepRunsTheDecodedInstruction :
    let s := fetching 0xE52008FF
    s.halted = false ∧ aligned s.params s.pc = true ∧ populatedAt s.params s.pc = true ∧
    s.fetchExcluded s.pc = false ∧
    decode s.params (Memory.readWord s.fetchMemory s.params s.pc) =
      .valid (.add .al (.imm 8) .pc ⟨.rol, 0⟩ .pc) := by decide

theorem witness_HaltedCoreKeepsItsState : ({ sample with halted := true } : State).halted = true := rfl

/-- Both clauses: the step that faults, and the word that makes it fault. -/
theorem witness_OnlyInvalidWordsRaiseTheInterrupt :
    (∃ t, step (fetching 0xE2000000) = .fault (.invalidInstruction 0x100 0xE2000000 t)) ∧
    (fetching 0xE2000000).halted = false ∧ (fetching 0xE2000000).fetch = .ok 0xE2000000 ∧
    decode (fetching 0xE2000000).params 0xE2000000 = .invalid .al ∧
    (fetching 0xE2000000).conditionPassed .al = true :=
  ⟨⟨_, rfl⟩, rfl, rfl, by decide, rfl⟩

theorem witness_FaultLeavesOnlyThePcAdvanced :
    ∃ t, step (fetching 0x0BADF00D) = .fault (.invalidInstruction 0x100 0x0BADF00D t) := ⟨_, rfl⟩

/-- The three clauses, at the last misaligned PC, at the first address past the memory, at a stored-to PC. -/
theorem witness_FetchStopsInOrder :
    (let s : State := { sample with pc := 0xFFFFFFFF };
      s.halted = false ∧ s.pc.toNat % s.params.wordUnits ≠ 0) ∧
    (let s : State := { small with pc := 0x2000 };
      s.halted = false ∧ s.pc.toNat % s.params.wordUnits = 0 ∧ populatedAt s.params s.pc = false) ∧
    (let s : State := { small with pc := 0x1FFC, stored := [0x1FFC] };
      s.halted = false ∧ s.pc.toNat % s.params.wordUnits = 0 ∧ populatedAt s.params s.pc = true ∧
        s.pc.toNat ∈ s.stored ∧ ¬ (s.params.unified = true ∧ s.params.coherentFetch = true)) := by decide

/-- A word with condition 1111, and an invalid word whose condition is not met. -/
theorem witness_WordsWithoutMeaningAreRefused :
    (fetching 0xFC000000).halted = false ∧ (fetching 0xFC000000).fetch = .ok 0xFC000000 ∧
    decode (fetching 0xFC000000).params 0xFC000000 = .unspecified .condition1111 ∧
    (fetching 0x13000000).halted = false ∧ (fetching 0x13000000).fetch = .ok 0x13000000 ∧
    decode (fetching 0x13000000).params 0x13000000 = .invalid .ne ∧
    (fetching 0x13000000).conditionPassed .ne = false :=
  ⟨rfl, rfl, by decide, rfl, rfl, by decide, by decide⟩

/-- Each of the four reasons. -/
theorem witness_ExecutionStopsOnlyInDataMovement :
    exec (.loadOff .al false 1 (.r 0) (.r 4)) sample = .refused .misalignedAccess ∧
    exec (.storeOff .al false 0 (.r 0) (.r 4)) small = .refused .unpopulatedAddress ∧
    exec (.storeShift .al false ⟨.lsr, 10⟩ .lr (.r 4)) split = .refused .programTextAccess ∧
    exec (.loadOff .al true 4 (.r 0) (.r 0)) sample = .refused .loadWriteBackOwnAddress :=
  ⟨rfl, rfl, rfl, rfl⟩

theorem witness_SequentialAdvanceUnlessThePcIsWritten :
    (fetching 0xE1C00800).halted = false ∧ (fetching 0xE1C00800).fetch = .ok 0xE1C00800 ∧
    decode (fetching 0xE1C00800).params 0xE1C00800 = .valid (.storeOff .al true 4 (.r 0) (.r 0)) ∧
    isControlFlow (.storeOff .al true 4 (.r 0) (.r 0)) = false ∧
    Reg.pc ∉ namedWrites (.storeOff .al true 4 (.r 0) (.r 0)) ∧
    ∃ t, step (fetching 0xE1C00800) = .next t :=
  ⟨rfl, rfl, by decide, rfl, by decide, _, rfl⟩

/-- Both forms, with write-back, at the last word of the memory and at its first. -/
theorem witness_LoadResultAndFrame :
    small.conditionPassed .eq = true ∧ Reg.r 0 ≠ .cpsr ∧ Reg.pc ≠ .cpsr ∧ ¬ (true = true ∧ Reg.pc = .r 0) ∧
    small.dataCheck (small.readReg (.r 0) + (-4 : BitVec 13).signExtend 32) = none ∧
    small.dataCheck (applyShift ⟨.lsl, 63⟩ (small.readReg (.r 0))) = none := by decide

theorem witness_StoreResultAndFrame :
    small.conditionPassed .eq = true ∧ Reg.r 0 ≠ .cpsr ∧
    small.dataCheck (small.readReg (.r 0) + (-4 : BitVec 13).signExtend 32) = none ∧
    small.dataCheck (applyShift ⟨.lsl, 63⟩ (small.readReg (.r 0))) = none := by decide

/-- The four clauses, each with a next state. -/
theorem witness_WriteBackOfTheAlteredAddress :
    sample.conditionPassed .al = true ∧ Reg.r 0 ≠ .cpsr ∧ Reg.r 4 ≠ .r 0 ∧
    (∃ t, exec (.loadOff .al true 4092 (.r 0) (.r 4)) sample = .next t) ∧
    (∃ t, exec (.storeOff .al true (-4096) (.r 0) (.r 4)) sample = .next t) ∧
    (∃ t, exec (.loadShift .al true ⟨.rol, 1⟩ (.r 0) (.r 4)) sample = .next t) ∧
    (∃ t, exec (.storeShift .al false ⟨.lsr, 32⟩ (.r 0) (.r 4)) sample = .next t) :=
  ⟨rfl, by decide, by decide, ⟨_, rfl⟩, ⟨_, rfl⟩, ⟨_, rfl⟩, ⟨_, rfl⟩⟩

/-- Every clause, the addresses at the edges of the memory and of the program text. -/
theorem witness_DataAccessStops :
    sample.conditionPassed .al = true ∧ (true = true ∧ Reg.r 0 = .r 0) ∧
    small.conditionPassed .al = true ∧
    small.dataCheck (small.readReg (.r 0) + (0 : BitVec 13).signExtend 32) = some .unpopulatedAddress ∧
    split.conditionPassed .al = true ∧
    split.dataCheck (applyShift ⟨.lsl, 32⟩ (split.readReg (.r 0))) = some .programTextAccess ∧
    ¬ (false = true ∧ Reg.r 4 = .r 0) ∧
    (0x1FFF : Word).toNat % small.params.wordUnits ≠ 0 ∧
    ((0x2000 : Word).toNat % small.params.wordUnits = 0 ∧ populatedAt small.params 0x2000 = false) ∧
    ((0x0FFC : Word).toNat % split.params.wordUnits = 0 ∧ populatedAt split.params 0x0FFC = true ∧
      split.params.unified = false ∧ touchesWord split.params.text split.params 0x0FFC = true) ∧
    ((0x1000 : Word).toNat % split.params.wordUnits = 0 ∧ populatedAt split.params 0x1000 = true ∧
      ¬ (split.params.unified = false ∧ touchesWord split.params.text split.params 0x1000 = true)) := by decide

/-- The same word, and two neighbouring words. -/
theorem witness_StoreThenLoad :
    Reg.r 0 ≠ .cpsr ∧ Reg.sp ≠ .cpsr ∧ Reg.pc ≠ .cpsr ∧ sample.dataCheck (sample.readReg (.r 0)) = none ∧
    sample.dataCheck (sample.readReg .sp) = none ∧ sample.readReg (.r 0) ≠ sample.readReg .sp := by decide

theorem witness_WhoReadsAndWritesMemory :
    (∃ t, exec (.loadOff .al true 4 (.r 0) (.r 4)) sample = .next t) ∧
    isStore (.loadOff .al true 4 (.r 0) (.r 4)) = false ∧
    (∃ t, exec (.storeOff .al true 4 (.r 0) (.r 0)) sample = .next t) ∧
    isLoad (.storeOff .al true 4 (.r 0) (.r 0)) = false :=
  ⟨⟨_, rfl⟩, rfl, ⟨_, rfl⟩, rfl⟩

theorem witness_LogicalResultAndFlags :
    sample.params.layout.wf = true ∧ sample.conditionPassed .cs = true ∧ Reg.pc ≠ .cpsr := by decide

theorem witness_AdditionResultAndFlags :
    sample.params.layout.wf = true ∧ sample.conditionPassed .al = true ∧ Reg.r 12 ≠ .cpsr := by decide

theorem witness_SubtractionResultAndFlags :
    sample.params.layout.wf = true ∧ sample.conditionPassed .ls = true ∧ Reg.lr ≠ .cpsr := by decide

theorem witness_SubtractionWithCarryResultAndFlags :
    sample.params.layout.wf = true ∧ sample.conditionPassed .vc = true ∧ Reg.sp ≠ .cpsr := by decide

theorem witness_ComparingInstructionsWriteOnlyFlags :
    sample.params.layout.wf = true ∧ sample.conditionPassed .pl = true := by decide

theorem witness_ConditionsAfterCompare : sample.params.layout.wf = true := by decide

theorem witness_MovImmediateReplacesOneHalf :
    sample.conditionPassed .ge = true ∧ Reg.pc ≠ .cpsr := by decide

theorem witness_TwoMovImmediatesSetTheWholeRegister : Reg.r 6 ≠ .cpsr ∧ Reg.r 6 ≠ .pc := by decide

/-- Both clauses: a destination other than the CPSR, and the CPSR. -/
theorem witness_MovRegisterMovesTheShiftedSource :
    sample.conditionPassed .le = true ∧ Reg.r 9 ≠ .cpsr ∧ Reg.cpsr = .cpsr := by decide

theorem witness_CpsrIsAccessedThroughItsLowEightBits :
    Reg.r 0 ≠ .cpsr ∧ sample.dataCheck (sample.readReg (.r 0)) = none := by decide

theorem witness_ShiftedBits : 31 < 32 ∧ 0 < 32 := by decide

/-- An instruction that writes no flag, and one that writes the flags only. -/
theorem witness_WhoWritesTheCpsr :
    (Instr.movReg .al ⟨.rol, 0⟩ .cpsr (.r 1)).wf sample.params = true ∧
    (∃ t, exec (.movReg .al ⟨.rol, 0⟩ .cpsr (.r 1)) sample = .next t) ∧
    Reg.cpsr ∉ namedWrites (.movReg .al ⟨.rol, 0⟩ .cpsr (.r 1)) ∧
    writesFlags (.movReg .al ⟨.rol, 0⟩ .cpsr (.r 1)) = false ∧
    (Instr.tst .al (.imm 31) (.r 1)).wf sample.params = true ∧
    (∃ t, exec (.tst .al (.imm 31) (.r 1)) sample = .next t) ∧
    Reg.cpsr ∉ namedWrites (.tst .al (.imm 31) (.r 1)) ∧ isStorageBit sample.params.layout 0 ∧
    isStorageBit sample.params.layout 3 :=
  ⟨by decide, ⟨_, rfl⟩, by decide, rfl, by decide, ⟨_, rfl⟩, by decide, by unfold isStorageBit; decide,
    by unfold isStorageBit; decide⟩

theorem witness_NothingElseReadsTheFlags :
    (Instr.sub .al (.imm 0) (.r 1) ⟨.asr, 32⟩ .pc).wf sample.params = true ∧
    (Instr.sub .al (.imm 0) (.r 1) ⟨.asr, 32⟩ .pc).cond = .al ∧
    readsFlags (.sub .al (.imm 0) (.r 1) ⟨.asr, 32⟩ .pc) = false := by decide

theorem witness_JumpTargets : sample.conditionPassed .eq = true ∧ Reg.pc ≠ .cpsr := by decide

theorem witness_JumplTargetsAndLink : sample.conditionPassed .cs = true ∧ Reg.lr ≠ .cpsr := by decide

/-- A `return` word, and one with bit 0 set. -/
theorem witness_ReturnMovesTheLinkRegisterToThePc :
    sample.conditionPassed .al = true ∧
    Cond.ofCode (field 0xEA000000 31 28) = some .al ∧ field 0xEA000000 27 26 = 0b10 ∧
    field 0xEA000000 25 24 = 0b10 ∧
    Cond.ofCode (field 0xEA000001 31 28) = some .al ∧ field 0xEA000001 27 26 = 0b10 ∧
    field 0xEA000001 25 24 = 0b10 := by decide

theorem witness_SpecialReturnFollowsItsParameter :
    sample.conditionPassed .al = true ∧
    Cond.ofCode (field 0xEC800000 31 28) = some .al ∧ field 0xEC800000 27 26 = 0b11 ∧
    field 0xEC800000 25 22 = 0b0010 ∧ field 0xEC800000 21 0 = 0 := by decide

theorem witness_ReturnResumesAfterTheCall :
    isJumpl (.jumplRegAbs .al .lr) = true ∧ sample.conditionPassed (Instr.jumplRegAbs .al .lr).cond = true ∧
    ∃ t, exec (.jumplRegAbs .al .lr) sample = .next t := ⟨rfl, rfl, _, rfl⟩

theorem witness_WhoWritesTheLinkRegister :
    (∃ t, exec (.loadOff .al true (-4) .sp .pc) sample = .next t) ∧
    isJumpl (.loadOff .al true (-4) .sp .pc) = false ∧ Reg.lr ∉ namedWrites (.loadOff .al true (-4) .sp .pc) :=
  ⟨⟨_, rfl⟩, rfl, by decide⟩

/-- Both clauses: SP read and not written, and SP in no field. -/
theorem witness_StackPointerHasNoImplicitUse :
    (∃ t, exec (.movReg .al ⟨.rol, 0⟩ .sp (.r 1)) sample = .next t) ∧
    Reg.sp ∉ namedWrites (.movReg .al ⟨.rol, 0⟩ .sp (.r 1)) ∧
    Reg.sp ∉ namedRegisters (.storeOff .al true 4 .lr (.r 0)) :=
  ⟨⟨_, rfl⟩, by decide, by decide⟩

/-- The step of a `pass` whose condition is not met, and two `pass` words, one with bit 21 set. -/
theorem witness_PassDoesNothing :
    (fetching 0x1C000000).halted = false ∧ (fetching 0x1C000000).fetch = .ok (encode (.pass .ne)) ∧
    Cond.ofCode (field 0x1C000000 31 28) = some .ne ∧ field 0x1C000000 27 26 = 0b11 ∧
    field 0x1C000000 25 22 = 0b0000 ∧
    Cond.ofCode (field 0x1C200000 31 28) = some .ne ∧ field 0x1C200000 27 26 = 0b11 ∧
    field 0x1C200000 25 22 = 0b0000 :=
  ⟨rfl, rfl, by decide, by decide, by decide, by decide, by decide, by decide⟩

theorem witness_HaltSetsHalted : sample.conditionPassed .hi = false ∧ sample.conditionPassed .ls = true := by
  decide

theorem witness_OnlyHaltChangesHalted :
    (∃ t, exec (.halt .al) sample = .next t) ∧ (∃ t, exec (.halt .ne) sample = .next t) ∧
    (∃ t, exec (.pass .al) sample = .next t) := ⟨⟨_, rfl⟩, ⟨_, rfl⟩, ⟨_, rfl⟩⟩

/-- A step that stores, from a state in order that has a stored-to address already. -/
def started : State := { fetching 0xE1C00800 with stored := [0x1FFC] }

theorem witness_StepKeepsTheStateInOrder : started.Inv ∧ ∃ t, step started = .next t :=
  ⟨⟨by decide, by decide, by decide, by decide, by decide,
    by intro a h; rw [List.mem_singleton.1 h]; exact ⟨0x1FFC, by decide, by decide, by decide⟩,
    by decide⟩, _, rfl⟩

/-- A run of one step, a `store`. -/
theorem witness_NoInstructionChangesAParameter : ∃ t, Reachable (fetching 0xE1C00800) t ∧ t.stored = [0x2004] :=
  ⟨_, .next .start rfl, rfl⟩

/-- The words on both sides of the one stored to. -/
theorem witness_UnstoredWordsKeepTheirContents :
    ∃ t, Reachable (fetching 0xE1C00800) t ∧ aligned (fetching 0xE1C00800).params 0x2000 = true ∧
      (0x2000 : Word).toNat ∉ t.stored ∧ aligned (fetching 0xE1C00800).params 0x2008 = true ∧
      (0x2008 : Word).toNat ∉ t.stored :=
  ⟨_, .next .start rfl, by decide, by decide, by decide, by decide⟩

theorem witness_FetchedWordsAreThoseOfTheLaunch :
    ∃ t, Reachable (fetching 0xE1C00800) t ∧ (fetching 0xE1C00800).params.coherentFetch = false ∧
      t.fetch = .ok 0 := ⟨_, .next .start rfl, rfl, rfl⟩

theorem witness_HaltedRunStaysPut :
    ({ sample with halted := true } : State).halted = true ∧
    Reachable { sample with halted := true } { sample with halted := true } := ⟨rfl, .next .start rfl⟩

/-- An image of two words that wraps to address 0 of separate memories, with a data word at the text's edge. -/
def wrapping : Params := { Params.default with resetPc := 0xFFFFFFFC, unified := false }

/-- `MOV R0, #1` and `halt`. -/
def image : List Word := [0xE7600010, 0xEC400000]

theorem witness_LaunchedStateIsInOrder :
    Memory.wf sample.mem = true ∧ (∀ c ∈ sample.mem, c.1 < cellCount wrapping) ∧
    Memory.wf sample.imem = true ∧ (∀ c ∈ sample.imem, c.1 < cellCount wrapping) ∧
    (∃ t, State.launch wrapping sample image [(4, 7)] = some t) ∧
    (¬ ∃ d ∈ [((4 : Word), (7 : Word))], inWord wrapping d.1 3) ∧ wrapping.unified = false ∧
    (¬ ∃ j, j < image.length ∧ inWord wrapping (wrapping.resetPc + BitVec.ofNat 32 (j * wrapping.wordUnits)) 4) :=
  ⟨by decide, by decide, by decide, by decide, ⟨_, rfl⟩, by unfold inWord; simp [cellBase, wrapping, Params.default],
    rfl, by unfold inWord; decide⟩

/-- The same in a unified memory: cell 8 lies just after both the image and the data word. -/
theorem witness_LaunchedStateIsInOrder_unified :
    (∃ t, State.launch Params.default sample image [(4, 7)] = some t) ∧
    (¬ ∃ d ∈ [((4 : Word), (7 : Word))], inWord Params.default d.1 8) ∧
    (¬ ∃ j, j < image.length ∧
      inWord Params.default (Params.default.resetPc + BitVec.ofNat 32 (j * Params.default.wordUnits)) 8) :=
  ⟨⟨_, rfl⟩, by unfold inWord; simp [cellBase, Params.default], by unfold inWord; decide⟩

/-- The image clauses: the last word of an image in a unified memory with data beside it, and the wrapped word of one
in separate memories. -/
theorem witness_LaunchedImageIsTheProgramText :
    ((∃ t, State.launch Params.default sample image [(8, 7)] = some t) ∧
      image.length * Params.default.wordUnits ≤ 2 ^ 32 ∧ image[1]? = some 0xEC400000 ∧
      Params.default.unified = true ∧
      ∀ d ∈ [((8 : Word), (7 : Word))], d.1 ≠ Params.default.resetPc + BitVec.ofNat 32 (1 * Params.default.wordUnits)) ∧
    ((∃ t, State.launch wrapping sample image [(4, 7)] = some t) ∧
      image.length * wrapping.wordUnits ≤ 2 ^ 32 ∧ image[1]? = some 0xEC400000 ∧ wrapping.unified = false) :=
  ⟨⟨⟨_, rfl⟩, by decide, rfl, rfl, by intro d h; rw [List.mem_singleton.1 h]; decide⟩, ⟨_, rfl⟩, by decide, rfl,
    rfl⟩

/-- The data clause: the later of two words named at one address. -/
theorem witness_LaunchedImageIsTheProgramText_data :
    (∃ t, State.launch wrapping sample image [(4, 7), (4, 9)] = some t) ∧
    ([(4, 7), (4, 9)] : List (Word × Word))[1]? = some (4, 9) ∧
    ∀ d ∈ ([(4, 7), (4, 9)] : List (Word × Word)).drop 2, d.1 ≠ 4 :=
  ⟨⟨_, rfl⟩, rfl, by simp⟩

end Sys2Proof.Tests
end

section
/-! SUPPORT. `MOV` in register form and `store` in shift form executed once, the unshifted operand, and what the two
instructions see and keep of the CPSR (10_state.md R30). -/

namespace Sys2Proof.Machine

variable {s : State}

/-! ### Operands and register writes -/

/-- Method 00 with amount 0 is no shift (00_scope.md R10). -/
@[simp] theorem applyShift_rol_zero (v : Word) : applyShift ⟨.rol, 0⟩ v = v := rfl

@[simp] theorem writeReg_cpsr_cpsr (v : Word) : (s.writeReg .cpsr v).cpsr = v.setWidth 8 := rfl

/-- The effective address of the plain `[Ra]` form (40_data_movement.md R100). -/
@[simp] theorem shiftAddress_rol_zero (ra : Reg) : s.shiftAddress ra ⟨.rol, 0⟩ = s.readReg ra :=
  applyShift_rol_zero _

/-- The write of a shifted result, by method 00 with amount 0, is the plain write (41_data_processing.md R120). -/
@[simp] theorem writeShifted_rol_zero (rd : Reg) (v : Word) : s.writeShifted rd ⟨.rol, 0⟩ v = s.writeReg rd v :=
  congrArg _ (applyShift_rol_zero v)

/-- The CPSR reads as its eight bits with all others zero. -/
theorem toNat_readReg_cpsr : (s.readReg .cpsr).toNat = s.cpsr.toNat := by
  rw [readReg_cpsr, BitVec.toNat_setWidth_of_le (by decide)]

/-! ### `MOV` in register form and `store` in shift form, executed -/

/-- `MOV` in register form with its condition met (41_data_processing.md R138). -/
theorem exec_movReg_of_pass {c : Cond} (h : s.conditionPassed c = true) (sh : Shift) (rs rd : Reg) :
    exec (.movReg c sh rs rd) s = .next (s.writeShifted rd sh (s.readReg rs)) :=
  onCondition_pass h _

/-- `store` in shift form with its condition met, at an address that passes the checks (40_data_movement.md R102). -/
theorem exec_storeShift_of_pass {c : Cond} (h : s.conditionPassed c = true) (wb : Bool) {sh : Shift} {ra : Reg}
    (hd : s.dataCheck (s.shiftAddress ra sh) = none) (rs : Reg) :
    exec (.storeShift c wb sh ra rs) s =
      .next (({ s with
        mem := Memory.writeWord s.mem s.params (s.shiftAddress ra sh) (s.readReg rs)
        stored := addStored s.stored (s.shiftAddress ra sh).toNat } : State).writeBack wb ra (s.shiftAddress ra sh)) :=
  (onCondition_pass h _).trans (storeTo_next.mpr ⟨hd, rfl⟩)

/-! ### The CPSR through `MOV` and `store` -/

/-- Settles O35: each instruction's outcome is one register write or one word write, and reading that back leaves the
width change between the eight bits and the word. -/
theorem cpsrIsAccessedThroughItsLowEightBits : Obligations.CpsrIsAccessedThroughItsLowEightBits := by
  intro s r hr
  refine ⟨⟨_, exec_movReg_of_pass rfl _ _ _, ?movFrom⟩, ⟨_, exec_movReg_of_pass rfl _ _ _, ?movTo⟩,
    fun hd => ⟨_, exec_storeShift_of_pass rfl false hd _, ?store⟩⟩
  case movFrom => rw [writeShifted_rol_zero, readReg_writeReg_self s hr, toNat_readReg_cpsr]
  case movTo => rw [writeShifted_rol_zero, writeReg_cpsr_cpsr, BitVec.toNat_setWidth]
  case store =>
    simp only [writeBack_mem, shiftAddress_rol_zero, Memory.readWord_writeWord_self, toNat_readReg_cpsr]

end Sys2Proof.Machine
end

section
/-! SUPPORT. The decoder one level at a time: the class a word is decoded in, its op-code, its form; the condition and
the class that every decoded instruction carries over from the word (30_encoding.md R71, R74, R90). -/

namespace Sys2Proof

variable {p : Params} {c : Cond} {w : Word}

/-- A code names a condition exactly when it is that condition's code (30_encoding.md R72). -/
theorem Cond.ofCode_eq_some {k : BitVec 4} {c : Cond} : Cond.ofCode k = some c ↔ k = c.code :=
  ⟨fun h => (Cond.code_ofCode h).symm, fun h => h ▸ Cond.ofCode_code c⟩

/-! ### From the word to its class (R74, R90) -/

/-- Condition 1111 is tested before anything else (30_encoding.md R73). -/
theorem decode_of_no_condition (hc : Cond.ofCode (field w 31 28) = none) :
    decode p w = .unspecified .condition1111 := by
  simp only [decode, hc]

theorem decode_dataMovement (hc : Cond.ofCode (field w 31 28) = some c) (hk : field w 27 26 = 0b00) :
    decode p w = decodeDataMovement c w := by
  simp only [decode, hc, hk]; rfl

theorem decode_dataProcessing (hc : Cond.ofCode (field w 31 28) = some c) (hk : field w 27 26 = 0b01) :
    decode p w = decodeDataProcessing c w := by
  simp only [decode, hc, hk]; rfl

theorem decode_controlFlow (hc : Cond.ofCode (field w 31 28) = some c) (hk : field w 27 26 = 0b10) :
    decode p w = decodeControlFlow c w := by
  simp only [decode, hc, hk]; rfl

theorem decode_special (hc : Cond.ofCode (field w 31 28) = some c) (hk : field w 27 26 = 0b11) :
    decode p w = decodeSpecial p c w := by
  simp only [decode, hc, hk]; rfl

/-! ### From the class to the op-code and the form (R75 to R77, R82) -/

theorem decodeDataMovement_load (hop : field w 25 24 = 0b00) : decodeDataMovement c w = decodeLoad c w := by
  simp only [decodeDataMovement, hop]; rfl

theorem decodeDataMovement_store (hop : field w 25 24 = 0b01) : decodeDataMovement c w = decodeStore c w := by
  simp only [decodeDataMovement, hop]; rfl

/-- `load` with Offset Enable Bit 1: no field is reserved, and only the CPSR is no destination. -/
theorem decodeLoad_offset {rd : Reg} (ho : bit w 23 = true) (hr : Reg.ofCode5 (field w 4 0) = some rd)
    (hd : rd ≠ .cpsr) :
    decodeLoad c w = .valid (.loadOff c (bit w 22) (field w 21 9) (Reg.ofCode4 (field w 8 5)) rd) := by
  simp [decodeLoad, ho, hr, hd]

/-- `store` with Offset Enable Bit 1: no field is reserved, and every register is a source. -/
theorem decodeStore_offset {rs : Reg} (ho : bit w 23 = true) (hr : Reg.ofCode5 (field w 4 0) = some rs) :
    decodeStore c w = .valid (.storeOff c (bit w 22) (field w 21 9) (Reg.ofCode4 (field w 8 5)) rs) := by
  simp [decodeStore, ho, hr]

theorem decodeDataProcessing_mov (hop : field w 25 22 = 0b1101) : decodeDataProcessing c w = decodeMov c w := by
  simp only [decodeDataProcessing, hop]; rfl

theorem decodeMov_immediate (hi : bit w 21 = true) :
    decodeMov c w = .valid (.movImm c (bit w 20) (field w 19 4) (Reg.ofCode4 (field w 3 0))) :=
  if_pos hi

/-! ### The condition and the class of what is decoded (R71) -/

/-- If `d` is an instruction, its condition is `c` and its class `k`. -/
def Decoded.HasCondAndClass (c : Cond) (k : BitVec 2) (d : Decoded) : Prop :=
  ∀ i, d = .valid i → i.cond = c ∧ Machine.instrClass i = k

@[simp] theorem hasCondAndClass_valid {k : BitVec 2} {i : Instr} :
    (Decoded.valid i).HasCondAndClass c k ↔ i.cond = c ∧ Machine.instrClass i = k := by
  simp [Decoded.HasCondAndClass]

@[simp] theorem hasCondAndClass_invalid {k : BitVec 2} (e : Cond) : (Decoded.invalid e).HasCondAndClass c k := by
  simp [Decoded.HasCondAndClass]

@[simp] theorem hasCondAndClass_unspecified {k : BitVec 2} (why : EncodingReason) :
    (Decoded.unspecified why).HasCondAndClass c k := by
  simp [Decoded.HasCondAndClass]

theorem decodeLoad_hasCondAndClass : (decodeLoad c w).HasCondAndClass c 0b00 := by
  unfold decodeLoad
  repeat' split
  all_goals simp [Instr.cond, Machine.instrClass]

theorem decodeStore_hasCondAndClass : (decodeStore c w).HasCondAndClass c 0b00 := by
  unfold decodeStore
  repeat' split
  all_goals simp [Instr.cond, Machine.instrClass]

theorem decodeDataMovement_hasCondAndClass : (decodeDataMovement c w).HasCondAndClass c 0b00 := by
  unfold decodeDataMovement
  split
  · exact decodeLoad_hasCondAndClass
  · exact decodeStore_hasCondAndClass
  · exact hasCondAndClass_invalid c

theorem decodeMov_hasCondAndClass : (decodeMov c w).HasCondAndClass c 0b01 := by
  unfold decodeMov
  repeat' split
  all_goals simp [Instr.cond, Machine.instrClass]

/-- Only op-code 1101 leaves the common scheme (30_encoding.md R80). -/
theorem decodeDataProcessing_hasCondAndClass : (decodeDataProcessing c w).HasCondAndClass c 0b01 := by
  unfold decodeDataProcessing
  split
  case h_14 => exact decodeMov_hasCondAndClass
  all_goals exact hasCondAndClass_valid.mpr ⟨rfl, rfl⟩

theorem decodeJump_hasCondAndClass (link : Bool) : (decodeJump link c w).HasCondAndClass c 0b10 := by
  unfold decodeJump
  repeat' split
  all_goals simp [Instr.cond, Machine.instrClass]

theorem decodeControlFlow_hasCondAndClass : (decodeControlFlow c w).HasCondAndClass c 0b10 := by
  unfold decodeControlFlow
  split
  · exact decodeJump_hasCondAndClass false
  · exact decodeJump_hasCondAndClass true
  · split
    · exact hasCondAndClass_unspecified _
    · exact hasCondAndClass_valid.mpr ⟨rfl, rfl⟩
  · exact hasCondAndClass_invalid c

theorem decodeSpecial_hasCondAndClass : (decodeSpecial p c w).HasCondAndClass c 0b11 := by
  simp only [decodeSpecial]
  repeat' split
  all_goals simp [Instr.cond, Machine.instrClass]

/-- The decoder hands down the condition of bits 31-28 and the class of bits 27-26 (30_encoding.md R90). -/
theorem decode_hasCondAndClass (hc : Cond.ofCode (field w 31 28) = some c) :
    (decode p w).HasCondAndClass c (field w 27 26) := by
  have classes : ∀ k : BitVec 2, k = 0b00 ∨ k = 0b01 ∨ k = 0b10 ∨ k = 0b11 := by decide
  rcases classes (field w 27 26) with hk | hk | hk | hk
  · rw [decode_dataMovement hc hk, hk]; exact decodeDataMovement_hasCondAndClass
  · rw [decode_dataProcessing hc hk, hk]; exact decodeDataProcessing_hasCondAndClass
  · rw [decode_controlFlow hc hk, hk]; exact decodeControlFlow_hasCondAndClass
  · rw [decode_special hc hk, hk]; exact decodeSpecial_hasCondAndClass

/-- A word that decodes to an instruction holds its condition and its class (30_encoding.md R71). -/
theorem fields_of_decode_valid {i : Instr} (h : decode p w = .valid i) :
    field w 31 28 = i.cond.code ∧ field w 27 26 = Machine.instrClass i := by
  cases hc : Cond.ofCode (field w 31 28) with
  | none => rw [decode_of_no_condition hc] at h; cases h
  | some c =>
    obtain ⟨hcond, hclass⟩ := decode_hasCondAndClass hc i h
    exact ⟨hcond ▸ (Cond.code_ofCode hc).symm, hclass.symm⟩

end Sys2Proof

namespace Sys2Proof.Machine

/-! ### Offsets and conditions in execution -/

/-- Adding a sign-extended number is adding that signed number mod 2^32 (00_scope.md R6). -/
theorem toNat_add_signExtend {n : Nat} (a : Word) (off : BitVec n) :
    ((a + off.signExtend 32).toNat : Int) = (a.toNat + off.toInt) % 2 ^ 32 := by
  have hoff : ((off.signExtend 32).toNat : Int) = off.toInt % 2 ^ 32 := by
    rw [BitVec.signExtend, BitVec.toNat_ofInt]; omega
  rw [BitVec.toNat_add]
  omega

/-- Every instruction runs a body of its own under its condition (00_scope.md R13, 30_encoding.md R71). -/
theorem exec_eq_onCondition (i : Instr) (s : State) : ∃ body, exec i s = s.onCondition i.cond body := by
  cases i <;> exact ⟨_, rfl⟩

/-- An instruction whose condition is not met changes nothing in its execution (00_scope.md R14). -/
theorem exec_of_condition_failed {i : Instr} {s : State} (h : s.conditionPassed i.cond = false) :
    exec i s = .next s := by
  obtain ⟨body, hexec⟩ := exec_eq_onCondition i s
  rw [hexec, onCondition_fail h]

/-! ### The statements -/

/-- Settles O8: the decoder followed through class, op-code and form; the address by the rule for sign-extended
offsets. -/
theorem offsetFormAddress : Obligations.OffsetFormAddress := by
  refine ⟨fun p w c r hc hk ho hr => ⟨fun hop hd => ?load, fun hop => ?store⟩,
    fun s ra off => ⟨?address, ?least, ?greatest⟩⟩
  case load => rw [decode_dataMovement hc hk, decodeDataMovement_load hop, decodeLoad_offset ho hr hd]
  case store => rw [decode_dataMovement hc hk, decodeDataMovement_store hop, decodeStore_offset ho hr]
  case address => exact toNat_add_signExtend _ off
  case least => exact BitVec.le_toInt off
  case greatest => exact Int.le_of_lt_add_one BitVec.toInt_lt

/-- Settles O10: the fields by the decoder's descent, the execution by the one gate that all instructions share. -/
theorem executedOnlyIfTheConditionIsMet : Obligations.ExecutedOnlyIfTheConditionIsMet :=
  ⟨fun _ _ _ => fields_of_decode_valid, fun _ _ => exec_of_condition_failed⟩

/-- Settles O7: class 01, then op-code 1101, then bit 21. -/
theorem movImmediateFormat : Obligations.MovImmediateFormat := by
  intro p w c hc hk hop hi
  rw [decode_dataProcessing hc hk, decodeDataProcessing_mov hop, decodeMov_immediate hi]

/-- Settles O9: the codes by the decoder's two inverse tables, each condition by its row in the flags. -/
theorem conditionTable : Obligations.ConditionTable := by
  refine ⟨fun k c => Cond.ofCode_eq_some, fun s => ?rows⟩
  simp [State.conditionPassed]

end Sys2Proof.Machine
end

section
/-! SUPPORT. The address register after a completed `load` or `store`, said once of the two bodies that the offset and
the shift form share (40_data_movement.md R103). -/

namespace Sys2Proof.Machine

variable {s t : State} {wb : Bool} {ea : Word} {ra : Reg}

/-- A `load` writes its destination after the write-back, so another destination leaves the address register as the
write-back left it. -/
theorem readReg_address_of_loadFrom {rd : Reg} (ha : ra ≠ .cpsr) (hrd : rd ≠ ra)
    (h : s.loadFrom wb ea ra rd = .next t) : t.readReg ra = if wb then ea else s.readReg ra := by
  obtain ⟨-, -, rfl⟩ := loadFrom_next.mp h
  rw [readReg_writeReg_of_ne _ hrd.symm, readReg_writeBack_self s ha]

/-- What a `store` writes of the state, its memory and the stored-to addresses, is in no register. -/
@[simp] theorem readReg_with_memory (m : Memory) (l : List Nat) (r : Reg) :
    ({ s with mem := m, stored := l } : State).readReg r = s.readReg r :=
  readReg_congr rfl rfl rfl rfl rfl r

/-- The write of a `store` reaches no register, so only its write-back decides the address register. -/
theorem readReg_address_of_storeTo {rs : Reg} (ha : ra ≠ .cpsr) (h : s.storeTo wb ea ra rs = .next t) :
    t.readReg ra = if wb then ea else s.readReg ra := by
  obtain ⟨-, rfl⟩ := storeTo_next.mp h
  rw [readReg_writeBack_self _ ha, readReg_with_memory]

/-- Settles O22: with its condition met each instruction is the shared body at its form's effective address. -/
theorem writeBackOfTheAlteredAddress : Obligations.WriteBackOfTheAlteredAddress := by
  intro s t c wb ra r hc ha
  refine ⟨fun off => ⟨fun h hr => ?loadOff, fun h => ?storeOff⟩,
    fun sh => ⟨fun h hr => ?loadShift, fun h => ?storeShift⟩⟩
  case loadOff => exact readReg_address_of_loadFrom ha hr ((onCondition_pass hc _).symm.trans h)
  case storeOff => exact readReg_address_of_storeTo ha ((onCondition_pass hc _).symm.trans h)
  case loadShift => exact readReg_address_of_loadFrom ha hr ((onCondition_pass hc _).symm.trans h)
  case storeShift => exact readReg_address_of_storeTo ha ((onCondition_pass hc _).symm.trans h)

end Sys2Proof.Machine
end

section
/-! SUPPORT. `return` decoded from its class and op-code, and executed as the jump to LR that changes the PC alone
(42_control_flow.md R163). -/

namespace Sys2Proof

variable {c : Cond} {w : Word}

/-- Class 10, op-code 10: bits 23-0 are the one reserved field (30_encoding.md R87, R92). -/
theorem decodeControlFlow_return (hop : field w 25 24 = 0b10) :
    decodeControlFlow c w = if field w 23 0 = 0 then .valid (.ret c) else .unspecified .nonzeroReservedField := by
  simp only [decodeControlFlow, hop]
  exact ite_not ..

end Sys2Proof

namespace Sys2Proof.Machine

variable {s : State}

/-- A jump writes the PC and nothing else (42_control_flow.md R160, R161). -/
theorem onlyRegisters_jumpTo (a : Word) : OnlyRegisters [.pc] s (s.jumpTo a) where
  registers _ hr := readReg_jumpTo s (List.ne_of_not_mem_cons hr) a
  memory := ⟨fun _ => rfl, fun _ => rfl, rfl⟩
  machine := ⟨rfl, rfl⟩

/-- An instruction whose execution is a jump completes with its target in the PC. -/
theorem completesWithRegister_of_exec_jumpTo {i : Instr} {a : Word} (h : exec i s = .next (s.jumpTo a)) :
    CompletesWithRegister i s .pc a :=
  ⟨s.jumpTo a, h, jumpTo_pc s a, onlyRegisters_jumpTo a⟩

/-- `return` of class 10 with its condition met (42_control_flow.md R163). -/
theorem exec_ret_of_pass {c : Cond} (h : s.conditionPassed c = true) : exec (.ret c) s = .next (s.jumpTo s.lr) :=
  onCondition_pass h _

/-- Settles O42: executed, `return` is a jump to LR; decoded, it has one field left to test after class and
op-code. -/
theorem returnMovesTheLinkRegisterToThePc : Obligations.ReturnMovesTheLinkRegisterToThePc := by
  refine ⟨fun s c hpass => ?effect, fun p w c hc hk hop => ?encoding⟩
  case effect => exact completesWithRegister_of_exec_jumpTo (exec_ret_of_pass hpass)
  case encoding => rw [decode_controlFlow hc hk, decodeControlFlow_return hop]

end Sys2Proof.Machine
end

section
/-! SUPPORT. `pass` decoded from its class and op-code, executed as nothing, and the step that fetches it followed
from the fetch to the advanced state (43_special.md R180). -/

namespace Sys2Proof

variable {p : Params} {c : Cond} {w : Word}

/-- Class 11, op-code 0000: `SPECIAL_RETURN` has no say in it, and bits 21-0 are the one reserved field (30_encoding.md
R88, R92). -/
theorem decodeSpecial_pass (hop : field w 25 22 = 0b0000) :
    decodeSpecial p c w = if field w 21 0 = 0 then .valid (.pass c) else .unspecified .nonzeroReservedField := by
  simp only [decodeSpecial, hop]
  exact ite_not ..

theorem decode_pass (hc : Cond.ofCode (field w 31 28) = some c) (hk : field w 27 26 = 0b11)
    (hop : field w 25 22 = 0b0000) :
    decode p w = if field w 21 0 = 0 then .valid (.pass c) else .unspecified .nonzeroReservedField := by
  rw [decode_special hc hk, decodeSpecial_pass hop]

/-- The canonical word of `pass` has the four fields that `decode_pass` asks for. -/
theorem decode_encode_pass : decode p (encode (.pass c)) = .valid (.pass c) := by
  have hc : Cond.ofCode (field (encode (.pass c)) 31 28) = some c := by
    rw [encode, specialWord_cond, Cond.ofCode_code]
  rw [decode_pass hc (specialWord_class ..) (specialWord_op ..)]
  exact if_pos (specialWord_reserved ..)

end Sys2Proof

namespace Sys2Proof.Machine

variable {s : State}

/-- A body that changes nothing makes the two outcomes of the condition the same (00_scope.md R13, R14). -/
theorem onCondition_next_self (c : Cond) : s.onCondition c (.next s) = .next s :=
  ite_self _

/-- `pass` does nothing, with its condition met or not (43_special.md R180). -/
theorem exec_pass (c : Cond) : exec (.pass c) s = .next s :=
  onCondition_next_self c

/-- A core that is not halted executes the instruction it fetches with the PC already advanced (00_scope.md R13). -/
theorem step_of_fetch_valid {w : Word} {i : Instr} (hrun : s.halted = false) (hf : s.fetch = .ok w)
    (hd : decode s.params w = .valid i) : step s = exec i s.advance := by
  simp [step, State.runWord, hrun, hf, hd]

/-- The sequential advance is a jump to the next word, so it writes the PC and nothing else (10_state.md R27). -/
theorem onlyRegisters_advance : OnlyRegisters [.pc] s s.advance :=
  onlyRegisters_jumpTo _

/-- Settles O47: executed, `pass` is no change, so the step that fetches it ends in the advanced state; decoded, it has
one field left to test after class and op-code. -/
theorem passDoesNothing : Obligations.PassDoesNothing := by
  refine ⟨fun s c => exec_pass c, fun s c hrun hf => ?step, fun p w c => decode_pass⟩
  have hstep : step s = .next s.advance :=
    (step_of_fetch_valid hrun hf decode_encode_pass).trans (exec_pass c)
  exact ⟨s.advance, hstep, advance_pc s, onlyRegisters_advance⟩

end Sys2Proof.Machine
end

section
/-! SUPPORT. Where a fault can come from: no instruction, and of the steps only the one that fetches an invalid word
with its condition met (60_exceptions.md R190, R196). -/

namespace Sys2Proof.Machine

variable {s t : State} {f : Fault}

/-! ### No instruction faults -/

theorem next_ne_fault : (.next t : Outcome) ≠ .fault f := nofun

theorem onCondition_no_fault {c : Cond} {o : Outcome} (h : o ≠ .fault f) : s.onCondition c o ≠ .fault f := by
  cases hc : s.conditionPassed c
  · rw [onCondition_fail hc]; exact next_ne_fault
  · rwa [onCondition_pass hc]

/-- Only the bodies of `load` and `store` can stop at all, and they stop with a refusal; every other body completes. -/
theorem exec_no_fault (i : Instr) : exec i s ≠ .fault f := by
  cases i with
  | loadOff | loadShift => exact onCondition_no_fault (loadFrom_no_fault f)
  | storeOff | storeShift => exact onCondition_no_fault (storeTo_no_fault f)
  | _ => exact onCondition_no_fault next_ne_fault

/-! ### The fault of a step -/

/-- The sequential advance leaves the flags, so it does not matter to a condition (10_state.md R27). -/
@[simp] theorem advance_conditionPassed (c : Cond) : s.advance.conditionPassed c = s.conditionPassed c := rfl

/-- Of the outcomes a fetched word has, the fault is that of the invalid word with its condition met
(60_exceptions.md R196 (3) to (6)). -/
theorem runWord_eq_fault {a w : Word} : s.runWord a w = .fault f ↔
    ∃ c, decode s.params w = .invalid c ∧ s.conditionPassed c = true ∧ .invalidInstruction a w s = f := by
  unfold State.runWord
  cases decode s.params w with
  | valid i => simp [exec_no_fault]
  | unspecified why => simp
  | invalid c => cases hc : s.conditionPassed c <;> simp [hc, raiseInvalidInstruction]

/-- Everything a step can do when it faults (60_exceptions.md R190, R193). -/
theorem step_eq_fault : step s = .fault f ↔
    s.halted = false ∧ ∃ w c, s.fetch = .ok w ∧ decode s.params w = .invalid c ∧ s.conditionPassed c = true ∧
      .invalidInstruction s.pc w s.advance = f := by
  unfold step
  cases s.halted with
  | true => simp
  | false => cases s.fetch <;> simp [runWord_eq_fault]

/-- Settles O14: the two directions of `step_eq_fault`, whose fault holds the advanced state. -/
theorem onlyInvalidWordsRaiseTheInterrupt : Obligations.OnlyInvalidWordsRaiseTheInterrupt := by
  refine ⟨fun s f hfault => ?raised, fun s w c hrun hfetch hdecode hcond => ?raises⟩
  case raised =>
    obtain ⟨hrun, w, c, hfetch, hdecode, hcond, rfl⟩ := step_eq_fault.mp hfault
    exact ⟨hrun, w, c, s.advance, hfetch, hdecode, hcond, rfl⟩
  case raises =>
    exact ⟨s.advance, step_eq_fault.mpr ⟨hrun, w, c, hfetch, hdecode, hcond, rfl⟩⟩

end Sys2Proof.Machine
end

section
/-! SUPPORT. The fields of a word with some bits cleared, and every format put together again from its fields
(30_encoding.md R75 to R88). -/

namespace Sys2Proof

variable {w m : Word}

/-! ### The fields of a word with some bits cleared -/

theorem field_clear (w m : Word) (hi lo : Nat) :
    field (w &&& ~~~m) hi lo = field w hi lo &&& ~~~field m hi lo := by
  apply BitVec.eq_of_getLsbD_eq
  intro i hi
  have hw : w.getLsbD (lo + i) = true → lo + i < 32 := BitVec.lt_of_getLsbD
  simp only [field, BitVec.getLsbD_and, BitVec.getLsbD_not, BitVec.getLsbD_extractLsb', hi, decide_true, Bool.true_and]
  grind

theorem bit_clear (w m : Word) (k : Nat) : bit (w &&& ~~~m) k = (bit w k && !bit m k) := by
  have hw : w.getLsbD k = true → k < 32 := BitVec.lt_of_getLsbD
  simp only [bit, BitVec.getLsbD_and, BitVec.getLsbD_not]
  grind

/-- A field that the cleared bits miss is kept. -/
theorem field_clear_of_zero {hi lo : Nat} (hm : field m hi lo = 0) :
    field (w &&& ~~~m) hi lo = field w hi lo := by
  rw [field_clear, hm]; simp

/-- A field that the cleared bits fill becomes zero. -/
theorem field_clear_of_allOnes {hi lo : Nat} (hm : field m hi lo = BitVec.allOnes _) :
    field (w &&& ~~~m) hi lo = 0 := by
  rw [field_clear, hm]; simp

/-! ### A word is the concatenation of its fields -/

theorem toNat_bit (w : Word) (k : Nat) : (bit w k).toNat = w.toNat / 2 ^ k % 2 := by
  rw [bit, BitVec.getLsbD, Nat.toNat_testBit]

theorem eq_iff_toNat {n : Nat} {x y : BitVec n} : x = y ↔ x.toNat = y.toNat := BitVec.toNat_inj.symm

theorem bit_iff_toNat {k : Nat} {b : Bool} : bit w k = b ↔ (bit w k).toNat = b.toNat :=
  ⟨congrArg _, fun h => by cases hb : bit w k <;> cases b <;> simp_all⟩

theorem eq_movementOffsetWord (hk : field w 27 26 = 0b00) (ho : bit w 23 = true) :
    w = movementOffsetWord (field w 31 28) (field w 25 24) (bit w 22) (field w 21 9) (field w 8 5) (field w 4 0) := by
  simp only [eq_iff_toNat, bit_iff_toNat, toNat_field, toNat_bit, movementOffsetWord, toNat_cat,
    BitVec.toNat_ofBool, BitVec.ofNat_eq_ofNat, BitVec.toNat_ofNat, Bool.toNat_true] at *
  omega

theorem eq_movementShiftWord (hk : field w 27 26 = 0b00) (ho : bit w 23 = false) (hz : field w 21 17 = 0) :
    w = movementShiftWord (field w 31 28) (field w 25 24) (bit w 22) (field w 16 15) (field w 14 9) (field w 8 5)
      (field w 4 0) := by
  simp only [eq_iff_toNat, bit_iff_toNat, toNat_field, toNat_bit, movementShiftWord, toNat_cat,
    BitVec.toNat_ofBool, BitVec.ofNat_eq_ofNat, BitVec.toNat_ofNat, Bool.toNat_false] at *
  omega

theorem eq_commonWord (hk : field w 27 26 = 0b01) :
    w = commonWord (field w 31 28) (field w 25 22) (bit w 21) (field w 20 19) (field w 18 13) (field w 12 8)
      (field w 7 4) (field w 3 0) := by
  simp only [eq_iff_toNat, toNat_field, toNat_bit, commonWord, toNat_cat, BitVec.toNat_ofBool,
    BitVec.ofNat_eq_ofNat, BitVec.toNat_ofNat] at *
  omega

theorem eq_movImmWord (hk : field w 27 26 = 0b01) (hop : field w 25 22 = 0b1101) (hi : bit w 21 = true) :
    w = movImmWord (field w 31 28) (bit w 20) (field w 19 4) (field w 3 0) := by
  simp only [eq_iff_toNat, bit_iff_toNat, toNat_field, toNat_bit, movImmWord, toNat_cat, BitVec.toNat_ofBool,
    BitVec.ofNat_eq_ofNat, BitVec.toNat_ofNat, Bool.toNat_true] at *
  omega

theorem eq_movRegWord (hk : field w 27 26 = 0b01) (hop : field w 25 22 = 0b1101) (hi : bit w 21 = false)
    (hz : field w 12 10 = 0) :
    w = movRegWord (field w 31 28) (field w 20 19) (field w 18 13) (field w 9 5) (field w 4 0) := by
  simp only [eq_iff_toNat, bit_iff_toNat, toNat_field, toNat_bit, movRegWord, toNat_cat, BitVec.ofNat_eq_ofNat,
    BitVec.toNat_ofNat, Bool.toNat_false] at *
  omega

theorem eq_jumpImmWord (hk : field w 27 26 = 0b10) (hi : bit w 23 = true) :
    w = jumpImmWord (field w 31 28) (field w 25 24) (field w 22 0) := by
  simp only [eq_iff_toNat, bit_iff_toNat, toNat_field, toNat_bit, jumpImmWord, toNat_cat,
    BitVec.ofNat_eq_ofNat, BitVec.toNat_ofNat, Bool.toNat_true] at *
  omega

theorem eq_jumpRegWord (hk : field w 27 26 = 0b10) (hi : bit w 23 = false) (hz : field w 21 4 = 0) :
    w = jumpRegWord (field w 31 28) (field w 25 24) (bit w 22) (field w 3 0) := by
  simp only [eq_iff_toNat, bit_iff_toNat, toNat_field, toNat_bit, jumpRegWord, toNat_cat, BitVec.toNat_ofBool,
    BitVec.ofNat_eq_ofNat, BitVec.toNat_ofNat, Bool.toNat_false] at *
  omega

theorem eq_returnWord (hk : field w 27 26 = 0b10) (hop : field w 25 24 = 0b10) (hz : field w 23 0 = 0) :
    w = returnWord (field w 31 28) := by
  simp only [eq_iff_toNat, toNat_field, returnWord, toNat_cat, BitVec.ofNat_eq_ofNat, BitVec.toNat_ofNat] at *
  omega

theorem eq_specialWord (hk : field w 27 26 = 0b11) (hz : field w 21 0 = 0) :
    w = specialWord (field w 31 28) (field w 25 22) := by
  simp only [eq_iff_toNat, toNat_field, specialWord, toNat_cat, BitVec.ofNat_eq_ofNat, BitVec.toNat_ofNat] at *
  omega

end Sys2Proof
end

section
/-! SUPPORT. What the decoder answers, encoded again: each leaf of the decoder is well formed, and the word it came from
is its canonical word up to the ignored bits (30_encoding.md R90, R93). -/

namespace Sys2Proof

open Machine (ignoredBits)

variable {p : Params} {c : Cond} {w m : Word}

/-! ### The ignored bits of class 01 (R93) -/

/-- Bit 12 beside a register as operand 1 (30_encoding.md R93 (a)). -/
def op1Ignored (a : Op1) : Word :=
  match a with
  | .imm _ => 0
  | .reg _ => 0x00001000

/-- What a comparing instruction ignores: bit 12 again, the method, the amount and the destination (30_encoding.md
R93 (b), (c)). -/
def compareIgnored (a : Op1) : Word :=
  match a with
  | .imm _ => 0x001FE00F
  | .reg _ => 0x001FF00F

/-- Bits 12-8 as the encoder writes them for the operand that the decoder reads from them (30_encoding.md R81). -/
theorem field_clear_eq_op1Code (h0 : ∀ k, operand1 w = .imm k → field m 12 8 = 0)
    (h1 : ∀ r, operand1 w = .reg r → field m 12 8 = 0b10000) :
    field (w &&& ~~~m) 12 8 = (operand1 w).code := by
  unfold operand1 at *
  cases hb : bit w 21 with
  | true => rw [field_clear_of_zero (h0 (field w 12 8) (by simp [hb]))]; rfl
  | false =>
    rw [field_clear, h1 (Reg.ofCode4 (field w 11 8)) (by simp [hb])]
    have split : field w 11 8 = (field w 12 8).setWidth 4 := by
      apply field_eq; rw [BitVec.toNat_setWidth, toNat_field]; simp only [Nat.reduceSub, Nat.reduceAdd]; omega
    simp only [Bool.false_eq_true, if_false, Op1.code, Reg.code4_ofCode4, split]
    generalize field w 12 8 = k
    revert k; decide

@[simp] theorem operand1_isImm : (operand1 w).isImm = bit w 21 := by
  unfold operand1; cases bit w 21 <;> rfl

@[simp] theorem operand1_wf : (operand1 w).wf = true := by
  unfold operand1; split <;> simp [Op1.wf]

theorem clear_eq_encodeCommon {op : BitVec 4} (hc : field w 31 28 = c.code) (hk : field w 27 26 = 0b01)
    (hop : field w 25 22 = op) :
    w &&& ~~~op1Ignored (operand1 w) =
      encodeCommon c op (operand1 w) (.ofCode4 (field w 7 4)) (resultShift w) (.ofCode4 (field w 3 0)) := by
  have h12 : field (w &&& ~~~op1Ignored (operand1 w)) 12 8 = (operand1 w).code :=
    field_clear_eq_op1Code (fun k h => by rw [h, op1Ignored]; rfl) (fun r h => by rw [h, op1Ignored]; rfl)
  have kept {hi lo : Nat} (h0 : field 0 hi lo = 0) (h1 : field 0x00001000 hi lo = 0) :
      field (w &&& ~~~op1Ignored (operand1 w)) hi lo = field w hi lo :=
    field_clear_of_zero (by cases operand1 w; exacts [h0, h1])
  have h21 : bit (w &&& ~~~op1Ignored (operand1 w)) 21 = bit w 21 := by
    rw [bit_clear]; cases operand1 w <;> simp [op1Ignored, bit]
  rw [eq_commonWord (w := w &&& ~~~_) (by rw [kept rfl rfl, hk]), h12, h21, kept rfl rfl, kept rfl rfl,
    kept rfl rfl, kept rfl rfl, kept rfl rfl, kept rfl rfl, hc, hop]
  simp [encodeCommon, resultShift]

theorem clear_eq_encodeCompare {op : BitVec 4} (hc : field w 31 28 = c.code) (hk : field w 27 26 = 0b01)
    (hop : field w 25 22 = op) :
    w &&& ~~~compareIgnored (operand1 w) = encodeCompare c op (operand1 w) (.ofCode4 (field w 7 4)) := by
  have h12 : field (w &&& ~~~compareIgnored (operand1 w)) 12 8 = (operand1 w).code :=
    field_clear_eq_op1Code (fun k h => by rw [h, compareIgnored]; rfl) (fun r h => by rw [h, compareIgnored]; rfl)
  have kept {hi lo : Nat} (h0 : field 0x001FE00F hi lo = 0) (h1 : field 0x001FF00F hi lo = 0) :
      field (w &&& ~~~compareIgnored (operand1 w)) hi lo = field w hi lo :=
    field_clear_of_zero (by cases operand1 w; exacts [h0, h1])
  have cleared {hi lo : Nat} (h0 : field 0x001FE00F hi lo = BitVec.allOnes _)
      (h1 : field 0x001FF00F hi lo = BitVec.allOnes _) :
      field (w &&& ~~~compareIgnored (operand1 w)) hi lo = 0 :=
    field_clear_of_allOnes (by cases operand1 w; exacts [h0, h1])
  have h21 : bit (w &&& ~~~compareIgnored (operand1 w)) 21 = bit w 21 := by
    rw [bit_clear]; cases operand1 w <;> simp [compareIgnored, bit]
  rw [eq_commonWord (w := w &&& ~~~_) (by rw [kept rfl rfl, hk]), h12, h21, kept rfl rfl, kept rfl rfl,
    cleared rfl rfl, cleared rfl rfl, kept rfl rfl, cleared rfl rfl, hc, hop]
  simp [encodeCompare]

/-- `MVN` ignores the whole of operand 1 with its enable bit (30_encoding.md R93 (d)). -/
theorem clear_eq_encode_mvn (hc : field w 31 28 = c.code) (hk : field w 27 26 = 0b01) (hop : field w 25 22 = 0b1111) :
    w &&& ~~~0x00201F00 = encode (.mvn c (.ofCode4 (field w 7 4)) (resultShift w) (.ofCode4 (field w 3 0))) := by
  have kept {hi lo : Nat} (h : field 0x00201F00 hi lo = 0) : field (w &&& ~~~0x00201F00) hi lo = field w hi lo :=
    field_clear_of_zero h
  have h21 : bit (w &&& ~~~0x00201F00) 21 = false := by simp [bit]
  rw [eq_commonWord (w := w &&& ~~~_) (by rw [kept rfl, hk]), h21, kept rfl, kept rfl, kept rfl, kept rfl,
    field_clear_of_allOnes (hi := 12) (lo := 8) rfl, kept rfl, kept rfl, hc, hop]
  simp [encode, resultShift]

/-! ### What the decoder answers, encoded again -/

/-- If `d` is an instruction, it is well formed and `w` is its canonical word up to its ignored bits. -/
def Decoded.EncodesTo (p : Params) (w : Word) (d : Decoded) : Prop :=
  ∀ i, d = .valid i → i.wf p = true ∧ w &&& ~~~ignoredBits i = encode i

@[simp] theorem encodesTo_valid {i : Instr} :
    (Decoded.valid i).EncodesTo p w ↔ i.wf p = true ∧ w &&& ~~~ignoredBits i = encode i := by
  simp [Decoded.EncodesTo]

@[simp] theorem encodesTo_invalid (e : Cond) : (Decoded.invalid e).EncodesTo p w := by
  simp [Decoded.EncodesTo]

@[simp] theorem encodesTo_unspecified (why : EncodingReason) : (Decoded.unspecified why).EncodesTo p w := by
  simp [Decoded.EncodesTo]

theorem Reg.fourBit_of_ne_cpsr {r : Reg} (h : r ≠ .cpsr) : r.fourBit = true := by
  cases r with
  | cpsr => exact absurd rfl h
  | _ => rfl

theorem clear_of_no_ignoredBits {i : Instr} (hi : ignoredBits i = 0) : w &&& ~~~ignoredBits i = w := by
  rw [hi]
  exact BitVec.and_allOnes

/-- An instruction without ignored bits has the word itself to encode to. -/
theorem encodesTo_of_eq {i : Instr} (hwf : i.wf p = true) (hi : ignoredBits i = 0) (hw : w = encode i) :
    (Decoded.valid i).EncodesTo p w :=
  encodesTo_valid.mpr ⟨hwf, (clear_of_no_ignoredBits hi).trans hw⟩

theorem decodeLoad_encodesTo (hc : field w 31 28 = c.code) (hk : field w 27 26 = 0b00) (hop : field w 25 24 = 0b00) :
    (decodeLoad c w).EncodesTo p w := by
  unfold decodeLoad
  split
  · exact encodesTo_unspecified _
  rename_i hz
  split
  · exact encodesTo_unspecified _
  rename_i rd hr
  split
  · exact encodesTo_unspecified _
  rename_i hrd
  split
  · rename_i ho
    refine encodesTo_of_eq (by simp [Instr.wf, Reg.fourBit_of_ne_cpsr hrd]) rfl ((eq_movementOffsetWord hk ho).trans ?_)
    simp [encode, hc, hop, Reg.code5_ofCode5 hr]
  · rename_i ho
    rw [Bool.not_eq_true] at ho
    refine encodesTo_of_eq (by simp [Instr.wf, Reg.fourBit_of_ne_cpsr hrd]) rfl
      ((eq_movementShiftWord hk ho (not_not.mp fun h => hz ⟨ho, h⟩)).trans ?_)
    simp [encode, addressShift, hc, hop, Reg.code5_ofCode5 hr]

theorem decodeStore_encodesTo (hc : field w 31 28 = c.code) (hk : field w 27 26 = 0b00) (hop : field w 25 24 = 0b01) :
    (decodeStore c w).EncodesTo p w := by
  unfold decodeStore
  split
  · exact encodesTo_unspecified _
  rename_i hz
  split
  · exact encodesTo_unspecified _
  rename_i rs hr
  split
  · rename_i ho
    refine encodesTo_of_eq (by simp [Instr.wf]) rfl ((eq_movementOffsetWord hk ho).trans ?_)
    simp [encode, hc, hop, Reg.code5_ofCode5 hr]
  · rename_i ho
    rw [Bool.not_eq_true] at ho
    refine encodesTo_of_eq (by simp [Instr.wf]) rfl
      ((eq_movementShiftWord hk ho (not_not.mp fun h => hz ⟨ho, h⟩)).trans ?_)
    simp [encode, addressShift, hc, hop, Reg.code5_ofCode5 hr]

/-- A field whose number is `n` is the bit vector of `n`. -/
theorem field_of_toNat {hi lo n : Nat} (h : (field w hi lo).toNat = n) : field w hi lo = BitVec.ofNat _ n := by
  rw [← h, BitVec.ofNat_toNat, BitVec.setWidth_eq]

theorem decodeDataMovement_encodesTo (hc : field w 31 28 = c.code) (hk : field w 27 26 = 0b00) :
    (decodeDataMovement c w).EncodesTo p w := by
  unfold decodeDataMovement
  split
  next hop => exact decodeLoad_encodesTo hc hk (field_of_toNat hop)
  next hop => exact decodeStore_encodesTo hc hk (field_of_toNat hop)
  next => exact encodesTo_invalid c

theorem decodeMov_encodesTo (hc : field w 31 28 = c.code) (hk : field w 27 26 = 0b01) (hop : field w 25 22 = 0b1101) :
    (decodeMov c w).EncodesTo p w := by
  unfold decodeMov
  split
  · rename_i hi
    refine encodesTo_of_eq (by simp [Instr.wf]) rfl ((eq_movImmWord hk hop hi).trans ?_)
    simp [encode, hc]
  rename_i hi
  split
  · exact encodesTo_unspecified _
  rename_i hz
  split
  · rename_i rs rd hrs hrd
    refine encodesTo_of_eq rfl rfl ((eq_movRegWord hk hop (Bool.not_eq_true _ ▸ hi) (not_not.mp hz)).trans ?_)
    simp [encode, resultShift, hc, Reg.code5_ofCode5 hrs, Reg.code5_ofCode5 hrd]
  · exact encodesTo_unspecified _

theorem decodeDataProcessing_encodesTo (hc : field w 31 28 = c.code) (hk : field w 27 26 = 0b01) :
    (decodeDataProcessing c w).EncodesTo p w := by
  have common {op : BitVec 4} {i : Instr} (hop : field w 25 22 = op) (hwf : i.wf p = true)
      (hi : ignoredBits i = op1Ignored (operand1 w))
      (he : encode i =
        encodeCommon c op (operand1 w) (.ofCode4 (field w 7 4)) (resultShift w) (.ofCode4 (field w 3 0))) :
      (Decoded.valid i).EncodesTo p w := by
    rw [encodesTo_valid, hi, he]
    exact ⟨hwf, clear_eq_encodeCommon hc hk hop⟩
  have compare {op : BitVec 4} {i : Instr} (hop : field w 25 22 = op) (hwf : i.wf p = true)
      (hi : ignoredBits i = compareIgnored (operand1 w))
      (he : encode i = encodeCompare c op (operand1 w) (.ofCode4 (field w 7 4))) :
      (Decoded.valid i).EncodesTo p w := by
    rw [encodesTo_valid, hi, he]
    exact ⟨hwf, clear_eq_encodeCompare hc hk hop⟩
  unfold decodeDataProcessing
  split
  case h_9 hop | h_10 hop | h_11 hop | h_12 hop =>
    exact compare (field_of_toNat hop) (by simp [Instr.wf]) (by cases operand1 w <;> rfl) rfl
  case h_14 hop => exact decodeMov_encodesTo hc hk (field_of_toNat hop)
  case h_16 =>
    have hop : field w 25 22 = 0b1111 := field_of_toNat (n := 15) (by have := (field w 25 22).isLt; grind only)
    exact encodesTo_valid.mpr ⟨by simp [Instr.wf], clear_eq_encode_mvn hc hk hop⟩
  all_goals
    rename_i hop
    exact common (field_of_toNat hop) (by simp [Instr.wf]) (by cases operand1 w <;> rfl) rfl

theorem decodeJump_encodesTo (link : Bool) (hc : field w 31 28 = c.code) (hk : field w 27 26 = 0b10)
    (hop : field w 25 24 = if link then 0b01 else 0b00) : (decodeJump link c w).EncodesTo p w := by
  unfold decodeJump
  split
  · rename_i hi
    cases link <;> refine encodesTo_of_eq rfl rfl ((eq_jumpImmWord hk hi).trans ?_) <;> simp [encode, hc, hop]
  rename_i hi
  rw [Bool.not_eq_true] at hi
  split
  · exact encodesTo_unspecified _
  rename_i hz
  have hw := eq_jumpRegWord hk hi (not_not.mp hz)
  split
  · rename_i ho
    cases link <;> refine encodesTo_of_eq (by simp [Instr.wf]) rfl (hw.trans ?_) <;> simp [encode, hc, hop, ho]
  · rename_i ho
    cases link <;> refine encodesTo_of_eq (by simp [Instr.wf]) rfl (hw.trans ?_) <;> simp [encode, hc, hop, ho]

theorem decodeControlFlow_encodesTo (hc : field w 31 28 = c.code) (hk : field w 27 26 = 0b10) :
    (decodeControlFlow c w).EncodesTo p w := by
  unfold decodeControlFlow
  split
  next hop => exact decodeJump_encodesTo false hc hk (field_of_toNat hop)
  next hop => exact decodeJump_encodesTo true hc hk (field_of_toNat hop)
  next hop =>
    split
    · exact encodesTo_unspecified _
    · rename_i hz
      refine encodesTo_of_eq rfl rfl ((eq_returnWord hk (field_of_toNat hop) (not_not.mp hz)).trans ?_)
      simp [encode, hc]
  next => exact encodesTo_invalid c

theorem decodeSpecial_encodesTo (hc : field w 31 28 = c.code) (hk : field w 27 26 = 0b11) :
    (decodeSpecial p c w).EncodesTo p w := by
  simp only [decodeSpecial]
  split
  · exact encodesTo_invalid c
  split
  · exact encodesTo_invalid c
  rename_i hop hp
  split
  · exact encodesTo_unspecified _
  rename_i hz
  have hw := eq_specialWord hk (not_not.mp hz)
  split
  next hop => exact encodesTo_of_eq rfl rfl (hw.trans (by simp [encode, hc, field_of_toNat hop]))
  next hop => exact encodesTo_of_eq rfl rfl (hw.trans (by simp [encode, hc, field_of_toNat hop]))
  next h0 h1 =>
    have hop : (field w 25 22).toNat = 2 := by grind only
    refine encodesTo_of_eq ?_ rfl (hw.trans (by simp [encode, hc, field_of_toNat hop]))
    cases hs : p.specialReturn
    · simp [Instr.wf, hs]
    · exact absurd ⟨hop, hs⟩ hp

theorem class_cases (k : BitVec 2) : k = 0b00 ∨ k = 0b01 ∨ k = 0b10 ∨ k = 0b11 := by
  revert k; decide

/-- What a word decodes to is well formed, and the word is its canonical word up to the ignored bits. -/
theorem decode_encodesTo : (decode p w).EncodesTo p w := by
  cases hc : Cond.ofCode (field w 31 28) with
  | none => rw [decode_of_no_condition hc]; exact encodesTo_unspecified _
  | some c =>
    have hcode := (Cond.code_ofCode hc).symm
    rcases class_cases (field w 27 26) with hk | hk | hk | hk
    · rw [decode_dataMovement hc hk]; exact decodeDataMovement_encodesTo hcode hk
    · rw [decode_dataProcessing hc hk]; exact decodeDataProcessing_encodesTo hcode hk
    · rw [decode_controlFlow hc hk]; exact decodeControlFlow_encodesTo hcode hk
    · rw [decode_special hc hk]; exact decodeSpecial_encodesTo hcode hk

end Sys2Proof
end

section
/-! SUPPORT. A word that is canonical up to its ignored bits, decoded; the three statements on the decoder and the
encoder together (30_encoding.md R90, R93). -/

namespace Sys2Proof

open Machine (ignoredBits)

variable {p : Params} {c : Cond} {w v m : Word}

/-! ### Fields that the cleared bits miss -/

theorem field_of_clear_eq {hi lo : Nat} (h : w &&& ~~~m = v) (hm : field m hi lo = 0) :
    field w hi lo = field v hi lo :=
  h ▸ (field_clear_of_zero hm).symm

/-- Operand 1 survives the clearing of bits that miss its enable bit, its register and, if it is a number, bit 12. -/
theorem operand1_of_clear_eq (h : w &&& ~~~m = v) (h21 : bit m 21 = false) (h8 : field m 11 8 = 0)
    (h12 : bit v 21 = true → field m 12 8 = 0) : operand1 w = operand1 v := by
  have hb : bit w 21 = bit v 21 := by rw [← h, bit_clear, h21]; simp
  unfold operand1
  rw [hb]
  split
  · rename_i hi; rw [field_of_clear_eq h (h12 hi)]
  · rw [field_of_clear_eq h h8]

/-- A word of op-code `op` of class 01 is decoded by that op-code's row, with these three operands (30_encoding.md R79
to R81). -/
structure DecodesInRow (p : Params) (w : Word) (c : Cond) (op : BitVec 4) (a : Op1) (rm : Reg) : Prop where
  decode_eq : decode p w = decodeDataProcessing c w
  opcode : field w 25 22 = op
  operand1_eq : operand1 w = a
  operand2_eq : Reg.ofCode4 (field w 7 4) = rm

theorem decodesInRow_of_clear_eq {op : BitVec 4} {f : BitVec 2} {n : BitVec 6} {a : Op1} {rm : Reg} {rd : BitVec 4}
    (ha : a.wf = true) (hrm : rm.fourBit = true)
    (h : w &&& ~~~m = commonWord c.code op a.isImm f n a.code rm.code4 rd)
    (hm : field m 31 28 = 0 ∧ field m 27 26 = 0 ∧ field m 25 22 = 0 ∧ field m 7 4 = 0)
    (h1 : bit m 21 = false ∧ field m 11 8 = 0 ∧ (a.isImm = true → field m 12 8 = 0)) :
    DecodesInRow p w c op a rm := by
  obtain ⟨h31, h27, h25, h7⟩ := hm
  obtain ⟨h21, h8, h12⟩ := h1
  constructor
  · exact decode_dataProcessing (by rw [field_of_clear_eq h h31]; simp) (by rw [field_of_clear_eq h h27]; simp)
  · rw [field_of_clear_eq h h25]; simp
  · rw [operand1_of_clear_eq h h21 h8 (by simpa using h12)]
    exact operand1_of_fields ha (by simp) (by simp) (by simp)
  · rw [field_of_clear_eq h h7]; simp [hrm]

theorem decodesInRow_of_encodeCommon {op : BitVec 4} {a : Op1} {rm rd : Reg} {sh : Shift}
    (ha : a.wf = true) (hrm : rm.fourBit = true) (hrd : rd.fourBit = true)
    (h : w &&& ~~~op1Ignored a = encodeCommon c op a rm sh rd) :
    DecodesInRow p w c op a rm ∧ resultShift w = sh ∧ Reg.ofCode4 (field w 3 0) = rd := by
  have clear {hi lo : Nat} (h1 : field 0x00001000 hi lo = 0) (h0 : field 0 hi lo = 0) :
      field (op1Ignored a) hi lo = 0 := by cases a; exacts [h0, h1]
  refine ⟨decodesInRow_of_clear_eq ha hrm h ⟨clear rfl rfl, clear rfl rfl, clear rfl rfl, clear rfl rfl⟩
    ⟨by cases a <;> simp [op1Ignored, bit], clear rfl rfl, ?_⟩, ?_, ?_⟩
  · cases a with
    | imm k => rw [op1Ignored]; exact fun _ => rfl
    | reg r => exact nofun
  · unfold resultShift
    rw [field_of_clear_eq h (clear rfl rfl), field_of_clear_eq h (clear rfl rfl)]
    simp [encodeCommon]
  · rw [field_of_clear_eq h (clear rfl rfl)]
    simp [encodeCommon, hrd]

theorem decodesInRow_of_encodeCompare {op : BitVec 4} {a : Op1} {rm : Reg} (ha : a.wf = true) (hrm : rm.fourBit = true)
    (h : w &&& ~~~compareIgnored a = encodeCompare c op a rm) : DecodesInRow p w c op a rm := by
  have clear {hi lo : Nat} (h1 : field 0x001FF00F hi lo = 0) (h0 : field 0x001FE00F hi lo = 0) :
      field (compareIgnored a) hi lo = 0 := by cases a; exacts [h0, h1]
  refine decodesInRow_of_clear_eq ha hrm h ⟨clear rfl rfl, clear rfl rfl, clear rfl rfl, clear rfl rfl⟩
    ⟨by cases a <;> simp [compareIgnored, bit], clear rfl rfl, ?_⟩
  cases a with
  | imm k => rw [compareIgnored]; exact fun _ => rfl
  | reg r => exact nofun

/-- `MVN` reads neither operand 1 nor its enable bit (30_encoding.md R93 (d)). -/
theorem decode_of_clear_eq_encode_mvn {rm rd : Reg} {sh : Shift} (hrm : rm.fourBit = true) (hrd : rd.fourBit = true)
    (h : w &&& ~~~0x00201F00 = encode (.mvn c rm sh rd)) : decode p w = .valid (.mvn c rm sh rd) := by
  rw [decode_dataProcessing (c := c) (by rw [field_of_clear_eq h rfl]; simp [encode])
    (by rw [field_of_clear_eq h rfl]; simp [encode])]
  simp only [decodeDataProcessing, resultShift, field_of_clear_eq h (hi := 25) (lo := 22) rfl,
    field_of_clear_eq h (hi := 20) (lo := 19) rfl, field_of_clear_eq h (hi := 18) (lo := 13) rfl,
    field_of_clear_eq h (hi := 7) (lo := 4) rfl, field_of_clear_eq h (hi := 3) (lo := 0) rfl]
  simp [encode, hrm, hrd]

/-- The row of an op-code that writes a result, given as what it makes of the four operands. -/
theorem decode_writingRow {op : BitVec 4} {a : Op1} {rm rd : Reg} {sh : Shift} {mk : Op1 → Reg → Shift → Reg → Instr}
    (hwf : (a.wf && rm.fourBit && rd.fourBit) = true) (h : w &&& ~~~op1Ignored a = encodeCommon c op a rm sh rd)
    (hrow : field w 25 22 = op → decodeDataProcessing c w =
      .valid (mk (operand1 w) (.ofCode4 (field w 7 4)) (resultShift w) (.ofCode4 (field w 3 0)))) :
    decode p w = .valid (mk a rm sh rd) := by
  simp only [Bool.and_eq_true] at hwf
  obtain ⟨⟨ha, hrm⟩, hrd⟩ := hwf
  obtain ⟨⟨hdec, hop, ha, hrm⟩, hsh, hrd⟩ := decodesInRow_of_encodeCommon (p := p) ha hrm hrd h
  rw [hdec, hrow hop, ha, hrm, hsh, hrd]

/-- The row of an op-code that compares, given as what it makes of the two operands. -/
theorem decode_comparingRow {op : BitVec 4} {a : Op1} {rm : Reg} {mk : Op1 → Reg → Instr}
    (hwf : (a.wf && rm.fourBit) = true) (h : w &&& ~~~compareIgnored a = encodeCompare c op a rm)
    (hrow : field w 25 22 = op → decodeDataProcessing c w = .valid (mk (operand1 w) (.ofCode4 (field w 7 4)))) :
    decode p w = .valid (mk a rm) := by
  simp only [Bool.and_eq_true] at hwf
  obtain ⟨hdec, hop, ha, hrm⟩ := decodesInRow_of_encodeCompare (p := p) hwf.1 hwf.2 h
  rw [hdec, hrow hop, ha, hrm]

theorem eq_encode_of_no_ignoredBits {i : Instr} (hi : ignoredBits i = 0) (h : w &&& ~~~ignoredBits i = encode i) :
    w = encode i :=
  (clear_of_no_ignoredBits hi).symm.trans h

/-- The decoder reads every bit that is not ignored as the encoder writes it. -/
theorem decode_of_clear_eq_encode {i : Instr} (hwf : i.wf p = true) (h : w &&& ~~~ignoredBits i = encode i) :
    decode p w = .valid i := by
  cases i with
  | and c a rm sh rd | eor c a rm sh rd | sub c a rm sh rd | rsb c a rm sh rd | add c a rm sh rd | adc c a rm sh rd
  | sbc c a rm sh rd | rsc c a rm sh rd | orr c a rm sh rd | bic c a rm sh rd =>
    exact decode_writingRow hwf (by cases a <;> exact h) fun hop => by simp only [decodeDataProcessing, hop]; rfl
  | tst c a rm | teq c a rm | cmp c a rm | cmn c a rm =>
    exact decode_comparingRow hwf (by cases a <;> exact h) fun hop => by simp only [decodeDataProcessing, hop]; rfl
  | mvn c rm sh rd =>
    simp only [Instr.wf, Bool.and_eq_true] at hwf
    exact decode_of_clear_eq_encode_mvn hwf.1 hwf.2 h
  | loadOff c wb off ra rd | loadShift c wb sh ra rd =>
    simp only [Instr.wf, Bool.and_eq_true] at hwf
    rw [eq_encode_of_no_ignoredBits rfl h]
    simp [decode, encode, decodeDataMovement, decodeLoad, addressShift, hwf, Machine.ne_cpsr_of_fourBit hwf.2]
  | storeOff c wb off ra rs | storeShift c wb sh ra rs =>
    simp only [Instr.wf] at hwf
    rw [eq_encode_of_no_ignoredBits rfl h]
    simp [decode, encode, decodeDataMovement, decodeStore, addressShift, hwf]
  | movImm c high imm rd =>
    simp only [Instr.wf] at hwf
    rw [eq_encode_of_no_ignoredBits rfl h]
    simp [decode, encode, decodeDataProcessing, decodeMov, hwf]
  | movReg c sh rs rd =>
    rw [eq_encode_of_no_ignoredBits rfl h]
    simp [decode, encode, decodeDataProcessing, decodeMov, resultShift]
  | jumpImm c off | jumplImm c off =>
    rw [eq_encode_of_no_ignoredBits rfl h]
    simp [decode, encode, decodeControlFlow, decodeJump]
  | jumpRegOff c rs | jumpRegAbs c rs | jumplRegOff c rs | jumplRegAbs c rs =>
    simp only [Instr.wf] at hwf
    rw [eq_encode_of_no_ignoredBits rfl h]
    simp [decode, encode, decodeControlFlow, decodeJump, hwf]
  | ret c =>
    rw [eq_encode_of_no_ignoredBits rfl h]
    simp [decode, encode, decodeControlFlow]
  | pass c => rw [eq_encode_of_no_ignoredBits rfl h, decode_encode_pass]
  | halt c =>
    rw [eq_encode_of_no_ignoredBits rfl h]
    simp [decode, encode, decodeSpecial]
  | retSpecial c =>
    have hp : p.specialReturn ≠ .invalid := by rw [eq_of_beq hwf]; decide
    rw [eq_encode_of_no_ignoredBits rfl h]
    simp [decode, encode, decodeSpecial, hp]

/-! ### A canonical word has its ignored bits zero -/

theorem encodeCommon_clear {op : BitVec 4} {a : Op1} {rm rd : Reg} {sh : Shift}
    (hwf : (a.wf && rm.fourBit && rd.fourBit) = true) :
    encodeCommon c op a rm sh rd &&& ~~~op1Ignored a = encodeCommon c op a rm sh rd := by
  simp only [Bool.and_eq_true] at hwf
  obtain ⟨⟨ha, hrm⟩, hrd⟩ := hwf
  have hop1 : operand1 (encodeCommon c op a rm sh rd) = a :=
    operand1_of_fields ha (by simp [encodeCommon]) (by simp [encodeCommon]) (by simp [encodeCommon])
  have h := clear_eq_encodeCommon (c := c) (op := op) (w := encodeCommon c op a rm sh rd) (by simp [encodeCommon])
    (by simp [encodeCommon]) (by simp [encodeCommon])
  rw [hop1] at h
  simpa [encodeCommon, resultShift, hrm, hrd] using h

theorem encodeCompare_clear {op : BitVec 4} {a : Op1} {rm : Reg} (hwf : (a.wf && rm.fourBit) = true) :
    encodeCompare c op a rm &&& ~~~compareIgnored a = encodeCompare c op a rm := by
  simp only [Bool.and_eq_true] at hwf
  obtain ⟨ha, hrm⟩ := hwf
  have hop1 : operand1 (encodeCompare c op a rm) = a :=
    operand1_of_fields ha (by simp [encodeCompare]) (by simp [encodeCompare]) (by simp [encodeCompare])
  have h := clear_eq_encodeCompare (c := c) (op := op) (w := encodeCompare c op a rm) (by simp [encodeCompare])
    (by simp [encodeCompare]) (by simp [encodeCompare])
  rw [hop1] at h
  simpa [encodeCompare, hrm] using h

theorem encode_mvn_clear {rm rd : Reg} {sh : Shift} (hrm : rm.fourBit = true) (hrd : rd.fourBit = true) :
    encode (.mvn c rm sh rd) &&& ~~~0x00201F00 = encode (.mvn c rm sh rd) := by
  have h := clear_eq_encode_mvn (c := c) (w := encode (.mvn c rm sh rd)) (by simp [encode]) (by simp [encode])
    (by simp [encode])
  simpa only [encode, resultShift, commonWord_operand2, commonWord_method, commonWord_amount, commonWord_destination,
    ShiftMethod.ofCode_code, Reg.ofCode4_code4 hrm, Reg.ofCode4_code4 hrd] using h

theorem encode_clear_ignoredBits {i : Instr} (hwf : i.wf p = true) :
    encode i &&& ~~~ignoredBits i = encode i := by
  cases i with
  | and c a rm sh rd | eor c a rm sh rd | sub c a rm sh rd | rsb c a rm sh rd | add c a rm sh rd | adc c a rm sh rd
  | sbc c a rm sh rd | rsc c a rm sh rd | orr c a rm sh rd | bic c a rm sh rd =>
    cases a <;> exact encodeCommon_clear hwf
  | tst c a rm | teq c a rm | cmp c a rm | cmn c a rm =>
    cases a <;> exact encodeCompare_clear hwf
  | mvn c rm sh rd =>
    simp only [Instr.wf, Bool.and_eq_true] at hwf
    exact encode_mvn_clear hwf.1 hwf.2
  | _ => exact clear_of_no_ignoredBits rfl

/-! ### The statements -/

/-- Settles O2: from the decoder's answer to the word by `decode_encodesTo`, back by `decode_of_clear_eq_encode`. -/
theorem wordDecodesExactlyUpToIgnoredBits : Obligations.WordDecodesExactlyUpToIgnoredBits := fun _ _ i hwf =>
  ⟨fun h => (decode_encodesTo i h).2, decode_of_clear_eq_encode hwf⟩

/-- Settles O1: a canonical word is one of the words of its instruction. -/
theorem decodeOfEncodeIsTheInstruction : Obligations.DecodeOfEncodeIsTheInstruction := fun _ _ hwf =>
  decode_of_clear_eq_encode hwf (encode_clear_ignoredBits hwf)

/-- Settles O3: each leaf of the decoder takes its registers from fields that hold no other. -/
theorem decodedInstructionIsWellFormed : Obligations.DecodedInstructionIsWellFormed := fun _ _ i h =>
  (decode_encodesTo i h).1

end Sys2Proof
end

section
/-! SUPPORT. What an executed instruction changes, said once: the registers it writes, for a `store` one word of memory,
for a `halt` the bit `halted`, and nothing else. -/

namespace Sys2Proof.Machine

variable {s t u : State} {regs regs' : List Reg}

/-! ### Changes to registers alone -/

/-- Nothing differs but the registers in `regs`: `OnlyRegisters` with the memories equal as data. -/
structure ChangesOnly (regs : List Reg) (s t : State) : Prop where
  registers : RegistersKept regs s t
  mem : t.mem = s.mem
  imem : t.imem = s.imem
  stored : t.stored = s.stored
  halted : t.halted = s.halted
  params : t.params = s.params

theorem ChangesOnly.onlyRegisters (h : ChangesOnly regs s t) : OnlyRegisters regs s t where
  registers := h.registers
  memory := ⟨fun k => by rw [h.mem], fun k => by rw [h.imem], h.stored⟩
  machine := ⟨h.halted, h.params⟩

theorem ChangesOnly.refl (regs : List Reg) (s : State) : ChangesOnly regs s s :=
  ⟨fun _ _ => rfl, rfl, rfl, rfl, rfl, rfl⟩

theorem ChangesOnly.mono (h : ChangesOnly regs s t) (hsub : regs ⊆ regs') : ChangesOnly regs' s t :=
  { h with registers := fun r hr => h.registers r fun hmem => hr (hsub hmem) }

theorem ChangesOnly.trans (h : ChangesOnly regs s t) (h' : ChangesOnly regs' t u) :
    ChangesOnly (regs' ++ regs) s u where
  registers r hr := by
    rw [List.mem_append, not_or] at hr
    exact (h'.registers r hr.1).trans (h.registers r hr.2)
  mem := h'.mem.trans h.mem
  imem := h'.imem.trans h.imem
  stored := h'.stored.trans h.stored
  halted := h'.halted.trans h.halted
  params := h'.params.trans h.params

theorem changesOnly_writeReg (s : State) (r : Reg) (v : Word) : ChangesOnly [r] s (s.writeReg r v) :=
  ⟨fun _ hq => readReg_writeReg_of_ne s (List.ne_of_not_mem_cons hq) v, writeReg_mem s r v, writeReg_imem s r v,
    writeReg_stored s r v, writeReg_halted s r v, writeReg_params s r v⟩

theorem changesOnly_writeBack (s : State) (wb : Bool) (ra : Reg) (ea : Word) :
    ChangesOnly (if wb then [ra] else []) s (s.writeBack wb ra ea) := by
  cases wb
  · exact .refl _ s
  · exact changesOnly_writeReg s ra ea

theorem changesOnly_jumpTo (s : State) (a : Word) : ChangesOnly [.pc] s (s.jumpTo a) :=
  ⟨fun _ hr => readReg_jumpTo s (List.ne_of_not_mem_cons hr) a, rfl, rfl, rfl, rfl, rfl⟩

theorem changesOnly_linkAndJumpTo (s : State) (a : Word) : ChangesOnly [.pc, .lr] s (s.linkAndJumpTo a) where
  registers r hr := by
    simp only [List.mem_cons, List.not_mem_nil, or_false, not_or] at hr
    exact readReg_linkAndJumpTo s hr.2 hr.1 a
  mem := rfl
  imem := rfl
  stored := rfl
  halted := rfl
  params := rfl

theorem changesOnly_setLogicalFlags (s : State) (x : Word) : ChangesOnly [.cpsr] s (s.setLogicalFlags x) :=
  ⟨fun _ hr => readReg_setLogicalFlags s (List.ne_of_not_mem_cons hr) x, rfl, rfl, rfl, rfl, rfl⟩

theorem changesOnly_setArithmeticFlags (s : State) (o : AddOut) :
    ChangesOnly [.cpsr] s (s.setArithmeticFlags o) :=
  ⟨fun _ hr => readReg_setArithmeticFlags s (List.ne_of_not_mem_cons hr) o, rfl, rfl, rfl, rfl, rfl⟩

/-! ### The bodies the instructions share -/

theorem changesOnly_loadFrom {wb : Bool} {ea : Word} {ra rd : Reg} (h : s.loadFrom wb ea ra rd = .next t) :
    ChangesOnly (if wb then [rd, ra] else [rd]) s t := by
  obtain ⟨-, -, rfl⟩ := loadFrom_next.mp h
  have both := (changesOnly_writeBack s wb ra ea).trans (changesOnly_writeReg _ rd (Memory.readWord s.mem s.params ea))
  cases wb <;> exact both

theorem changesOnly_finishLogical {res : Word} {sh : Shift} {rd : Reg} (h : s.finishLogical res sh rd = .next t) :
    ChangesOnly [rd, .cpsr] s t := by
  cases h
  exact (changesOnly_setLogicalFlags s res).trans (changesOnly_writeReg _ rd (applyShift sh res))

theorem changesOnly_finishArithmetic {o : AddOut} {sh : Shift} {rd : Reg} (h : s.finishArithmetic o sh rd = .next t) :
    ChangesOnly [rd, .cpsr] s t := by
  cases h
  exact (changesOnly_setArithmeticFlags s o).trans (changesOnly_writeReg _ rd (applyShift sh o.res))

/-! ### Every instruction -/

/-- The registers that an execution of `i` may change: those its fields name to be written, the CPSR for a writer of
flags, the PC for a control flow instruction, LR for `jumpl` (10_state.md R23, R28, R33). -/
def writtenRegisters (i : Instr) : List Reg :=
  namedWrites i ++ (if writesFlags i then [.cpsr] else []) ++ (if isControlFlow i then [.pc] else []) ++
    (if isJumpl i then [.lr] else [])

/-- Everything a completed execution of an instruction other than `store` and `halt` can do. -/
theorem exec_changesOnly {i : Instr} (hs : isStore i = false) (hh : isHalt i = false) (h : exec i s = .next t) :
    ChangesOnly (writtenRegisters i) s t := by
  cases i with
  | storeOff | storeShift | halt => contradiction
  | loadOff c wb off ra rd | loadShift c wb sh ra rd =>
    obtain ⟨-, h⟩ | ⟨-, rfl⟩ := onCondition_next h
    · exact (changesOnly_loadFrom h).mono (by simp [writtenRegisters, namedWrites])
    · exact .refl _ t
  | and | eor | orr | bic | mvn =>
    obtain ⟨-, h⟩ | ⟨-, rfl⟩ := onCondition_next h
    · exact changesOnly_finishLogical h
    · exact .refl _ t
  | sub | rsb | add | adc | sbc | rsc =>
    obtain ⟨-, h⟩ | ⟨-, rfl⟩ := onCondition_next h
    · exact changesOnly_finishArithmetic h
    · exact .refl _ t
  | tst | teq =>
    obtain ⟨-, h⟩ | ⟨-, rfl⟩ := onCondition_next h
    · cases h; exact changesOnly_setLogicalFlags s _
    · exact .refl _ t
  | cmp | cmn =>
    obtain ⟨-, h⟩ | ⟨-, rfl⟩ := onCondition_next h
    · cases h; exact changesOnly_setArithmeticFlags s _
    · exact .refl _ t
  | movImm | movReg =>
    obtain ⟨-, h⟩ | ⟨-, rfl⟩ := onCondition_next h
    · cases h; exact changesOnly_writeReg s _ _
    · exact .refl _ t
  | jumpImm | jumpRegOff | jumpRegAbs | ret | retSpecial =>
    obtain ⟨-, h⟩ | ⟨-, rfl⟩ := onCondition_next h
    · cases h; exact changesOnly_jumpTo s _
    · exact .refl _ t
  | jumplImm | jumplRegOff | jumplRegAbs =>
    obtain ⟨-, h⟩ | ⟨-, rfl⟩ := onCondition_next h
    · cases h; exact changesOnly_linkAndJumpTo s _
    · exact .refl _ t
  | pass c =>
    cases (exec_pass c).symm.trans h
    exact .refl _ s

/-- `s` after a `store` of `v` at the address `ea`, before its write-back. -/
def State.withStored (s : State) (ea v : Word) : State :=
  { s with mem := Memory.writeWord s.mem s.params ea v, stored := addStored s.stored ea.toNat }

theorem exec_store_next {i : Instr} (hs : isStore i = true) (h : exec i s = .next t) :
    t = s ∨ ∃ ea v, s.dataCheck ea = none ∧ ChangesOnly (writtenRegisters i) (s.withStored ea v) t := by
  cases i with
  | storeOff c wb off ra rs | storeShift c wb sh ra rs =>
    obtain ⟨-, h⟩ | ⟨-, rfl⟩ := onCondition_next h
    · obtain ⟨hd, rfl⟩ := storeTo_next.mp h
      exact .inr ⟨_, _, hd, (changesOnly_writeBack _ wb ra _).mono (by simp [writtenRegisters, namedWrites])⟩
    · exact .inl rfl
  | _ => contradiction

theorem exec_halt_next {i : Instr} (hh : isHalt i = true) (h : exec i s = .next t) :
    t = { s with halted := s.halted || s.conditionPassed i.cond } := by
  cases i with
  | halt c =>
    obtain ⟨hc, h⟩ | ⟨hc, rfl⟩ := onCondition_next h
    · cases h; simp [Instr.cond, hc]
    · simp [Instr.cond, hc]
  | _ => contradiction

end Sys2Proof.Machine
end

section
/-! SUPPORT. What a step can do to the memories, the stored-to addresses and the parameters, and what therefore holds
along every run (20_memory.md R63; 10_state.md R41). -/

namespace Sys2Proof.Machine

variable {s t u : State}

/-! ### What a step can do to memory -/

/-- The same memories, stored-to addresses and parameters. -/
structure SameMemory (s t : State) : Prop where
  mem : t.mem = s.mem
  imem : t.imem = s.imem
  stored : t.stored = s.stored
  params : t.params = s.params

theorem ChangesOnly.sameMemory {regs : List Reg} (h : ChangesOnly regs s t) : SameMemory s t :=
  ⟨h.mem, h.imem, h.stored, h.params⟩

/-- The memory of an execution: as before, or with one accessible word stored. -/
theorem exec_next_memory {i : Instr} (h : exec i s = .next t) :
    SameMemory s t ∨ ∃ ea v, s.dataCheck ea = none ∧ SameMemory (s.withStored ea v) t := by
  cases hs : isStore i with
  | true =>
    obtain rfl | ⟨ea, v, hd, hregs⟩ := exec_store_next hs h
    · exact .inl ⟨rfl, rfl, rfl, rfl⟩
    · exact .inr ⟨ea, v, hd, hregs.sameMemory⟩
  | false =>
    cases hh : isHalt i with
    | true => exact .inl (exec_halt_next hh h ▸ ⟨rfl, rfl, rfl, rfl⟩)
    | false => exact .inl (exec_changesOnly hs hh h).sameMemory

/-- The memory of a step: as before, or with one accessible word stored. -/
theorem step_next_memory (h : step s = .next t) :
    SameMemory s t ∨ ∃ ea v, s.dataCheck ea = none ∧ SameMemory (s.withStored ea v) t := by
  obtain ⟨-, rfl⟩ | ⟨-, w, i, -, -, hexec⟩ := step_next h
  · exact .inl ⟨rfl, rfl, rfl, rfl⟩
  · obtain ⟨hmem, himem, hstored, hparams⟩ | ⟨ea, v, hd, hmem, himem, hstored, hparams⟩ := exec_next_memory hexec
    · exact .inl ⟨hmem, himem, hstored, hparams⟩
    · exact .inr ⟨ea, v, hd, hmem, himem, hstored, hparams⟩

theorem step_params (h : step s = .next t) : t.params = s.params := by
  obtain hsame | ⟨ea, v, -, hsame⟩ := step_next_memory h
  · exact hsame.params
  · exact hsame.params

theorem step_imem (h : step s = .next t) : t.imem = s.imem := by
  obtain hsame | ⟨ea, v, -, hsame⟩ := step_next_memory h
  · exact hsame.imem
  · exact hsame.imem

/-- The stored-to addresses only grow. -/
theorem step_stored_subset (h : step s = .next t) : s.stored ⊆ t.stored := by
  obtain hsame | ⟨ea, v, -, hsame⟩ := step_next_memory h
  · exact fun a ha => hsame.stored ▸ ha
  · intro a ha
    rw [hsame.stored]
    exact (mem_addStored ..).mpr (.inr ha)

/-- A step changes an aligned word only if its address then counts as stored to (20_memory.md R63). -/
theorem step_readWord {a : Word} (h : step s = .next t) (ha : aligned s.params a = true) (hst : a.toNat ∉ t.stored) :
    Memory.readWord t.mem s.params a = Memory.readWord s.mem s.params a := by
  obtain hsame | ⟨ea, v, hd, hsame⟩ := step_next_memory h
  · rw [hsame.mem]
  · have hne : a ≠ ea := by
      rintro rfl
      exact hst (hsame.stored ▸ (mem_addStored ..).mpr (.inl rfl))
    rw [hsame.mem]
    exact Memory.readWord_writeWord_of_ne _ v (dataCheck_none.mp hd).1 ha hne

/-! ### The states in order -/

/-- The invariant looks at the memories, the stored-to addresses and the parameters alone. -/
theorem State.Inv.congr (hs : s.Inv) (h : SameMemory s t) : t.Inv := by
  obtain ⟨hmem, himem, hstored, hparams⟩ := h
  obtain ⟨h1, h2, h3, h4, h5, h6, h7⟩ := hs
  constructor <;> simpa only [hmem, himem, hstored, hparams]

/-- An address that passes the checks of a data access is an aligned, populated word, so its four cells lie in the
address space and it may join the stored-to addresses. -/
theorem State.Inv.withStored {ea : Word} (hs : s.Inv) (hd : s.dataCheck ea = none) (v : Word) :
    (s.withStored ea v).Inv := by
  obtain ⟨halign, hpop, -⟩ := dataCheck_none.mp hd
  refine { hs with mem_canonical := ?_, mem_in_space := ?_, stored_rising := ?_, stored_populated := ?_ }
  · exact Memory.wf_writeWord _ _ _ _ hs.mem_canonical
  · intro c hc
    obtain ⟨-, hlt⟩ | hold := Memory.mem_writeWord hc
    · exact lt_of_lt_of_le hlt (cellBase_lt halign)
    · exact hs.mem_in_space c hold
  · exact addStored_rising _ _ hs.stored_rising
  · intro a ha
    obtain rfl | hold := (mem_addStored ..).mp ha
    · exact ⟨ea, rfl, halign, hpop⟩
    · exact hs.stored_populated a hold

/-- Settles O50: a step leaves what the invariant looks at, or stores one word that passed the checks. -/
theorem stepKeepsTheStateInOrder : Obligations.StepKeepsTheStateInOrder := by
  intro s t hs h
  obtain hsame | ⟨ea, v, hd, hsame⟩ := step_next_memory h
  · exact hs.congr hsame
  · exact (hs.withStored hd v).congr hsame

/-- Settles O51: both memories and the list of stored-to addresses are empty. -/
theorem resetStateIsInOrder : Obligations.ResetStateIsInOrder where
  mem_canonical := reset_mem_wf
  mem_in_space := nofun
  imem_canonical := rfl
  imem_in_space := nofun
  stored_rising := List.Pairwise.nil
  stored_populated := nofun
  params_wf := rfl

/-! ### Runs -/

/-- What every step keeps, every run keeps. -/
theorem Reachable.keeps {P : State → Prop} (hstep : ∀ t u, P t → step t = .next u → P u) (hs : P s)
    (h : Reachable s t) : P t := by
  induction h with
  | start => exact hs
  | next _ e ih => exact hstep _ _ ih e

/-- Settles O53: no step changes a parameter. -/
theorem noInstructionChangesAParameter : Obligations.NoInstructionChangesAParameter := fun s _ =>
  Reachable.keeps (P := fun t => t.params = s.params) (fun _ _ ht e => (step_params e).trans ht) rfl

theorem reachable_imem (h : Reachable s t) : t.imem = s.imem :=
  h.keeps (P := fun t => t.imem = s.imem) (fun _ _ ht e => (step_imem e).trans ht) rfl

/-- Settles O54: by induction over the run; a word not stored to at its end was not stored to before its last step
either, and that step leaves it. -/
theorem unstoredWordsKeepTheirContents : Obligations.UnstoredWordsKeepTheirContents := by
  intro s t a h ha
  induction h with
  | start => exact fun _ => rfl
  | @next t u hrun e ih =>
    intro hst
    have hparams := noInstructionChangesAParameter s t hrun
    have hlast := step_readWord (a := a) e (hparams ▸ ha) hst
    rw [hparams] at hlast
    exact hlast.trans (ih fun hmem => hst (step_stored_subset e hmem))

/-- A fetch succeeds only at an address that no store has written, unless the model's own parameter lifts that. -/
theorem not_stored_of_fetch {w : Word} (hf : s.fetch = .ok w) (hc : s.params.coherentFetch = false) :
    s.pc.toNat ∉ s.stored := by
  obtain ⟨-, -, hex, -⟩ := fetch_ok.mp hf
  simpa [State.fetchExcluded, hc] using hex

/-- Settles O55: a word that is fetched has not been stored to, so it is the word of the start: by O54 in a unified
memory, and otherwise because no step writes the instruction memory. -/
theorem fetchedWordsAreThoseOfTheLaunch : Obligations.FetchedWordsAreThoseOfTheLaunch := by
  intro s t w hrun hc hf
  have hparams := noInstructionChangesAParameter s t hrun
  have hst := not_stored_of_fetch hf (hparams ▸ hc)
  obtain ⟨halign, -, -, rfl⟩ := fetch_ok.mp hf
  rw [hparams] at halign ⊢
  unfold State.fetchMemory
  rw [hparams]
  cases s.params.unified with
  | true => exact unstoredWordsKeepTheirContents s t t.pc hrun halign hst
  | false => rw [reachable_imem hrun]; rfl

/-- Settles O13: the outcome of a halted core is its own state (log 8). -/
theorem haltedCoreKeepsItsState : Obligations.HaltedCoreKeepsItsState := by
  intro s hh
  simp [step, hh]

/-- Settles O56: each step from a halted state answers that state. -/
theorem haltedRunStaysPut : Obligations.HaltedRunStaysPut := by
  intro s t hh
  refine Reachable.keeps (P := (· = s)) (fun t u ht e => ?_) rfl
  subst ht
  cases (haltedCoreKeepsItsState t hh).symm.trans e
  rfl

end Sys2Proof.Machine
end

section
/-! SUPPORT. Who writes which register and the bit `halted`, from the registers an execution may change; where an
execution can be refused (10_state.md R23, R24, R33, R35, R37; 60_exceptions.md R196 (6)). -/

namespace Sys2Proof.Machine

variable {s t : State}

/-! ### Registers no field of the instruction writes -/

@[simp] theorem readReg_withStored (ea v : Word) (r : Reg) : (s.withStored ea v).readReg r = s.readReg r :=
  readReg_with_memory _ _ r

@[simp] theorem readReg_with_halted (b : Bool) (r : Reg) : ({ s with halted := b } : State).readReg r = s.readReg r :=
  readReg_congr rfl rfl rfl rfl rfl r

/-- An execution changes no register outside `writtenRegisters`. -/
theorem exec_registersKept {i : Instr} (h : exec i s = .next t) : RegistersKept (writtenRegisters i) s t := by
  intro r hr
  cases hs : isStore i with
  | true =>
    obtain rfl | ⟨ea, v, -, hregs⟩ := exec_store_next hs h
    · rfl
    · rw [hregs.registers r hr, readReg_withStored]
  | false =>
    cases hh : isHalt i with
    | true => rw [exec_halt_next hh h, readReg_with_halted]
    | false => exact (exec_changesOnly hs hh h).registers r hr

/-- Settles O45: outside the written fields only `jumpl` has LR among the registers it may change. -/
theorem whoWritesTheLinkRegister : Obligations.WhoWritesTheLinkRegister := by
  intro i s t h hj hn
  refine exec_registersKept h .lr ?_
  simp [writtenRegisters, hj, hn]

/-- Settles O19: outside the written fields only control flow has the PC among the registers it may change, and the
execution starts from the advanced PC. -/
theorem sequentialAdvanceUnlessThePcIsWritten : Obligations.SequentialAdvanceUnlessThePcIsWritten := by
  intro s t w i hrun hf hd hcf hn h
  rw [step_of_fetch_valid hrun hf hd] at h
  refine exec_registersKept h .pc ?_
  simp [writtenRegisters, hcf, hn]

/-! ### The CPSR -/

/-- Flag writes leave the storage bits, wherever the layout puts the flags (10_state.md R35). -/
theorem setLogicalFlags_storage {b : Fin 8} (hb : isStorageBit s.params.layout b) (x : Word) :
    (s.setLogicalFlags x).cpsr.getLsbD b = s.cpsr.getLsbD b := by
  obtain ⟨hn, hz, -, -⟩ := hb
  simp [hn, hz]

theorem setArithmeticFlags_storage {b : Fin 8} (hb : isStorageBit s.params.layout b) (o : AddOut) :
    (s.setArithmeticFlags o).cpsr.getLsbD b = s.cpsr.getLsbD b := by
  obtain ⟨hn, hz, hc, hv⟩ := hb
  simp [hn, hz, hc, hv]

/-- A writer of flags whose destination is not the CPSR keeps the storage bits. -/
theorem exec_storage {i : Instr} (h : exec i s = .next t) (hf : writesFlags i = true) (hn : Reg.cpsr ∉ namedWrites i)
    {b : Fin 8} (hb : isStorageBit s.params.layout b) : t.cpsr.getLsbD b = s.cpsr.getLsbD b := by
  cases i with
  | and | eor | orr | bic | mvn =>
    obtain ⟨-, h⟩ | ⟨-, rfl⟩ := onCondition_next h
    · cases h
      rw [State.writeShifted, writeReg_cpsr_of_ne _ (List.ne_of_not_mem_cons hn).symm, setLogicalFlags_storage hb]
    · rfl
  | sub | rsb | add | adc | sbc | rsc =>
    obtain ⟨-, h⟩ | ⟨-, rfl⟩ := onCondition_next h
    · cases h
      rw [State.writeShifted, writeReg_cpsr_of_ne _ (List.ne_of_not_mem_cons hn).symm, setArithmeticFlags_storage hb]
    · rfl
  | tst | teq =>
    obtain ⟨-, h⟩ | ⟨-, rfl⟩ := onCondition_next h
    · cases h; exact setLogicalFlags_storage hb _
    · rfl
  | cmp | cmn =>
    obtain ⟨-, h⟩ | ⟨-, rfl⟩ := onCondition_next h
    · cases h; exact setArithmeticFlags_storage hb _
    · rfl
  | _ => contradiction

/-- The CPSR reads zero-extended, so equal reads are equal contents. -/
theorem cpsr_eq_of_readReg (h : t.readReg .cpsr = s.readReg .cpsr) : t.cpsr = s.cpsr := by
  apply BitVec.eq_of_toNat_eq
  rw [← toNat_readReg_cpsr, ← toNat_readReg_cpsr, h]

/-- Settles O38: an instruction that writes no flag does not have the CPSR among the registers it may change, and one
that does leaves the storage bits. -/
theorem whoWritesTheCpsr : Obligations.WhoWritesTheCpsr := by
  intro i s t _ h hn
  have kept (hf : writesFlags i = false) : t.cpsr = s.cpsr := by
    refine cpsr_eq_of_readReg (exec_registersKept h .cpsr ?_)
    simp [writtenRegisters, hf, hn]
  refine ⟨kept, fun b hb => ?_⟩
  cases hf : writesFlags i with
  | true => exact exec_storage h hf hn hb
  | false => rw [kept hf]

/-! ### `halted` -/

/-- Settles O49: every execution but that of `halt` keeps the bit. -/
theorem onlyHaltChangesHalted : Obligations.OnlyHaltChangesHalted := by
  intro i s t h
  cases hh : isHalt i with
  | true => rw [exec_halt_next hh h, Bool.true_and]
  | false =>
    rw [Bool.false_and, Bool.or_false]
    cases hs : isStore i with
    | true =>
      obtain rfl | ⟨ea, v, -, hregs⟩ := exec_store_next hs h
      · rfl
      · exact hregs.halted
    | false => exact (exec_changesOnly hs hh h).halted

/-! ### Where an execution is refused -/

theorem onCondition_refused {c : Cond} {o : Outcome} {r : Refusal} (h : s.onCondition c o = .refused r) :
    s.conditionPassed c = true ∧ o = .refused r := by
  cases hc : s.conditionPassed c
  · rw [onCondition_fail hc] at h; cases h
  · rw [onCondition_pass hc] at h; exact ⟨rfl, h⟩

/-- The three reasons of the checks of a data access (20_memory.md R53, R63). -/
theorem dataCheck_some {a : Word} {r : Refusal} (h : s.dataCheck a = some r) :
    r = .misalignedAccess ∨ r = .unpopulatedAddress ∨ r = .programTextAccess := by
  unfold State.dataCheck at h
  repeat' split at h
  all_goals cases h
  · exact .inl rfl
  · exact .inr (.inl rfl)
  · exact .inr (.inr rfl)

/-- Everything the body of `load` can be refused for. -/
theorem loadFrom_refused {wb : Bool} {ea : Word} {ra rd : Reg} {r : Refusal} :
    s.loadFrom wb ea ra rd = .refused r ↔
      (wb = true ∧ rd = ra ∧ .loadWriteBackOwnAddress = r) ∨ (¬ (wb = true ∧ rd = ra) ∧ s.dataCheck ea = some r) := by
  unfold State.loadFrom State.memRead
  split
  · rename_i h; simp [h]
  · rename_i h
    cases s.dataCheck ea <;> simp only [h, not_false_eq_true, true_and] <;> grind

/-- Everything the body of `store` can be refused for. -/
theorem storeTo_refused {wb : Bool} {ea : Word} {ra rs : Reg} {r : Refusal} :
    s.storeTo wb ea ra rs = .refused r ↔ s.dataCheck ea = some r := by
  unfold State.storeTo State.memWrite
  cases s.dataCheck ea <;> simp

/-- Settles O18: of the bodies only those of `load` and `store` can stop. -/
theorem executionStopsOnlyInDataMovement : Obligations.ExecutionStopsOnlyInDataMovement := by
  intro i s r h
  cases i with
  | loadOff | loadShift =>
    obtain ⟨hc, h⟩ := onCondition_refused h
    refine ⟨rfl, hc, ?_⟩
    obtain ⟨-, -, rfl⟩ | ⟨-, hd⟩ := loadFrom_refused.mp h
    · exact .inr (.inr (.inr ⟨rfl, rfl⟩))
    · have := dataCheck_some hd; tauto
  | storeOff | storeShift =>
    obtain ⟨hc, h⟩ := onCondition_refused h
    refine ⟨rfl, hc, ?_⟩
    have := dataCheck_some (storeTo_refused.mp h)
    tauto
  | _ => exact absurd (onCondition_refused h).2 nofun

end Sys2Proof.Machine
end

section
/-! SUPPORT. Noninterference: one lemma that an execution respects a relation between states which its operations
respect, and the relations that set aside the memories, SP and the CPSR (10_state.md R24, R34, R38). -/

namespace Sys2Proof.Machine

variable {s s' t : State} {R : State → State → Prop} {readable writable : Reg → Prop}

/-! ### Relations between states that executions respect -/

/-- The operations of an execution lead from states in `R` to states in `R`, as far as they read and write the registers
given. -/
structure Respected (R : State → State → Prop) (readable writable : Reg → Prop) : Prop where
  params : ∀ {s s'}, R s s' → s'.params = s.params
  lr : ∀ {s s'}, R s s' → s'.lr = s.lr
  pc : ∀ {s s'}, R s s' → s'.pc = s.pc
  read : ∀ {s s' r}, R s s' → readable r → s'.readReg r = s.readReg r
  write : ∀ {s s' r}, R s s' → writable r → ∀ v, R (s.writeReg r v) (s'.writeReg r v)
  logicalFlags : ∀ {s s'}, R s s' → ∀ x, R (s.setLogicalFlags x) (s'.setLogicalFlags x)
  arithmeticFlags : ∀ {s s'}, R s s' → ∀ o, R (s.setArithmeticFlags o) (s'.setArithmeticFlags o)
  jump : ∀ {s s'}, R s s' → ∀ a, R (s.jumpTo a) (s'.jumpTo a)
  link : ∀ {s s'}, R s s' → ∀ a, R (s.linkAndJumpTo a) (s'.linkAndJumpTo a)
  halt : ∀ {s s'}, R s s' → R { s with halted := true } { s' with halted := true }
  store : ∀ {s s'}, R s s' → ∀ ea v, R (s.withStored ea v) (s'.withStored ea v)

/-- The same stop, or next states in `R`. -/
inductive OutcomesRelated (R : State → State → Prop) : Outcome → Outcome → Prop where
  | next {t t' : State} (h : R t t') : OutcomesRelated R (.next t) (.next t')
  | fault (f : Fault) : OutcomesRelated R (.fault f) (.fault f)
  | refused (r : Refusal) : OutcomesRelated R (.refused r) (.refused r)

/-- The registers whose contents an execution of `i` uses (10_state.md section 1). -/
def readRegisters (i : Instr) : List Reg :=
  match i with
  | .loadOff _ _ _ ra _ | .loadShift _ _ _ ra _ => [ra]
  | .storeOff _ _ _ ra rs | .storeShift _ _ _ ra rs => [ra, rs]
  | .and _ a rm _ _ | .eor _ a rm _ _ | .sub _ a rm _ _ | .rsb _ a rm _ _ | .add _ a rm _ _ | .adc _ a rm _ _
  | .sbc _ a rm _ _ | .rsc _ a rm _ _ | .orr _ a rm _ _ | .bic _ a rm _ _
  | .tst _ a rm | .teq _ a rm | .cmp _ a rm | .cmn _ a rm => rm :: op1Registers a
  | .mvn _ rm _ _ => [rm]
  | .movImm _ _ _ rd => [rd]
  | .movReg _ _ rs _ => [rs]
  | .jumpRegOff _ rs | .jumpRegAbs _ rs | .jumplRegOff _ rs | .jumplRegAbs _ rs => [rs]
  | .jumpImm _ _ | .jumplImm _ _ | .ret _ | .pass _ | .halt _ | .retSpecial _ => []

/-- `ADC`, `SBC`, `RSC`, which read the carry (10_state.md R34 (b)). -/
def usesCarry (i : Instr) : Bool :=
  match i with
  | .adc _ _ _ _ _ | .sbc _ _ _ _ _ | .rsc _ _ _ _ _ => true
  | _ => false

/-! ### The shared bodies respect such a relation -/

theorem Respected.op1Value (hR : Respected R readable writable) (h : R s s') {a : Op1}
    (ha : ∀ r ∈ op1Registers a, readable r) : s'.op1Value a = s.op1Value a := by
  cases a with
  | imm k => rfl
  | reg r => exact hR.read h (ha r (.head _))

theorem Respected.writeBack (hR : Respected R readable writable) (h : R s s') {wb : Bool} {ra : Reg}
    (hw : wb = true → writable ra) (ea : Word) : R (s.writeBack wb ra ea) (s'.writeBack wb ra ea) := by
  cases wb with
  | false => exact h
  | true => exact hR.write h (hw rfl) ea

theorem Respected.dataCheck (hR : Respected R readable writable) (h : R s s') (ea : Word) :
    s'.dataCheck ea = s.dataCheck ea := by
  simp only [State.dataCheck, hR.params h]

theorem Respected.onCondition (h : R s s') {c : Cond} (hc : s'.conditionPassed c = s.conditionPassed c)
    {o o' : Outcome} (ho : OutcomesRelated R o o') : OutcomesRelated R (s.onCondition c o) (s'.onCondition c o') := by
  unfold State.onCondition
  rw [hc]
  split
  · exact ho
  · exact .next h

theorem Respected.loadFrom (hR : Respected R readable writable) (h : R s s') (hmem : s'.mem = s.mem) {wb : Bool}
    {ra rd : Reg} (hra : wb = true → writable ra) (hrd : writable rd) (ea : Word) :
    OutcomesRelated R (s.loadFrom wb ea ra rd) (s'.loadFrom wb ea ra rd) := by
  unfold State.loadFrom State.memRead
  rw [hR.dataCheck h, hmem, hR.params h]
  split
  · exact .refused _
  · cases s.dataCheck ea with
    | some r => exact .refused r
    | none => exact .next (hR.write (hR.writeBack h hra ea) hrd _)

theorem Respected.storeTo (hR : Respected R readable writable) (h : R s s') {wb : Bool} {ra rs : Reg}
    (hra : wb = true → writable ra) (hrs : readable rs) (ea : Word) :
    OutcomesRelated R (s.storeTo wb ea ra rs) (s'.storeTo wb ea ra rs) := by
  unfold State.storeTo State.memWrite
  rw [hR.dataCheck h, hR.read h hrs]
  cases s.dataCheck ea with
  | some r => exact .refused r
  | none => exact .next (hR.writeBack (hR.store h ea _) hra ea)

theorem Respected.finishLogical (hR : Respected R readable writable) (h : R s s') {rd : Reg} (hrd : writable rd)
    (res : Word) (sh : Shift) : OutcomesRelated R (s.finishLogical res sh rd) (s'.finishLogical res sh rd) :=
  .next (hR.write (hR.logicalFlags h res) hrd _)

theorem Respected.finishArithmetic (hR : Respected R readable writable) (h : R s s') {rd : Reg} (hrd : writable rd)
    (o : AddOut) (sh : Shift) : OutcomesRelated R (s.finishArithmetic o sh rd) (s'.finishArithmetic o sh rd) :=
  .next (hR.write (hR.arithmeticFlags h o) hrd _)

/-- Two executions of `i` from states in `R` agree up to `R`, if the registers that `i` reads and writes are among those
`R` respects, the condition and a carry that is used are the same, and so is the memory for a `load`. -/
theorem Respected.exec (hR : Respected R readable writable) (h : R s s') {i : Instr}
    (hread : ∀ r ∈ readRegisters i, readable r) (hwrite : ∀ r ∈ namedWrites i, writable r)
    (hcond : s'.conditionPassed i.cond = s.conditionPassed i.cond) (hcarry : usesCarry i = true → s'.flagC = s.flagC)
    (hmem : isLoad i = true → s'.mem = s.mem) : OutcomesRelated R (exec i s) (exec i s') := by
  cases i with
  | loadOff c wb off ra rd | loadShift c wb sh ra rd =>
    refine Respected.onCondition h hcond ?_
    have hra : wb = true → writable ra := by rintro rfl; exact hwrite ra (by simp [namedWrites])
    have hrd : writable rd := hwrite rd (by cases wb <;> simp [namedWrites])
    simp only [State.offsetAddress, State.shiftAddress, hR.read h (hread ra (.head _))]
    exact hR.loadFrom h (hmem rfl) hra hrd _
  | storeOff c wb off ra rs | storeShift c wb sh ra rs =>
    refine Respected.onCondition h hcond ?_
    have hra : wb = true → writable ra := by rintro rfl; exact hwrite ra (.head _)
    simp only [State.offsetAddress, State.shiftAddress, hR.read h (hread ra (.head _))]
    exact hR.storeTo h hra (hread rs (.tail _ (.head _))) _
  | and c a rm sh rd | eor c a rm sh rd | orr c a rm sh rd | bic c a rm sh rd =>
    refine Respected.onCondition h hcond ?_
    rw [hR.op1Value h fun r hr => hread r (.tail _ hr), hR.read h (hread rm (.head _))]
    exact hR.finishLogical h (hwrite rd (.head _)) _ _
  | mvn c rm sh rd =>
    refine Respected.onCondition h hcond ?_
    rw [hR.read h (hread rm (.head _))]
    exact hR.finishLogical h (hwrite rd (.head _)) _ _
  | sub c a rm sh rd | rsb c a rm sh rd | add c a rm sh rd =>
    refine Respected.onCondition h hcond ?_
    rw [hR.op1Value h fun r hr => hread r (.tail _ hr), hR.read h (hread rm (.head _))]
    exact hR.finishArithmetic h (hwrite rd (.head _)) _ _
  | adc c a rm sh rd | sbc c a rm sh rd | rsc c a rm sh rd =>
    refine Respected.onCondition h hcond ?_
    rw [hR.op1Value h fun r hr => hread r (.tail _ hr), hR.read h (hread rm (.head _)), hcarry rfl]
    exact hR.finishArithmetic h (hwrite rd (.head _)) _ _
  | tst c a rm | teq c a rm =>
    refine Respected.onCondition h hcond ?_
    rw [hR.op1Value h fun r hr => hread r (.tail _ hr), hR.read h (hread rm (.head _))]
    exact .next (hR.logicalFlags h _)
  | cmp c a rm | cmn c a rm =>
    refine Respected.onCondition h hcond ?_
    rw [hR.op1Value h fun r hr => hread r (.tail _ hr), hR.read h (hread rm (.head _))]
    exact .next (hR.arithmeticFlags h _)
  | movImm c high imm rd =>
    refine Respected.onCondition h hcond ?_
    rw [hR.read h (hread rd (.head _))]
    exact .next (hR.write h (hwrite rd (.head _)) _)
  | movReg c sh rs rd =>
    refine Respected.onCondition h hcond ?_
    rw [hR.read h (hread rs (.head _))]
    exact .next (hR.write h (hwrite rd (.head _)) _)
  | jumpImm c off =>
    refine Respected.onCondition h hcond ?_
    simp only [State.immTarget, hR.pc h]
    exact .next (hR.jump h _)
  | jumpRegOff c rs | jumpRegAbs c rs =>
    refine Respected.onCondition h hcond ?_
    simp only [State.regOffsetTarget, State.regTarget, hR.pc h, hR.read h (hread rs (.head _))]
    exact .next (hR.jump h _)
  | jumplImm c off =>
    refine Respected.onCondition h hcond ?_
    simp only [State.immTarget, hR.pc h]
    exact .next (hR.link h _)
  | jumplRegOff c rs | jumplRegAbs c rs =>
    refine Respected.onCondition h hcond ?_
    simp only [State.regOffsetTarget, State.regTarget, hR.pc h, hR.read h (hread rs (.head _))]
    exact .next (hR.link h _)
  | ret c | retSpecial c =>
    refine Respected.onCondition h hcond ?_
    rw [hR.lr h]
    exact .next (hR.jump h _)
  | pass c => exact Respected.onCondition h hcond (.next h)
  | halt c => exact Respected.onCondition h hcond (.next (hR.halt h))

/-! ### The memories set aside -/

/-- The states differ in nothing but the two memories. -/
def EqUpToMemories (s s' : State) : Prop := ∃ m n : Memory, s' = { s with mem := m, imem := n }

theorem readReg_with_memories (m n : Memory) (r : Reg) :
    ({ s with mem := m, imem := n } : State).readReg r = s.readReg r :=
  readReg_congr rfl rfl rfl rfl rfl r

theorem eqUpToMemories_respected : Respected EqUpToMemories (fun _ => True) (fun _ => True) where
  params := by rintro s _ ⟨m, n, rfl⟩; rfl
  lr := by rintro s _ ⟨m, n, rfl⟩; rfl
  pc := by rintro s _ ⟨m, n, rfl⟩; rfl
  read := by rintro s _ r ⟨m, n, rfl⟩ -; exact readReg_with_memories m n r
  write := by rintro s _ r ⟨m, n, rfl⟩ - v; exact ⟨m, n, by cases r <;> rfl⟩
  logicalFlags := by rintro s _ ⟨m, n, rfl⟩ x; exact ⟨m, n, rfl⟩
  arithmeticFlags := by rintro s _ ⟨m, n, rfl⟩ o; exact ⟨m, n, rfl⟩
  jump := by rintro s _ ⟨m, n, rfl⟩ a; exact ⟨m, n, rfl⟩
  link := by rintro s _ ⟨m, n, rfl⟩ a; exact ⟨m, n, rfl⟩
  halt := by rintro s _ ⟨m, n, rfl⟩; exact ⟨m, n, rfl⟩
  store := by rintro s _ ⟨m, n, rfl⟩ ea v; exact ⟨_, n, rfl⟩

/-- No execution writes the instruction memory (log 10). -/
theorem exec_imem {i : Instr} (h : exec i s = .next t) : t.imem = s.imem := by
  obtain hsame | ⟨ea, v, -, hsame⟩ := exec_next_memory h
  · exact hsame.imem
  · exact hsame.imem

/-- An execution other than of a `store` keeps all memory. -/
theorem exec_memoryKept {i : Instr} (hs : isStore i = false) (h : exec i s = .next t) : MemoryKept s t := by
  cases hh : isHalt i with
  | true => rw [exec_halt_next hh h]; exact ⟨fun _ => rfl, fun _ => rfl, rfl⟩
  | false => exact (exec_changesOnly hs hh h).onlyRegisters.memory

/-- Settles O25: what an execution writes by `exec_memoryKept`, what it reads by noninterference of the memories. -/
theorem whoReadsAndWritesMemory : Obligations.WhoReadsAndWritesMemory := by
  intro i s t h
  refine ⟨fun hs => exec_memoryKept hs h, fun k => by rw [exec_imem h], fun hl m n => ?_⟩
  have hrel := eqUpToMemories_respected.exec (s := s) ⟨m, n, rfl⟩ (i := i) (fun _ _ => trivial) (fun _ _ => trivial)
    rfl (fun _ => rfl) (fun hload => absurd hload (by simp [hl]))
  rw [h] at hrel
  generalize exec i { s with mem := m, imem := n } = o at hrel
  obtain ⟨m', n', rfl⟩ := hrel
  exact ⟨_, rfl, rfl⟩

/-! ### SP set aside -/

/-- The second state is the first with `v` in SP. -/
def EqWithSp (v : Word) (s s' : State) : Prop := s' = { s with sp := v }

theorem eqWithSp_respected (v : Word) : Respected (EqWithSp v) (· ≠ .sp) (· ≠ .sp) where
  params := by rintro s _ rfl; rfl
  lr := by rintro s _ rfl; rfl
  pc := by rintro s _ rfl; rfl
  read := by
    rintro s _ r rfl hr
    cases r with
    | sp => exact absurd rfl hr
    | _ => rfl
  write := by
    rintro s _ r rfl hr x
    cases r with
    | sp => exact absurd rfl hr
    | _ => rfl
  logicalFlags := by rintro s _ rfl x; rfl
  arithmeticFlags := by rintro s _ rfl o; rfl
  jump := by rintro s _ rfl a; rfl
  link := by rintro s _ rfl a; rfl
  halt := by rintro s _ rfl; rfl
  store := by rintro s _ rfl ea x; rfl

theorem withSp_of_related {v : Word} {o o' : Outcome} (h : OutcomesRelated (EqWithSp v) o o') : o' = withSp v o := by
  cases h with
  | next h => exact congrArg Host.Outcome.next h
  | fault f => rfl
  | refused r => rfl

theorem readRegisters_subset (i : Instr) : readRegisters i ⊆ namedRegisters i := by
  cases i <;> simp [readRegisters, namedRegisters]

theorem namedWrites_subset (i : Instr) : namedWrites i ⊆ namedRegisters i := by
  cases i with
  | loadOff c wb off ra rd | loadShift c wb sh ra rd | storeOff c wb off ra rd | storeShift c wb sh ra rd =>
    cases wb <;> simp [namedWrites, namedRegisters]
  | _ => simp [namedWrites, namedRegisters]

/-- Settles O46: SP is among the registers an execution may change only where a written field names it, and where no
field names it the execution respects the relation that sets SP aside. -/
theorem stackPointerHasNoImplicitUse : Obligations.StackPointerHasNoImplicitUse := by
  refine ⟨fun i s t h hn => exec_registersKept h .sp (by simp [writtenRegisters, hn]), fun i s v hn => ?_⟩
  refine withSp_of_related ((eqWithSp_respected v).exec rfl ?_ ?_ rfl (fun _ => rfl) fun _ => rfl)
  · exact fun r hr e => hn (e ▸ readRegisters_subset i hr)
  · exact fun r hr e => hn (e ▸ namedWrites_subset i hr)

/-! ### The CPSR set aside -/

/-- The states differ in nothing but the CPSR. -/
def EqUpToCpsr (s s' : State) : Prop := ∃ x, s' = { s with cpsr := x }

theorem eqUpToCpsr_respected : Respected EqUpToCpsr (· ≠ .cpsr) (fun _ => True) where
  params := by rintro s _ ⟨x, rfl⟩; rfl
  lr := by rintro s _ ⟨x, rfl⟩; rfl
  pc := by rintro s _ ⟨x, rfl⟩; rfl
  read := by
    rintro s _ r ⟨x, rfl⟩ hr
    cases r with
    | cpsr => exact absurd rfl hr
    | _ => rfl
  write := by rintro s _ r ⟨x, rfl⟩ - v; cases r <;> exact ⟨_, rfl⟩
  logicalFlags := by rintro s _ ⟨x, rfl⟩ y; exact ⟨_, rfl⟩
  arithmeticFlags := by rintro s _ ⟨x, rfl⟩ o; exact ⟨_, rfl⟩
  jump := by rintro s _ ⟨x, rfl⟩ a; exact ⟨x, rfl⟩
  link := by rintro s _ ⟨x, rfl⟩ a; exact ⟨x, rfl⟩
  halt := by rintro s _ ⟨x, rfl⟩; exact ⟨x, rfl⟩
  store := by rintro s _ ⟨x, rfl⟩ ea v; exact ⟨x, rfl⟩

theorem forgetCpsr_of_related {o o' : Outcome} (h : OutcomesRelated EqUpToCpsr o o') :
    forgetCpsr o' = forgetCpsr o := by
  cases h with
  | next h => obtain ⟨x, rfl⟩ := h; rfl
  | fault f => rfl
  | refused r => rfl

theorem cpsr_not_mem_op1Registers {a : Op1} (ha : a.wf = true) : Reg.cpsr ∉ op1Registers a := by
  cases a with
  | imm k => exact List.not_mem_nil
  | reg r => simpa [op1Registers] using (ne_cpsr_of_fourBit ha).symm

/-- A 4-bit field cannot name the CPSR, so a well-formed instruction reads it only through the fields that `readsFlags`
lists (10_state.md R21, R34 (c)). -/
theorem cpsr_not_mem_readRegisters {p : Params} {i : Instr} (hwf : i.wf p = true) (hf : readsFlags i = false) :
    Reg.cpsr ∉ readRegisters i := by
  have ne {r : Reg} (h : r.fourBit = true) : Reg.cpsr ≠ r := (ne_cpsr_of_fourBit h).symm
  cases i with
  | loadOff c wb off ra rd | loadShift c wb sh ra rd =>
    simp only [Instr.wf, Bool.and_eq_true] at hwf
    simp [readRegisters, ne hwf.1]
  | storeOff c wb off ra rs | storeShift c wb sh ra rs =>
    simp only [Instr.wf] at hwf
    simp only [readsFlags, beq_eq_false_iff_ne] at hf
    simp [readRegisters, ne hwf, hf.symm]
  | and c a rm sh rd | eor c a rm sh rd | sub c a rm sh rd | rsb c a rm sh rd | add c a rm sh rd | adc c a rm sh rd
  | sbc c a rm sh rd | rsc c a rm sh rd | orr c a rm sh rd | bic c a rm sh rd =>
    simp only [Instr.wf, Bool.and_eq_true] at hwf
    obtain ⟨⟨ha, hrm⟩, -⟩ := hwf
    simp [readRegisters, ne hrm, cpsr_not_mem_op1Registers ha]
  | tst c a rm | teq c a rm | cmp c a rm | cmn c a rm =>
    simp only [Instr.wf, Bool.and_eq_true] at hwf
    simp [readRegisters, ne hwf.2, cpsr_not_mem_op1Registers hwf.1]
  | mvn c rm sh rd =>
    simp only [Instr.wf, Bool.and_eq_true] at hwf
    simp [readRegisters, ne hwf.1]
  | movImm c high imm rd => simpa [readRegisters] using ne hwf
  | movReg c sh rs rd =>
    simp only [readsFlags, beq_eq_false_iff_ne] at hf
    simp [readRegisters, hf.symm]
  | jumpRegOff c rs | jumpRegAbs c rs | jumplRegOff c rs | jumplRegAbs c rs => simpa [readRegisters] using ne hwf
  | jumpImm | jumplImm | ret | pass | halt | retSpecial => exact List.not_mem_nil

/-- Settles O39: with condition `AL` and no carry used, an instruction that does not read the CPSR respects the relation
that sets it aside. -/
theorem nothingElseReadsTheFlags : Obligations.NothingElseReadsTheFlags := by
  intro i s x hwf hal hf
  have hcarry : usesCarry i = false := by
    cases i with
    | adc | sbc | rsc => contradiction
    | _ => rfl
  refine forgetCpsr_of_related
    (eqUpToCpsr_respected.exec ⟨x, rfl⟩ ?_ (fun _ _ => trivial) (by rw [hal]; rfl) ?_ fun _ => rfl)
  · exact fun r hr e => cpsr_not_mem_readRegisters hwf hf (e ▸ hr)
  · exact fun h => absurd h (by simp [hcarry])

end Sys2Proof.Machine
end

section
/-! SUPPORT. A step followed through its fetch: where the fetch stops, the words without a meaning, the failed condition
and the fault (60_exceptions.md R196; 00_scope.md R13, R14). -/

namespace Sys2Proof.Machine

variable {s t : State} {w : Word}

/-! ### The outcomes of a step by what is fetched -/

theorem aligned_iff {p : Params} {a : Word} : aligned p a = true ↔ a.toNat % p.wordUnits = 0 := by
  simp [aligned]

/-- A refused fetch is the refusal of the step (60_exceptions.md R196 (1), (2)). -/
theorem step_of_fetch_error {r : Refusal} (hrun : s.halted = false) (hf : s.fetch = .error r) :
    step s = .refused r := by
  simp [step, hrun, hf]

theorem step_of_fetch_unspecified {why : EncodingReason} (hrun : s.halted = false) (hf : s.fetch = .ok w)
    (hd : decode s.params w = .unspecified why) : step s = .refused (.encoding why) := by
  simp [step, State.runWord, hrun, hf, hd]

theorem step_of_fetch_invalid_failed {c : Cond} (hrun : s.halted = false) (hf : s.fetch = .ok w)
    (hd : decode s.params w = .invalid c) (hc : s.conditionPassed c = false) :
    step s = .refused .invalidWordConditionFalse := by
  simp [step, State.runWord, hrun, hf, hd, hc]

/-! ### The statements -/

/-- Settles O12: the four conditions are those under which the fetch succeeds. -/
theorem stepRunsTheDecodedInstruction : Obligations.StepRunsTheDecodedInstruction := by
  intro s i hrun halign hpop hex hd
  exact step_of_fetch_valid hrun (fetch_ok.mpr ⟨halign, hpop, hex, rfl⟩) hd

/-- Settles O11: the execution changes nothing, so the step ends in the advanced state. -/
theorem failedConditionOnlyAdvancesThePc : Obligations.FailedConditionOnlyAdvancesThePc := by
  intro s w i hrun hf hd hc
  have hstep : step s = .next s.advance :=
    (step_of_fetch_valid hrun hf hd).trans (exec_of_condition_failed ((advance_conditionPassed _).trans hc))
  exact ⟨s.advance, hstep, advance_pc s, onlyRegisters_advance⟩

/-- Settles O15: the fault of a step holds the advanced state. -/
theorem faultLeavesOnlyThePcAdvanced : Obligations.FaultLeavesOnlyThePcAdvanced := by
  intro s t a w h
  obtain ⟨-, w', c, hf, -, -, heq⟩ := step_eq_fault.mp h
  cases heq
  exact ⟨rfl, hf, advance_pc s, onlyRegisters_advance⟩

/-- Settles O16: the fetch makes its checks in this order, each only when those before it have passed. -/
theorem fetchStopsInOrder : Obligations.FetchStopsInOrder := by
  intro s hrun
  simp only [← aligned_iff, Ne, Bool.not_eq_true]
  refine ⟨fun ha => step_of_fetch_error hrun ?misaligned, fun ha hp => step_of_fetch_error hrun ?unpopulated,
    fun ha hp hst hco => step_of_fetch_error hrun ?storedTo⟩
  case misaligned => simp [State.fetch, ha]
  case unpopulated => simp [State.fetch, ha, hp]
  case storedTo =>
    have hlift : (s.params.unified && s.params.coherentFetch) = false := by simpa using hco
    simp [State.fetch, State.fetchExcluded, ha, hp, hst, hlift]

/-- Settles O17: the decoder's answer decides the refusal. -/
theorem wordsWithoutMeaningAreRefused : Obligations.WordsWithoutMeaningAreRefused := fun _ _ hrun hf =>
  ⟨fun _ hd => step_of_fetch_unspecified hrun hf hd, fun _ hd hc => step_of_fetch_invalid_failed hrun hf hd hc⟩

end Sys2Proof.Machine
end

section
/-! SUPPORT. `load` and `store` executed with their condition met: the completed access with its frame, the refusals in
their order, and a store followed by a load (40_data_movement.md R100 to R103; 20_memory.md R53). -/

namespace Sys2Proof.Machine

variable {s t : State} {c : Cond} {wb : Bool} {ea : Word} {ra : Reg}

/-! ### The checks of a data access, in their order -/

theorem dataCheck_misaligned (ha : aligned s.params ea = false) : s.dataCheck ea = some .misalignedAccess := by
  simp [State.dataCheck, ha]

theorem dataCheck_unpopulated (ha : aligned s.params ea = true) (hp : populatedAt s.params ea = false) :
    s.dataCheck ea = some .unpopulatedAddress := by
  simp [State.dataCheck, ha, hp]

theorem dataCheck_programText (ha : aligned s.params ea = true) (hp : populatedAt s.params ea = true)
    (hx : dataExcluded s.params ea = true) : s.dataCheck ea = some .programTextAccess := by
  simp [State.dataCheck, ha, hp, hx]

/-- The program text is closed to data when the memory is not unified (20_memory.md R63; log 10). -/
theorem dataExcluded_iff {p : Params} :
    dataExcluded p ea = true ↔ p.unified = false ∧ touchesWord p.text p ea = true := by
  simp [dataExcluded]

/-! ### `load` -/

/-- The body of `load` in any form: the frame by `changesOnly_loadFrom`, the values by the order of the two writes. -/
theorem loadCompletes_of_exec {i : Instr} {rd : Reg} (hexec : exec i s = s.loadFrom wb ea ra rd) (ha : ra ≠ .cpsr)
    (hrd : rd ≠ .cpsr) (hown : ¬ (wb = true ∧ rd = ra)) (hd : s.dataCheck ea = none) :
    LoadCompletes i s wb ea ra rd := by
  have hnext := loadFrom_next.mpr ⟨hown, hd, rfl⟩
  refine ⟨_, hexec.trans hnext, readReg_writeReg_self _ hrd _, fun hwb => ?_,
    (changesOnly_loadFrom hnext).onlyRegisters⟩
  rw [readReg_address_of_loadFrom ha (fun e => hown ⟨hwb, e⟩) hnext, if_pos hwb]

/-- Settles O20: both forms are the one body at their effective addresses. -/
theorem loadResultAndFrame : Obligations.LoadResultAndFrame := fun _ _ _ _ _ hc ha hrd hown =>
  ⟨fun _ hd => loadCompletes_of_exec (onCondition_pass hc _) ha hrd hown hd,
    fun _ hd => loadCompletes_of_exec (onCondition_pass hc _) ha hrd hown hd⟩

/-! ### `store` -/

/-- The body of `store` in any form: one word written and the address listed, then the write-back of a register. -/
theorem storeCompletes_of_exec {i : Instr} {rs : Reg} (hexec : exec i s = s.storeTo wb ea ra rs) (ha : ra ≠ .cpsr)
    (hd : s.dataCheck ea = none) : StoreCompletes i s wb ea ra rs := by
  have hnext := (storeTo_next (wb := wb) (ra := ra) (rs := rs)).mpr ⟨hd, rfl⟩
  have hback := changesOnly_writeBack (s.withStored ea (s.readReg rs)) wb ra ea
  refine ⟨_, hexec.trans hnext, ?word, fun k hk => ?bytes, fun k => by rw [writeBack_imem], fun a => ?stored,
    fun hwb => ?address, fun r hr => ?registers, hback.halted, hback.params⟩
  case word => rw [writeBack_mem, Memory.readWord_writeWord_self]
  case bytes => rw [writeBack_mem, Memory.get_writeWord_outside _ _ _ _ _ hk]
  case stored => rw [writeBack_stored, mem_addStored]
  case address => rw [readReg_address_of_storeTo ha hnext, if_pos hwb]
  case registers => exact (hback.registers r hr).trans (readReg_withStored ..)

/-- Settles O21: both forms are the one body at their effective addresses. -/
theorem storeResultAndFrame : Obligations.StoreResultAndFrame := fun _ _ _ _ _ hc ha =>
  ⟨fun _ hd => storeCompletes_of_exec (onCondition_pass hc _) ha hd,
    fun _ hd => storeCompletes_of_exec (onCondition_pass hc _) ha hd⟩

/-! ### Where they stop -/

/-- Settles O23: both forms are refused as their body is, which is by the own-address check or by the checks of the
address. -/
theorem dataAccessStops : Obligations.DataAccessStops := by
  intro s c wb off sh ra r hc
  refine ⟨fun hwb hr => ?own, fun why hd => ?offset, fun why hd => ?shift, fun ea => ?checks⟩
  case own =>
    exact ⟨(onCondition_pass hc _).trans (loadFrom_refused.mpr (.inl ⟨hwb, hr, rfl⟩)),
      (onCondition_pass hc _).trans (loadFrom_refused.mpr (.inl ⟨hwb, hr, rfl⟩))⟩
  case offset =>
    exact ⟨(onCondition_pass hc _).trans (storeTo_refused.mpr hd),
      fun hown => (onCondition_pass hc _).trans (loadFrom_refused.mpr (.inr ⟨hown, hd⟩))⟩
  case shift =>
    exact ⟨(onCondition_pass hc _).trans (storeTo_refused.mpr hd),
      fun hown => (onCondition_pass hc _).trans (loadFrom_refused.mpr (.inr ⟨hown, hd⟩))⟩
  case checks =>
    simp only [← aligned_iff, ← dataExcluded_iff, Ne, Bool.not_eq_true]
    refine ⟨dataCheck_misaligned, dataCheck_unpopulated, fun ha hp hu ht => ?_, fun ha hp hx => ?_⟩
    · exact dataCheck_programText ha hp (dataExcluded_iff.mpr ⟨hu, ht⟩)
    · exact dataCheck_none.mpr ⟨ha, hp, hx⟩

/-! ### A store, then a load -/

/-- `load` in shift form with its condition met, at an address that passes the checks (40_data_movement.md R101). -/
theorem exec_loadShift_of_pass (h : s.conditionPassed c = true) {sh : Shift} {rd : Reg}
    (hown : ¬ (wb = true ∧ rd = ra)) (hd : s.dataCheck (s.shiftAddress ra sh) = none) :
    exec (.loadShift c wb sh ra rd) s = .next ((s.writeBack wb ra (s.shiftAddress ra sh)).writeReg rd
      (Memory.readWord s.mem s.params (s.shiftAddress ra sh))) :=
  (onCondition_pass h _).trans (loadFrom_next.mpr ⟨hown, hd, rfl⟩)

/-- Settles O24: without write-back the store changes no register, so the load's address is that of the old state, and
two aligned words are the same or do not meet. -/
theorem storeThenLoad : Obligations.StoreThenLoad := by
  intro s ra rb rs rd _ _ hrd hda hdb
  let t := s.withStored (s.readReg ra) (s.readReg rs)
  have hstore : exec (.storeShift .al false ⟨.rol, 0⟩ ra rs) s = .next t := exec_storeShift_of_pass rfl false hda rs
  have haddr : t.shiftAddress rb ⟨.rol, 0⟩ = s.readReg rb := readReg_withStored _ _ rb
  have hload : exec (.loadShift .al false ⟨.rol, 0⟩ rb rd) t =
      .next (t.writeReg rd (Memory.readWord t.mem s.params (s.readReg rb))) := by
    rw [exec_loadShift_of_pass rfl (by simp) (haddr ▸ hdb), haddr]
    rfl
  refine ⟨t, _, hstore, hload, (readReg_writeReg_self _ hrd _).trans ?_⟩
  split
  · rename_i heq
    rw [← heq]
    exact Memory.readWord_writeWord_self ..
  · rename_i hne
    exact Memory.readWord_writeWord_of_ne _ _ (dataCheck_none.mp hda).1 (dataCheck_none.mp hdb).1 (Ne.symm hne)

end Sys2Proof.Machine
end

section
/-! SUPPORT. The shifts as the bit vector library's, and the adder's carry and overflow in the unsigned and the signed
values of its operands (00_scope.md R10, R11). -/

namespace Sys2Proof.Machine

/-! ### Shifts -/

theorem applyShift_lsl (n : BitVec 6) (v : Word) : applyShift ⟨.lsl, n⟩ v = v <<< n.toNat := by
  apply BitVec.eq_of_toNat_eq
  simp [applyShift, BitVec.toNat_shiftLeft, Nat.shiftLeft_eq]

theorem applyShift_lsr (n : BitVec 6) (v : Word) : applyShift ⟨.lsr, n⟩ v = v >>> n.toNat := by
  apply BitVec.eq_of_toNat_eq
  have hlt : v.toNat / 2 ^ n.toNat < 2 ^ 32 := lt_of_le_of_lt (Nat.div_le_self _ _) v.isLt
  simp only [applyShift, BitVec.toNat_ofNat, BitVec.toNat_ushiftRight, Nat.shiftRight_eq_div_pow, Nat.mod_eq_of_lt hlt]

theorem applyShift_asr (n : BitVec 6) (v : Word) : applyShift ⟨.asr, n⟩ v = v.sshiftRight n.toNat := by
  simp [applyShift, BitVec.sshiftRight, Int.shiftRight_eq_div_pow]

theorem applyShift_rol (n : BitVec 6) (v : Word) : applyShift ⟨.rol, n⟩ v = v.rotateLeft n.toNat := by
  have hleft (m : Nat) : BitVec.ofNat 32 (v.toNat * 2 ^ m) = v <<< m :=
    BitVec.eq_of_toNat_eq (by simp [Nat.shiftLeft_eq])
  have hright (m : Nat) : BitVec.ofNat 32 (v.toNat / 2 ^ m) = v >>> m := by
    apply BitVec.eq_of_toNat_eq
    have hlt : v.toNat / 2 ^ m < 2 ^ 32 := lt_of_le_of_lt (Nat.div_le_self _ _) v.isLt
    simp only [BitVec.toNat_ofNat, BitVec.toNat_ushiftRight, Nat.shiftRight_eq_div_pow, Nat.mod_eq_of_lt hlt]
  simp only [applyShift, rotateLeft, hleft, hright, BitVec.rotateLeft, BitVec.rotateLeftAux]
  split
  · rename_i h0
    simp [h0, BitVec.ushiftRight_eq_zero]
  · rfl

/-- Settles O36: the four shifts are the library's, whose bits the library gives. -/
theorem shiftedBits : Obligations.ShiftedBits := by
  intro n v i hi
  have hn := n.isLt
  refine ⟨?rol, ?lsl, ?lsr, ?asr⟩
  case rol =>
    rw [applyShift_rol, BitVec.getLsbD_rotateLeft]
    by_cases h : i < n.toNat % 32
    · rw [show (i + 64 - n.toNat) % 32 = 32 - n.toNat % 32 + i by omega]
      simp [h]
    · rw [show (i + 64 - n.toNat) % 32 = i - n.toNat % 32 by omega]
      simp [h, hi]
  case lsl =>
    rw [applyShift_lsl, BitVec.getLsbD_shiftLeft]
    simp only [hi, decide_true, Bool.true_and]
    by_cases h : n.toNat ≤ i <;> simp [h]
  case lsr =>
    rw [applyShift_lsr, BitVec.getLsbD_ushiftRight, Nat.add_comm]
    by_cases h : i + n.toNat < 32
    · simp [h]
    · simp [h, BitVec.getLsbD_of_ge v (i + n.toNat) (by omega)]
  case asr =>
    rw [applyShift_asr, BitVec.getLsbD_sshiftRight, BitVec.msb_eq_getLsbD_last]
    by_cases h : i + n.toNat < 32
    · rw [min_eq_left (by omega)]
      simp [hi, h, Nat.add_comm n.toNat]
    · rw [min_eq_right (by omega)]
      simp [hi, h, Nat.add_comm n.toNat]

/-! ### The adder -/

theorem addWithCarry_res (a b : Word) (k : Bool) : (addWithCarry a b k).res = a + b + BitVec.ofNat 32 k.toNat := by
  apply BitVec.eq_of_toNat_eq
  simp [addWithCarry, BitVec.toNat_add]

/-- Adding the complement subtracts, one too much without a carry (41_data_processing.md R121). -/
theorem addWithCarry_not_res (a b : Word) (k : Bool) :
    (addWithCarry a (~~~b) k).res = a - b + BitVec.ofNat 32 k.toNat - 1 := by
  rw [addWithCarry_res, BitVec.not_eq_neg_add, BitVec.sub_eq_add_neg a b, show (1 : Word) = 1#32 from rfl]
  ring

theorem addWithCarry_cout (a b : Word) (k : Bool) :
    (addWithCarry a b k).cout = decide (2 ^ 32 ≤ a.toNat + b.toNat + k.toNat) := rfl

/-- The carry out of adding the complement is "no borrow" (41_data_processing.md R122). -/
theorem addWithCarry_not_cout (a b : Word) (k : Bool) :
    (addWithCarry a (~~~b) k).cout = decide (b.toNat + 1 ≤ a.toNat + k.toNat) := by
  rw [addWithCarry_cout, decide_eq_decide, BitVec.toNat_not]
  omega

/-- The result read as a signed number differs from the exact sum exactly when that does not fit 32 bits. -/
theorem addWithCarry_ovf (a b : Word) (k : Bool) :
    (addWithCarry a b k).ovf = signedOverflow (a.toInt + b.toInt + k.toNat) := by
  have ha := a.isLt
  have hb := b.isLt
  have hk := k.toNat_lt
  simp only [addWithCarry, signedOverflow, decide_eq_decide, BitVec.toInt_eq_toNat_cond, BitVec.toNat_ofNat]
  omega

theorem toInt_not_word (b : Word) : (~~~b).toInt = -b.toInt - 1 := by
  have hb := b.isLt
  simp only [BitVec.toInt_eq_toNat_cond, BitVec.toNat_not]
  omega

theorem addWithCarry_not_ovf (a b : Word) (k : Bool) :
    (addWithCarry a (~~~b) k).ovf = signedOverflow (a.toInt - b.toInt + k.toNat - 1) := by
  rw [addWithCarry_ovf, toInt_not_word]
  congr 1
  omega

/-- Overflow seen in the signs: equal signs gave another (41_data_processing.md R122). -/
theorem addWithCarry_ovf_iff_msb (a b : Word) (k : Bool) :
    (addWithCarry a b k).ovf = true ↔ a.msb = b.msb ∧ (addWithCarry a b k).res.msb ≠ a.msb := by
  have ha := a.isLt
  have hb := b.isLt
  have hk := k.toNat_lt
  simp only [addWithCarry, decide_eq_true_eq, BitVec.msb_eq_decide, BitVec.toInt_eq_toNat_cond,
    BitVec.toNat_ofNat, decide_eq_decide, Ne]
  omega

/-- Settles O37: the sums by `addWithCarry_res`, the differences by `addWithCarry_not_res`, the overflow by the
signs. -/
theorem adderGivesTheSourceExpressions : Obligations.AdderGivesTheSourceExpressions := by
  intro a b k
  refine ⟨?sum, ?difference, addWithCarry_res a b k, addWithCarry_not_res a b k, ?carry, addWithCarry_ovf_iff_msb a b k⟩
  case sum => rw [addWithCarry_res]; exact BitVec.add_zero _
  case difference => rw [addWithCarry_not_res]; exact BitVec.add_sub_cancel _ _
  case carry => rw [addWithCarry_cout, decide_eq_true_eq]

end Sys2Proof.Machine
end

section
/-! SUPPORT. Data processing executed with its condition met: result, flags and frame of each kind of instruction, and
the conditions after a compare (41_data_processing.md R120 to R141). -/

namespace Sys2Proof.Machine

variable {s : State} {c : Cond} {i : Instr}

/-! ### The adder as the sums and differences of the source -/

theorem addWithCarry_sum (a b : Word) (k : Bool) : addWithCarry a b k =
    ⟨a + b + BitVec.ofNat 32 k.toNat, decide (2 ^ 32 ≤ a.toNat + b.toNat + k.toNat),
      signedOverflow (a.toInt + b.toInt + k.toNat)⟩ := by
  rw [← addWithCarry_res, ← addWithCarry_cout, ← addWithCarry_ovf]

theorem addWithCarry_difference (a b : Word) (k : Bool) : addWithCarry a (~~~b) k =
    ⟨a - b + BitVec.ofNat 32 k.toNat - 1, decide (b.toNat + 1 ≤ a.toNat + k.toNat),
      signedOverflow (a.toInt - b.toInt + k.toNat - 1)⟩ := by
  rw [← addWithCarry_not_res, ← addWithCarry_not_cout, ← addWithCarry_not_ovf]

theorem addWithCarry_add (a b : Word) : addWithCarry a b false =
    ⟨a + b, decide (2 ^ 32 ≤ a.toNat + b.toNat), signedOverflow (a.toInt + b.toInt)⟩ := by
  simp [addWithCarry_sum]

theorem addWithCarry_sub (a b : Word) : addWithCarry a (~~~b) true =
    ⟨a - b, decide (b.toNat ≤ a.toNat), signedOverflow (a.toInt - b.toInt)⟩ := by
  simp [addWithCarry_difference]

/-! ### The writes of each kind of instruction -/

theorem completesWithResult_logical {rd : Reg} {sh : Shift} {res : Word} (hl : s.params.layout.wf = true)
    (hrd : rd ≠ .cpsr) (hexec : exec i s = s.finishLogical res sh rd) :
    CompletesWithResult i s rd (applyShift sh res) res.msb (decide (res = 0)) s.flagC s.flagV :=
  ⟨_, hexec, readReg_writeShifted_self _ hrd sh res,
    (setLogicalFlags_flags hl res).congr (writeReg_cpsr_of_ne _ hrd _) (writeReg_params ..),
    (changesOnly_finishLogical rfl).onlyRegisters⟩

theorem completesWithResult_arithmetic {rd : Reg} {sh : Shift} {o : AddOut} (hl : s.params.layout.wf = true)
    (hrd : rd ≠ .cpsr) (hexec : exec i s = s.finishArithmetic o sh rd) :
    CompletesWithResult i s rd (applyShift sh o.res) o.res.msb (decide (o.res = 0)) o.cout o.ovf :=
  ⟨_, hexec, readReg_writeShifted_self _ hrd sh o.res,
    (setArithmeticFlags_flags hl o).congr (writeReg_cpsr_of_ne _ hrd _) (writeReg_params ..),
    (changesOnly_finishArithmetic rfl).onlyRegisters⟩

theorem completesWithFlags_logical {res : Word} (hl : s.params.layout.wf = true)
    (hexec : exec i s = .next (s.setLogicalFlags res)) :
    CompletesWithFlags i s res.msb (decide (res = 0)) s.flagC s.flagV :=
  ⟨_, hexec, setLogicalFlags_flags hl res, (changesOnly_setLogicalFlags s res).onlyRegisters⟩

theorem completesWithFlags_arithmetic {o : AddOut} (hl : s.params.layout.wf = true)
    (hexec : exec i s = .next (s.setArithmeticFlags o)) :
    CompletesWithFlags i s o.res.msb (decide (o.res = 0)) o.cout o.ovf :=
  ⟨_, hexec, setArithmeticFlags_flags hl o, (changesOnly_setArithmeticFlags s o).onlyRegisters⟩

/-! ### Results and flags -/

/-- Settles O26: the five share the writes of a logical instruction. -/
theorem logicalResultAndFlags : Obligations.LogicalResultAndFlags := by
  intro s c a rm sh rd hl hc hrd x y completes
  have each {i : Instr} {res : Word} (hexec : exec i s = s.onCondition c (s.finishLogical res sh rd)) :
      completes i res :=
    completesWithResult_logical hl hrd (hexec.trans (onCondition_pass hc _))
  exact ⟨each rfl, each rfl, each rfl, each rfl, each rfl⟩

/-- Settles O27: the adder without and with the carry. -/
theorem additionResultAndFlags : Obligations.AdditionResultAndFlags := by
  intro s c a rm sh rd hl hc hrd x y k completes
  have hadd := completesWithResult_arithmetic (i := .add c a rm sh rd) hl hrd (onCondition_pass hc _)
  have hadc := completesWithResult_arithmetic (i := .adc c a rm sh rd) hl hrd (onCondition_pass hc _)
  rw [addWithCarry_add] at hadd
  rw [addWithCarry_sum] at hadc
  exact ⟨hadd, hadc⟩

/-- Settles O28: the adder on the complement with carry 1, for the two orders of the operands. -/
theorem subtractionResultAndFlags : Obligations.SubtractionResultAndFlags := by
  intro s c a rm sh rd hl hc hrd x y completes
  have hsub := completesWithResult_arithmetic (i := .sub c a rm sh rd) hl hrd (onCondition_pass hc _)
  have hrsb := completesWithResult_arithmetic (i := .rsb c a rm sh rd) hl hrd (onCondition_pass hc _)
  rw [addWithCarry_sub] at hsub hrsb
  exact ⟨hsub, hrsb⟩

/-- Settles O29: the adder on the complement with the carry as it stood, for the two orders of the operands. -/
theorem subtractionWithCarryResultAndFlags : Obligations.SubtractionWithCarryResultAndFlags := by
  intro s c a rm sh rd hl hc hrd x y k completes
  have hsbc := completesWithResult_arithmetic (i := .sbc c a rm sh rd) hl hrd (onCondition_pass hc _)
  have hrsc := completesWithResult_arithmetic (i := .rsc c a rm sh rd) hl hrd (onCondition_pass hc _)
  rw [addWithCarry_difference] at hsbc hrsc
  exact ⟨hsbc, hrsc⟩

theorem word_xor_eq_zero {x y : Word} : x ^^^ y = 0 ↔ x = y := BitVec.xor_eq_zero_iff

theorem word_sub_eq_zero {x y : Word} : x - y = 0 ↔ x = y := sub_eq_zero

theorem word_add_eq_zero {x y : Word} : x + y = 0 ↔ x = -y := eq_neg_iff_add_eq_zero.symm

/-- Settles O30: the flags of the four results, which are zero when the operands are equal or opposite. -/
theorem comparingInstructionsWriteOnlyFlags : Obligations.ComparingInstructionsWriteOnlyFlags := by
  intro s c a rm hl hc x y
  have htst := completesWithFlags_logical (i := .tst c a rm) hl (onCondition_pass hc _)
  have hteq := completesWithFlags_logical (i := .teq c a rm) hl (onCondition_pass hc _)
  have hcmp := completesWithFlags_arithmetic (i := .cmp c a rm) hl (onCondition_pass hc _)
  have hcmn := completesWithFlags_arithmetic (i := .cmn c a rm) hl (onCondition_pass hc _)
  rw [addWithCarry_sub] at hcmp
  rw [addWithCarry_add] at hcmn
  simp only [word_xor_eq_zero] at hteq
  simp only [word_sub_eq_zero] at hcmp
  simp only [word_add_eq_zero] at hcmn
  exact ⟨htst, hteq, hcmp, hcmn⟩

/-! ### Conditions after a compare -/

/-- N differs from V exactly when the exact difference is negative (30_encoding.md R72). -/
theorem sub_msb_ne_signedOverflow (x y : Word) :
    (x - y).msb ≠ signedOverflow (x.toInt - y.toInt) ↔ x.toInt < y.toInt := by
  have hx := x.isLt
  have hy := y.isLt
  simp only [signedOverflow, BitVec.msb_eq_decide, BitVec.toInt_eq_toNat_cond, BitVec.toNat_sub, Ne, decide_eq_decide]
  omega

/-- The conditions in a state whose flags are those of `x - y` (30_encoding.md R72). -/
theorem conditions_of_compare_flags {t : State} {x y : Word} (hn : t.flagN = (x - y).msb)
    (hz : t.flagZ = decide (x = y)) (hc : t.flagC = decide (y.toNat ≤ x.toNat))
    (hv : t.flagV = signedOverflow (x.toInt - y.toInt)) :
    t.conditionPassed .eq = decide (x = y) ∧ t.conditionPassed .ne = decide (x ≠ y) ∧
    t.conditionPassed .cs = decide (y.toNat ≤ x.toNat) ∧ t.conditionPassed .cc = decide (x.toNat < y.toNat) ∧
    t.conditionPassed .hi = decide (y.toNat < x.toNat) ∧ t.conditionPassed .ls = decide (x.toNat ≤ y.toNat) ∧
    t.conditionPassed .ge = decide (y.toInt ≤ x.toInt) ∧ t.conditionPassed .lt = decide (x.toInt < y.toInt) ∧
    t.conditionPassed .gt = decide (y.toInt < x.toInt) ∧ t.conditionPassed .le = decide (x.toInt ≤ y.toInt) := by
  have hlt : t.flagN ≠ t.flagV ↔ x.toInt < y.toInt := by
    rw [hn, hv]; exact sub_msb_ne_signedOverflow x y
  have hge : t.flagN = t.flagV ↔ y.toInt ≤ x.toInt := by
    rw [← not_iff_not, ← not_lt.not, not_not]; exact hlt
  have hnat : x = y ↔ x.toNat = y.toNat := BitVec.toNat_inj.symm
  have hint : x = y ↔ x.toInt = y.toInt := BitVec.toInt_inj.symm
  refine ⟨hz, ?ne, hc, ?cc, ?hi, ?ls, ?ge, ?lt, ?gt, ?le⟩
  all_goals
    rw [Bool.eq_iff_iff]
    simp only [State.conditionPassed, hz, hc, Bool.and_eq_true, Bool.or_eq_true, Bool.not_eq_true', decide_eq_true_eq,
      decide_eq_false_iff_not, beq_iff_eq, bne_iff_ne, hlt, hge]
  case cc => exact not_le
  case hi | ls => rw [hnat]; omega
  case gt | le => rw [hint]; omega

/-- Settles O31: the flags that `CMP` leaves, put into the conditions. -/
theorem conditionsAfterCompare : Obligations.ConditionsAfterCompare := by
  intro s a rm hl x y
  obtain ⟨-, -, ⟨t, hexec, hflags, -⟩, -⟩ := comparingInstructionsWriteOnlyFlags s .al a rm hl rfl
  exact ⟨t, hexec, conditions_of_compare_flags hflags.n hflags.z hflags.c hflags.v⟩

end Sys2Proof.Machine
end

section
/-! SUPPORT. `MOV`, the jumps and the special instructions executed with their condition met
(41_data_processing.md R137, R138; 42_control_flow.md R160 to R163; 43_special.md R181, R182). -/

namespace Sys2Proof.Machine

variable {s : State} {c : Cond} {i : Instr}

/-! ### `MOV` -/

theorem writeReg_writeReg (r : Reg) (v v' : Word) : (s.writeReg r v).writeReg r v' = s.writeReg r v' := by
  cases r with
  | r i => simp [State.writeReg, Vector.set_set]
  | _ => rfl

/-- The half that is written (41_data_processing.md R137). -/
theorem toNat_replaceHalf (high : Bool) (imm : BitVec 16) (old : Word) :
    (replaceHalf high imm old).toNat =
      if high then imm.toNat * 2 ^ 16 + old.toNat % 2 ^ 16 else old.toNat / 2 ^ 16 * 2 ^ 16 + imm.toNat := by
  have hold := old.isLt
  cases high
  · simp only [replaceHalf, Bool.false_eq_true, if_false, toNat_cat, BitVec.extractLsb'_toNat,
      Nat.shiftRight_eq_div_pow]
    omega
  · simp only [replaceHalf, if_true, toNat_cat, BitVec.extractLsb'_toNat, Nat.shiftRight_eq_div_pow]
    omega

theorem exec_movImm_of_pass (h : s.conditionPassed c = true) (high : Bool) (imm : BitVec 16) (rd : Reg) :
    exec (.movImm c high imm rd) s = .next (s.writeReg rd (replaceHalf high imm (s.readReg rd))) :=
  onCondition_pass h _

/-- An instruction whose execution is one register write completes with the value in it. -/
theorem completesWithRegister_of_exec_writeReg {r : Reg} {v : Word} (hr : r ≠ .cpsr)
    (h : exec i s = .next (s.writeReg r v)) : CompletesWithRegister i s r v :=
  ⟨_, h, readReg_writeReg_self s hr v, (changesOnly_writeReg s r v).onlyRegisters⟩

/-- Settles O32: one register write, whose value is the immediate beside the other half of the old one. -/
theorem movImmediateReplacesOneHalf : Obligations.MovImmediateReplacesOneHalf := by
  intro s c imm rd hc hrd
  have himm := imm.isLt
  refine ⟨⟨_, completesWithRegister_of_exec_writeReg hrd (exec_movImm_of_pass hc _ _ _), ?_⟩,
    ⟨_, completesWithRegister_of_exec_writeReg hrd (exec_movImm_of_pass hc _ _ _), ?_⟩⟩
  · simp only [toNat_replaceHalf, Bool.false_eq_true, if_false]; omega
  · simp only [toNat_replaceHalf, if_true]; omega

/-- The two halves of a value, moved in either order, give the value whatever stood there. -/
theorem replaceHalf_low_high (v old : Word) :
    replaceHalf true (v.extractLsb' 16 16) (replaceHalf false (v.extractLsb' 0 16) old) = v := by
  have hv := v.isLt
  apply BitVec.eq_of_toNat_eq
  simp only [toNat_replaceHalf, if_true, Bool.false_eq_true, if_false, BitVec.extractLsb'_toNat,
    Nat.shiftRight_eq_div_pow]
  omega

theorem replaceHalf_high_low (v old : Word) :
    replaceHalf false (v.extractLsb' 0 16) (replaceHalf true (v.extractLsb' 16 16) old) = v := by
  have hv := v.isLt
  apply BitVec.eq_of_toNat_eq
  simp only [toNat_replaceHalf, if_true, Bool.false_eq_true, if_false, BitVec.extractLsb'_toNat,
    Nat.shiftRight_eq_div_pow]
  omega

/-- Settles O33: the second write replaces the first, with both halves then those of the value. -/
theorem twoMovImmediatesSetTheWholeRegister : Obligations.TwoMovImmediatesSetTheWholeRegister := by
  intro s v rd hrd _
  refine ⟨⟨_, _, exec_movImm_of_pass rfl _ _ _, exec_movImm_of_pass rfl _ _ _, ?_⟩,
    ⟨_, _, exec_movImm_of_pass rfl _ _ _, exec_movImm_of_pass rfl _ _ _, ?_⟩⟩
  · rw [readReg_writeReg_self s hrd, writeReg_writeReg, replaceHalf_low_high]
  · rw [readReg_writeReg_self s hrd, writeReg_writeReg, replaceHalf_high_low]

/-- Settles O34: one register write, of which the CPSR keeps the low eight bits. -/
theorem movRegisterMovesTheShiftedSource : Obligations.MovRegisterMovesTheShiftedSource := by
  intro s c sh rs rd hc
  refine ⟨fun hrd => completesWithRegister_of_exec_writeReg hrd (exec_movReg_of_pass hc sh rs rd), ?_⟩
  rintro rfl
  refine ⟨_, exec_movReg_of_pass hc sh rs .cpsr, ?_, (changesOnly_writeReg s .cpsr _).onlyRegisters⟩
  rw [State.writeShifted, readReg_writeReg_cpsr]
  apply BitVec.eq_of_toNat_eq
  simp

/-! ### `jump` and `jumpl` -/

/-- Adding a word is adding its signed value mod 2^32 (00_scope.md R6). -/
theorem toNat_add_toInt (a b : Word) : ((a + b).toNat : Int) = (a.toNat + b.toInt) % 2 ^ 32 := by
  have hb := b.isLt
  simp only [BitVec.toNat_add, BitVec.toInt_eq_toNat_cond]
  omega

/-- Settles O40: each form is a jump to its target. -/
theorem jumpTargets : Obligations.JumpTargets := fun s _ hc =>
  ⟨fun off => ⟨_, completesWithRegister_of_exec_jumpTo (onCondition_pass hc _), toNat_add_signExtend s.pc off⟩,
    fun rs _ => ⟨_, completesWithRegister_of_exec_jumpTo (onCondition_pass hc _), toNat_add_toInt s.pc (s.readReg rs)⟩,
    fun _ _ => completesWithRegister_of_exec_jumpTo (onCondition_pass hc _)⟩

/-- Settles O41: each form is a jump with link to its target. -/
theorem jumplTargetsAndLink : Obligations.JumplTargetsAndLink := by
  intro s c hc links
  have links_of_exec {i : Instr} {a : Word} {target : Int} (hexec : exec i s = .next (s.linkAndJumpTo a))
      (ha : (a.toNat : Int) = target % 2 ^ 32) : links i target :=
    ⟨_, hexec, ha, rfl, (changesOnly_linkAndJumpTo s a).onlyRegisters⟩
  refine ⟨fun off => links_of_exec (onCondition_pass hc _) (toNat_add_signExtend s.pc off),
    fun rs _ => links_of_exec (onCondition_pass hc _) (toNat_add_toInt s.pc (s.readReg rs)),
    fun rs _ => links_of_exec (onCondition_pass hc _) ?_⟩
  exact (Int.emod_eq_of_lt (by omega) (by have := (s.readReg rs).isLt; omega)).symm

theorem exec_jumpl_of_pass (hj : isJumpl i = true) (hc : s.conditionPassed i.cond = true) :
    ∃ a, exec i s = .next (s.linkAndJumpTo a) := by
  cases i with
  | jumplImm | jumplRegOff | jumplRegAbs => exact ⟨_, onCondition_pass hc _⟩
  | _ => contradiction

/-- Settles O44: the link is the PC as it read, and the jump back puts it into the PC again. -/
theorem returnResumesAfterTheCall : Obligations.ReturnResumesAfterTheCall := by
  intro s t i hj hc h
  obtain ⟨a, hexec⟩ := exec_jumpl_of_pass hj hc
  cases hexec.symm.trans h
  refine ⟨_, exec_ret_of_pass rfl, rfl, fun r hr => ?_, ⟨fun _ => rfl, fun _ => rfl, rfl⟩, ⟨rfl, rfl⟩⟩
  by_cases hpc : r = .pc
  · subst hpc; rfl
  · rw [readReg_jumpTo _ hpc, readReg_linkAndJumpTo s (List.ne_of_not_mem_cons hr) hpc]

/-! ### The special instructions -/

/-- Settles O48: nothing is written but the bit. -/
theorem haltSetsHalted : Obligations.HaltSetsHalted := fun s _ hc =>
  ⟨{ s with halted := true }, onCondition_pass hc _, rfl, fun r _ => readReg_with_halted true r,
    ⟨fun _ => rfl, fun _ => rfl, rfl⟩, rfl⟩

/-- Settles O43: executed, the second `return` is a jump to LR; decoded, the parameter decides before the reserved field
is looked at. -/
theorem specialReturnFollowsItsParameter : Obligations.SpecialReturnFollowsItsParameter := by
  refine ⟨fun s c hc => completesWithRegister_of_exec_jumpTo (onCondition_pass hc _), fun p w c hc hk hop hz => ?_⟩
  rw [decode_special hc hk]
  cases hp : p.specialReturn <;> simp [decodeSpecial, hop, hz, hp]

end Sys2Proof.Machine
end

section
/-! SUPPORT. The words the decoder gives no instruction, class by class: the absent op-codes, the reserved fields, the
register codes, the CPSR as a `load` destination (30_encoding.md R90 to R92). -/

namespace Sys2Proof

open Machine (absentOpcode reservedBitSet badRegisterCode cpsrLoad)

variable {p : Params} {c e : Cond} {w : Word} {why : EncodingReason}

/-! ### The listed words of one class -/

theorem absentOpcode_dataMovement (hk : field w 27 26 = 0b00) : absentOpcode p w ↔ 2 ≤ (field w 25 24).toNat := by
  simp [absentOpcode, hk]

theorem absentOpcode_dataProcessing (hk : field w 27 26 = 0b01) : ¬ absentOpcode p w := by
  simp [absentOpcode, hk]

theorem absentOpcode_controlFlow (hk : field w 27 26 = 0b10) : absentOpcode p w ↔ field w 25 24 = 0b11 := by
  simp [absentOpcode, hk]

theorem absentOpcode_special (hk : field w 27 26 = 0b11) :
    absentOpcode p w ↔ 3 ≤ (field w 25 22).toNat ∨ field w 25 22 = 0b0010 ∧ p.specialReturn = .invalid := by
  simp [absentOpcode, hk]

/-! ### Invalid words -/

theorem decodeLoad_ne_invalid : decodeLoad c w ≠ .invalid e := by
  unfold decodeLoad
  repeat' split
  all_goals simp

theorem decodeStore_ne_invalid : decodeStore c w ≠ .invalid e := by
  unfold decodeStore
  repeat' split
  all_goals simp

theorem decodeDataMovement_invalid :
    decodeDataMovement c w = .invalid e ↔ c = e ∧ 2 ≤ (field w 25 24).toNat := by
  unfold decodeDataMovement
  split
  next hop => simp [hop, decodeLoad_ne_invalid]
  next hop => simp [hop, decodeStore_ne_invalid]
  next h0 h1 =>
    have hop : 2 ≤ (field w 25 24).toNat := by grind only
    simp [hop]

theorem decodeMov_ne_invalid : decodeMov c w ≠ .invalid e := by
  unfold decodeMov
  repeat' split
  all_goals simp

theorem decodeDataProcessing_ne_invalid : decodeDataProcessing c w ≠ .invalid e := by
  unfold decodeDataProcessing
  split
  case h_14 => exact decodeMov_ne_invalid
  all_goals exact nofun

theorem decodeJump_ne_invalid {link : Bool} : decodeJump link c w ≠ .invalid e := by
  unfold decodeJump
  repeat' split
  all_goals simp

theorem decodeControlFlow_invalid :
    decodeControlFlow c w = .invalid e ↔ c = e ∧ field w 25 24 = 0b11 := by
  unfold decodeControlFlow
  split
  next hop => simp [field_of_toNat hop, decodeJump_ne_invalid]
  next hop => simp [field_of_toNat hop, decodeJump_ne_invalid]
  next hop => split <;> simp [field_of_toNat hop]
  next h0 h1 h2 =>
    have hop : field w 25 24 = 0b11 := field_of_toNat (n := 3) (by have := (field w 25 24).isLt; grind only)
    simp [hop]

theorem decodeSpecial_invalid : decodeSpecial p c w = .invalid e ↔
    c = e ∧ (3 ≤ (field w 25 22).toNat ∨ field w 25 22 = 0b0010 ∧ p.specialReturn = .invalid) := by
  have hop2 : (field w 25 22).toNat = 2 ↔ field w 25 22 = 0b0010 := ⟨field_of_toNat, fun h => h ▸ rfl⟩
  simp only [decodeSpecial, ← hop2]
  repeat' split
  all_goals simp_all

/-- Settles O4: each class answers `invalid` exactly for the op-codes its table lacks. -/
theorem invalidWordsAreTheAbsentOpcodes : Obligations.InvalidWordsAreTheAbsentOpcodes := by
  intro p w e
  cases hc : Cond.ofCode (field w 31 28) with
  | none => simp [decode_of_no_condition hc]
  | some c =>
    rw [Option.some_inj]
    rcases class_cases (field w 27 26) with hk | hk | hk | hk
    · rw [decode_dataMovement hc hk, decodeDataMovement_invalid, absentOpcode_dataMovement hk]
    · simp [decode_dataProcessing hc hk, decodeDataProcessing_ne_invalid, absentOpcode_dataProcessing hk]
    · rw [decode_controlFlow hc hk, decodeControlFlow_invalid, absentOpcode_controlFlow hk]
    · rw [decode_special hc hk, decodeSpecial_invalid, absentOpcode_special hk]

end Sys2Proof
end

section
/-! SUPPORT. The unspecified encodings, class by class, each with its reason in the order in which the decoder looks for
them (30_encoding.md R92), and sample words of the test vectors. -/

namespace Sys2Proof

open Machine (absentOpcode reservedBitSet badRegisterCode cpsrLoad)

variable {p : Params} {c : Cond} {w : Word} {why : EncodingReason}

/-- The reason given when the word has a reserved bit set (`a`), a register code that names none (`b`), the CPSR as
`load` destination (`d`), and its condition is not 1111: the reserved field is looked at first (30_encoding.md
R90, R92). -/
def EncodingReason.GivenFor (a b d : Prop) (why : EncodingReason) : Prop :=
  match why with
  | .condition1111 => False
  | .nonzeroReservedField => a
  | .registerCode => ¬ a ∧ b
  | .cpsrAsLoadDestination => ¬ a ∧ d

variable {a b d : Prop}

theorem valid_iff_givenFor {i : Instr} (ha : ¬ a) (hb : ¬ b) (hd : ¬ d) :
    Decoded.valid i = .unspecified why ↔ why.GivenFor a b d := by
  cases why <;> simp [EncodingReason.GivenFor, ha, hb, hd]

theorem invalid_iff_givenFor (ha : ¬ a) (hb : ¬ b) (hd : ¬ d) :
    Decoded.invalid c = .unspecified why ↔ why.GivenFor a b d := by
  cases why <;> simp [EncodingReason.GivenFor, ha, hb, hd]

theorem reserved_iff_givenFor (ha : a) :
    Decoded.unspecified .nonzeroReservedField = .unspecified why ↔ why.GivenFor a b d := by
  cases why <;> simp [EncodingReason.GivenFor, ha]

theorem registerCode_iff_givenFor (ha : ¬ a) (hb : b) (hd : ¬ d) :
    Decoded.unspecified .registerCode = .unspecified why ↔ why.GivenFor a b d := by
  cases why <;> simp [EncodingReason.GivenFor, ha, hb, hd]

theorem cpsrLoad_iff_givenFor (ha : ¬ a) (hb : ¬ b) (hd : d) :
    Decoded.unspecified .cpsrAsLoadDestination = .unspecified why ↔ why.GivenFor a b d := by
  cases why <;> simp [EncodingReason.GivenFor, ha, hb, hd]

/-! ### The forms with reserved or register fields -/

theorem Reg.ofCode5_cpsr {k : BitVec 5} : Reg.ofCode5 k = some .cpsr ↔ k = 0b10000 := by
  revert k; decide

theorem decodeLoad_unspecified : decodeLoad c w = .unspecified why ↔
    why.GivenFor (bit w 23 = false ∧ field w 21 17 ≠ 0) (17 ≤ (field w 4 0).toNat) (field w 4 0 = 0b10000) := by
  rw [← Reg.ofCode5_none (field w 4 0), ← Reg.ofCode5_cpsr (k := field w 4 0)]
  unfold decodeLoad
  split
  · rename_i hz; exact reserved_iff_givenFor hz
  rename_i hz
  split
  · rename_i hr; exact registerCode_iff_givenFor hz hr (by simp [hr])
  rename_i rd hr
  split
  · rename_i hrd; exact cpsrLoad_iff_givenFor hz (by simp [hr]) (hrd ▸ hr)
  · rename_i hrd; split <;> exact valid_iff_givenFor hz (by simp [hr]) (by simp [hr, hrd])

theorem decodeStore_unspecified : decodeStore c w = .unspecified why ↔
    why.GivenFor (bit w 23 = false ∧ field w 21 17 ≠ 0) (17 ≤ (field w 4 0).toNat) False := by
  rw [← Reg.ofCode5_none (field w 4 0)]
  unfold decodeStore
  split
  · rename_i hz; exact reserved_iff_givenFor hz
  rename_i hz
  split
  · rename_i hr; exact registerCode_iff_givenFor hz hr not_false
  · rename_i rs hr; split <;> exact valid_iff_givenFor hz (by simp [hr]) not_false

theorem decodeMov_unspecified : decodeMov c w = .unspecified why ↔
    why.GivenFor (bit w 21 = false ∧ field w 12 10 ≠ 0)
      (bit w 21 = false ∧ (17 ≤ (field w 9 5).toNat ∨ 17 ≤ (field w 4 0).toNat)) False := by
  rw [← Reg.ofCode5_none (field w 9 5), ← Reg.ofCode5_none (field w 4 0)]
  unfold decodeMov
  split
  · rename_i hi; exact valid_iff_givenFor (by simp [hi]) (by simp [hi]) not_false
  rename_i hi
  rw [Bool.not_eq_true] at hi
  split
  · rename_i hz; exact reserved_iff_givenFor ⟨hi, hz⟩
  rename_i hz
  split
  · rename_i rs rd hrs hrd; exact valid_iff_givenFor (hz ·.2) (by simp [hrs, hrd]) not_false
  · rename_i hnone
    refine registerCode_iff_givenFor (hz ·.2) ⟨hi, ?_⟩ not_false
    cases hrs : Reg.ofCode5 (field w 9 5) with
    | none => exact .inl rfl
    | some rs =>
      cases hrd : Reg.ofCode5 (field w 4 0) with
      | none => exact .inr rfl
      | some rd => exact (hnone rs rd hrs hrd).elim

theorem decodeJump_unspecified {link : Bool} : decodeJump link c w = .unspecified why ↔
    why.GivenFor (bit w 23 = false ∧ field w 21 4 ≠ 0) False False := by
  unfold decodeJump
  split
  · rename_i hi; exact valid_iff_givenFor (by simp [hi]) not_false not_false
  rename_i hi
  rw [Bool.not_eq_true] at hi
  split
  · rename_i hz; exact reserved_iff_givenFor ⟨hi, hz⟩
  · rename_i hz; split <;> exact valid_iff_givenFor (hz ·.2) not_false not_false

/-! ### The four classes -/

theorem bit25_eq : bit w 25 = false ↔ (field w 25 24).toNat < 2 := by
  rw [bit_iff_toNat, toNat_bit, toNat_field]
  simp only [Bool.toNat_false]
  omega

theorem decodeDataMovement_unspecified (hk : field w 27 26 = 0b00) : decodeDataMovement c w = .unspecified why ↔
    why.GivenFor (reservedBitSet p w) (badRegisterCode p w) (cpsrLoad w) := by
  have hz : reservedBitSet p w ↔ (field w 25 24).toNat < 2 ∧ bit w 23 = false ∧ field w 21 17 ≠ 0 := by
    simp [reservedBitSet, absentOpcode_dataMovement hk, hk]
  have hr : badRegisterCode p w ↔ (field w 25 24).toNat < 2 ∧ 17 ≤ (field w 4 0).toNat := by
    simp [badRegisterCode, absentOpcode_dataMovement hk, hk]
  have hl : cpsrLoad w ↔ field w 25 24 = 0b00 ∧ field w 4 0 = 0b10000 := by simp [cpsrLoad, hk]
  simp only [hz, hr, hl]
  unfold decodeDataMovement
  split
  next hop => rw [decodeLoad_unspecified]; simp [field_of_toNat hop]
  next hop => rw [decodeStore_unspecified]; simp [field_of_toNat hop]
  next h0 h1 =>
    have hop : ¬ (field w 25 24).toNat < 2 := by grind only
    exact invalid_iff_givenFor (hop ·.1) (hop ·.1) (fun h => h0 (h.1 ▸ rfl))

theorem decodeDataProcessing_unspecified (hk : field w 27 26 = 0b01) : decodeDataProcessing c w = .unspecified why ↔
    why.GivenFor (reservedBitSet p w) (badRegisterCode p w) (cpsrLoad w) := by
  have hz : reservedBitSet p w ↔ field w 25 22 = 0b1101 ∧ bit w 21 = false ∧ field w 12 10 ≠ 0 := by
    simp [reservedBitSet, absentOpcode_dataProcessing hk, hk]
  have hr : badRegisterCode p w ↔ field w 25 22 = 0b1101 ∧ bit w 21 = false ∧
      (17 ≤ (field w 9 5).toNat ∨ 17 ≤ (field w 4 0).toNat) := by
    simp [badRegisterCode, absentOpcode_dataProcessing hk, hk]
  have hl : cpsrLoad w ↔ False := by simp [cpsrLoad, hk]
  simp only [hz, hr, hl]
  by_cases hop : field w 25 22 = 0b1101
  · rw [decodeDataProcessing_mov hop, decodeMov_unspecified]
    simp [hop]
  · unfold decodeDataProcessing
    split
    case h_14 hmov => exact absurd (field_of_toNat hmov) hop
    all_goals exact valid_iff_givenFor (hop ·.1) (hop ·.1) not_false

theorem decodeControlFlow_unspecified (hk : field w 27 26 = 0b10) : decodeControlFlow c w = .unspecified why ↔
    why.GivenFor (reservedBitSet p w) (badRegisterCode p w) (cpsrLoad w) := by
  have hz : reservedBitSet p w ↔
      (field w 25 24).toNat < 2 ∧ bit w 23 = false ∧ field w 21 4 ≠ 0 ∨ field w 25 24 = 0b10 ∧ field w 23 0 ≠ 0 := by
    simp only [reservedBitSet, absentOpcode_controlFlow hk, hk, bit25_eq]
    by_cases hop : field w 25 24 = 3#2 <;> simp [hop]
  have hr : badRegisterCode p w ↔ False := by simp [badRegisterCode, hk]
  have hl : cpsrLoad w ↔ False := by simp [cpsrLoad, hk]
  simp only [hz, hr, hl]
  unfold decodeControlFlow
  split
  next hop => rw [decodeJump_unspecified]; simp [field_of_toNat hop]
  next hop => rw [decodeJump_unspecified]; simp [field_of_toNat hop]
  next hop =>
    split
    · rename_i hne; exact reserved_iff_givenFor (.inr ⟨field_of_toNat hop, hne⟩)
    · rename_i hne; exact valid_iff_givenFor (by simp [field_of_toNat hop, not_not.mp hne]) not_false not_false
  next h0 h1 h2 =>
    have hop : field w 25 24 = 0b11 := field_of_toNat (n := 3) (by have := (field w 25 24).isLt; grind only)
    exact invalid_iff_givenFor (by simp [hop]) not_false not_false

theorem decodeSpecial_unspecified (hk : field w 27 26 = 0b11) : decodeSpecial p c w = .unspecified why ↔
    why.GivenFor (reservedBitSet p w) (badRegisterCode p w) (cpsrLoad w) := by
  have hz : reservedBitSet p w ↔ ¬ absentOpcode p w ∧ field w 21 0 ≠ 0 := by simp [reservedBitSet, hk]
  have hr : badRegisterCode p w ↔ False := by simp [badRegisterCode, hk]
  have hl : cpsrLoad w ↔ False := by simp [cpsrLoad, hk]
  have hop2 : (field w 25 22).toNat = 2 ↔ field w 25 22 = 0b0010 := ⟨field_of_toNat, fun h => h ▸ rfl⟩
  simp only [hz, hr, hl, absentOpcode_special hk, ← hop2]
  simp only [decodeSpecial]
  split
  · rename_i hop; exact invalid_iff_givenFor (fun h => h.1 (.inl hop)) not_false not_false
  rename_i hop
  split
  · rename_i hp; exact invalid_iff_givenFor (fun h => h.1 (.inr hp)) not_false not_false
  rename_i hp
  split
  · rename_i hne; exact reserved_iff_givenFor ⟨not_or.mpr ⟨hop, hp⟩, hne⟩
  · rename_i hne; split <;> exact valid_iff_givenFor (hne ·.2) not_false not_false

theorem decode_unspecified (hc : Cond.ofCode (field w 31 28) = some c) : decode p w = .unspecified why ↔
    why.GivenFor (reservedBitSet p w) (badRegisterCode p w) (cpsrLoad w) := by
  rcases class_cases (field w 27 26) with hk | hk | hk | hk
  · rw [decode_dataMovement hc hk, decodeDataMovement_unspecified hk]
  · rw [decode_dataProcessing hc hk, decodeDataProcessing_unspecified hk]
  · rw [decode_controlFlow hc hk, decodeControlFlow_unspecified hk]
  · rw [decode_special hc hk, decodeSpecial_unspecified hk]

/-- Settles O5: condition 1111 is tested first; after it the class decides, each in the decoder's order. -/
theorem unspecifiedWordsAreTheListedOnes : Obligations.UnspecifiedWordsAreTheListedOnes := by
  intro p w
  have h15 : field w 31 28 = 0b1111 ↔ Cond.ofCode (field w 31 28) = none := (Cond.ofCode_none _).symm
  simp only [Ne, h15]
  cases hc : Cond.ofCode (field w 31 28) with
  | none => simp [decode_of_no_condition hc]
  | some c => simp [decode_unspecified hc, EncodingReason.GivenFor]

end Sys2Proof
end

section
/-! SUPPORT. Reset, the placing of one word, and the launch: what the image and the data words leave and where they
stand (70_reset_and_hazards.md R212; 10_state.md R39). -/

namespace Sys2Proof.Machine

variable {s t : State} {p : Params} {a : Word}

/-! ### Sample words and reset -/

/-- Settles O6: the decoder evaluated on thirteen closed words. -/
theorem sampleWordsDecode : Obligations.SampleWordsDecode := by
  unfold Obligations.SampleWordsDecode
  decide

/-- Settles O52: the fields of the reset state, and that of every register by its name. -/
theorem resetValues : Obligations.ResetValues := by
  refine ⟨rfl, rfl, rfl, rfl, rfl, fun r => ?_, fun k => rfl⟩
  cases r with
  | r i => simp [State.reset]
  | _ => rfl

/-! ### The word placed for the next fetch -/

theorem aligned_alignDown (p : Params) (a : Word) : aligned p (alignDown p a) = true := by
  have hlt : a.toNat - a.toNat % p.wordUnits < 2 ^ 32 := lt_of_le_of_lt (Nat.sub_le ..) a.isLt
  rw [aligned_iff, alignDown, BitVec.toNat_ofNat, Nat.mod_eq_of_lt hlt]
  exact Nat.sub_mod_eq_zero_of_mod_eq (Nat.mod_mod ..).symm

theorem holdsWord_self (rs : List Region) (p : Params) (a : Word) :
    holdsWord ({ base := a.toNat, size := p.wordUnits } :: rs) p a = true := by
  simp [holdsWord]

theorem withPopulated_kept (p : Params) (a : Word) :
    withPopulated p a = { p with populated := (withPopulated p a).populated } := by
  unfold withPopulated
  split <;> rfl

/-- Where memory exists has no say in what a word reads as. -/
theorem readWord_withPopulated (m : Memory) (p : Params) (a b : Word) :
    Memory.readWord m (withPopulated p b) a = Memory.readWord m p a := by
  rw [withPopulated_kept]
  rfl

@[simp] theorem withPopulated_unified (p : Params) (a : Word) : (withPopulated p a).unified = p.unified := by
  rw [withPopulated_kept]

theorem populatedAt_withPopulated (p : Params) (a : Word) : populatedAt (withPopulated p a) a = true := by
  unfold withPopulated
  split
  · assumption
  · exact holdsWord_self ..

/-- Settles O57: the address is aligned, populated and unmarked by what `withFetchWord` sees to, and the word placed
there reads back from the memory that fetch sees. -/
theorem placedWordIsFetched : Obligations.PlacedWordIsFetched := by
  intro s nbits w
  refine ⟨fetch_ok.mpr ⟨?aligned, populatedAt_withPopulated .., ?marked, ?word⟩, rfl⟩
  case aligned =>
    simp only [State.withFetchWord]
    rw [withPopulated_kept]
    exact aligned_alignDown ..
  case marked => simp [State.fetchExcluded, State.withFetchWord]
  case word =>
    have hword := readWord_putFetchWord_self s (alignDown s.params s.pc) (tableWord nbits w)
    unfold State.fetchMemory at hword ⊢
    simp only [State.withFetchWord, putFetchWord_params, withPopulated_unified, readWord_withPopulated] at hword ⊢
    exact hword

/-! ### When there is a launch -/

theorem launchable_iff {n : Nat} {data : List (Word × Word)} : launchable p n data = true ↔
    p.wf = true ∧ (∀ k, k < n → populatedAt p (imageAddress p k) = true) ∧
      ∀ d ∈ data, aligned p d.1 = true ∧ populatedAt p d.1 = true := by
  simp [launchable, and_assoc]

/-- Settles O58: the launch answers a state exactly when its arguments are launchable. -/
theorem launchNeedsPopulatedAddresses : Obligations.LaunchNeedsPopulatedAddresses := by
  intro p draw image data
  simp only [launch_some, exists_and_left, exists_eq', and_true, launchable_iff, aligned_iff]
  rfl

/-! ### Image and data words placed one by one -/

/-- What the placing of every word of the image keeps, the placing of the image keeps. -/
theorem putImage_keeps {P : State → Prop} {image : List Word} :
    ∀ {s : State} {k : Nat}, P s →
      (∀ t j w, t.params = s.params → k ≤ j → j < k + image.length → P t →
        P (t.putFetchWord (imageAddress s.params j) w)) →
      P (s.putImage k image) := by
  induction image with
  | nil => exact fun hs _ => hs
  | cons w rest ih =>
    intro s k hs hstep
    refine ih (hstep s k w rfl le_rfl (by simp) hs) fun t j w hparams hj hlt => ?_
    rw [putFetchWord_params] at hparams ⊢
    refine hstep t j w hparams (by omega) ?_
    rw [List.length_cons]
    omega

/-- What the writing of every data word keeps, the writing of the data keeps. -/
theorem putData_keeps {P : State → Prop} {data : List (Word × Word)} :
    ∀ {s : State}, P s →
      (∀ t, ∀ d ∈ data, t.params = s.params → P t → P { t with mem := Memory.writeWord t.mem s.params d.1 d.2 }) →
      P (s.putData data) := by
  induction data with
  | nil => exact fun hs _ => hs
  | cons d rest ih =>
    intro s hs hstep
    exact ih (hstep s d (.head _) rfl hs) fun t d hd => hstep t d (.tail _ hd)

/-- The words of an image are aligned if its start is (10_state.md R39). -/
theorem aligned_imageAddress (hp : p.wf = true) (k : Nat) : aligned p (imageAddress p k) = true := by
  have hreset : p.resetPc.toNat % p.wordUnits = 0 := by
    simp only [Params.wf, Bool.and_eq_true, beq_iff_eq] at hp
    exact hp.2
  rw [aligned_iff, imageAddress, BitVec.toNat_add, BitVec.toNat_ofNat]
  unfold Params.wordUnits at *
  cases hu : p.unit <;> simp only [hu] at * <;> omega

/-! ### The launched state in order -/

/-- The parameters are `p` and both memories are in canonical form within the address space. -/
structure MemoriesInOrder (p : Params) (s : State) : Prop where
  params : s.params = p
  mem_canonical : Memory.wf s.mem = true
  mem_in_space : ∀ c ∈ s.mem, c.1 < cellCount p
  imem_canonical : Memory.wf s.imem = true
  imem_in_space : ∀ c ∈ s.imem, c.1 < cellCount p

theorem writeWord_in_space {m : Memory} (ha : aligned p a = true) (hm : ∀ c ∈ m, c.1 < cellCount p) (v : Word) :
    ∀ c ∈ Memory.writeWord m p a v, c.1 < cellCount p := by
  intro c hc
  obtain ⟨-, hlt⟩ | hold := Memory.mem_writeWord hc
  · exact lt_of_lt_of_le hlt (cellBase_lt ha)
  · exact hm c hold

theorem MemoriesInOrder.writeData (hs : MemoriesInOrder p s) (ha : aligned p a = true) (v : Word) :
    MemoriesInOrder p { s with mem := Memory.writeWord s.mem s.params a v } := by
  obtain ⟨rfl, hwf, hspace, hiwf, hispace⟩ := hs
  exact ⟨rfl, Memory.wf_writeWord _ _ _ _ hwf, writeWord_in_space ha hspace v, hiwf, hispace⟩

theorem MemoriesInOrder.putFetchWord (hs : MemoriesInOrder p s) (ha : aligned p a = true) (w : Word) :
    MemoriesInOrder p (s.putFetchWord a w) := by
  unfold State.putFetchWord
  split
  · exact hs.writeData ha w
  · obtain ⟨rfl, hwf, hspace, hiwf, hispace⟩ := hs
    exact ⟨rfl, hwf, hspace, Memory.wf_writeWord _ _ _ _ hiwf, writeWord_in_space ha hispace w⟩

theorem MemoriesInOrder.putImage (hs : MemoriesInOrder p s) (hp : p.wf = true) (k : Nat) (image : List Word) :
    MemoriesInOrder p (s.putImage k image) :=
  putImage_keeps hs fun _ j w _ _ _ ht => ht.putFetchWord (hs.params ▸ aligned_imageAddress hp j) w

theorem MemoriesInOrder.putData (hs : MemoriesInOrder p s) {data : List (Word × Word)}
    (hd : ∀ d ∈ data, aligned p d.1 = true) : MemoriesInOrder p (s.putData data) :=
  putData_keeps hs fun _ d hmem hparams ht => by
    rw [← hparams]
    exact ht.writeData (hd d hmem) d.2

/-- Before any store has run, order is that of the memories and the parameters. -/
theorem MemoriesInOrder.inv (hs : MemoriesInOrder p s) (hp : p.wf = true) (hst : s.stored = []) : s.Inv := by
  obtain ⟨rfl, hwf, hspace, hiwf, hispace⟩ := hs
  exact ⟨hwf, hspace, hiwf, hispace, hst ▸ List.Pairwise.nil, hst ▸ nofun, hp⟩

/-! ### The bytes that the launch leaves -/

theorem outside_of_not_inWord {k : Nat} (h : ¬ inWord p a k) : k < cellBase p a ∨ cellBase p a + 4 ≤ k := by
  unfold inWord at h
  omega

theorem get_mem_putImage {image : List Word} {k j : Nat}
    (h : s.params.unified = true → ∀ i, j ≤ i → i < j + image.length → ¬ inWord s.params (imageAddress s.params i) k) :
    Memory.get (s.putImage j image).mem k = Memory.get s.mem k := by
  refine putImage_keeps (P := fun t => Memory.get t.mem k = Memory.get s.mem k) rfl fun t i w hparams hj hlt hget =>
    (get_mem_putFetchWord _ _ _ _ fun hu => ?_).trans hget
  rw [hparams] at hu ⊢
  exact outside_of_not_inWord (h hu i hj hlt)

theorem get_imem_putImage {image : List Word} {k j : Nat}
    (h : s.params.unified = false → ∀ i, j ≤ i → i < j + image.length → ¬ inWord s.params (imageAddress s.params i) k) :
    Memory.get (s.putImage j image).imem k = Memory.get s.imem k := by
  refine putImage_keeps (P := fun t => Memory.get t.imem k = Memory.get s.imem k) rfl fun t i w hparams hj hlt hget =>
    (get_imem_putFetchWord _ _ _ _ fun hu => ?_).trans hget
  rw [hparams] at hu ⊢
  exact outside_of_not_inWord (h hu i hj hlt)

theorem get_mem_putData {data : List (Word × Word)} {k : Nat} (h : ∀ d ∈ data, ¬ inWord s.params d.1 k) :
    Memory.get (s.putData data).mem k = Memory.get s.mem k := by
  exact putData_keeps (P := fun t => Memory.get t.mem k = Memory.get s.mem k) rfl fun t d hd _ hget =>
    (Memory.get_writeWord_outside _ _ _ _ _ (outside_of_not_inWord (h d hd))).trans hget

/-- The state that the image and the data words of a launch are placed in. -/
def launchBase (p : Params) (draw : State) (n : Nat) : State :=
  { draw with pc := p.resetPc, halted := false, stored := [], params := { p with text := imageText p n } }

theorem launch_eq {draw : State} {image : List Word} {data : List (Word × Word)}
    (h : State.launch p draw image data = some t) : launchable p image.length data = true ∧
      t = ((launchBase p draw image.length).putImage 0 image).putData data := by
  obtain ⟨hl, rfl⟩ := launch_some.mp h
  exact ⟨hl, rfl⟩

/-- Settles O59: each word placed keeps the memories in order and leaves the bytes outside it; the rest is as it was put
before the first word. -/
theorem launchedStateIsInOrder : Obligations.LaunchedStateIsInOrder := by
  intro p draw t image data hwf hspace hiwf hispace h inImage inData
  obtain ⟨hl, rfl⟩ := launch_eq h
  obtain ⟨hp, -, hdata⟩ := launchable_iff.mp hl
  have horder : MemoriesInOrder _ (launchBase p draw image.length) := ⟨rfl, hwf, hspace, hiwf, hispace⟩
  have hinv := ((horder.putImage hp 0 image).putData fun d hd => (hdata d hd).1).inv hp (by simp [launchBase])
  refine ⟨hinv, by simp [launchBase], by simp [launchBase], by simp [launchBase], fun r hr => ?registers,
    by simp [launchBase], fun k hd hi => ?mem, fun k hi => ?imem⟩
  case registers =>
    cases r with
    | pc => exact absurd (.head _) hr
    | _ => simp [launchBase]
  case mem =>
    rw [get_mem_putData (by rw [putImage_params]; exact fun d hmem hin => hd ⟨d, hmem, hin⟩)]
    exact get_mem_putImage fun hu i _ hlt hin => hi hu ⟨i, by omega, hin⟩
  case imem =>
    rw [putData_imem]
    exact get_imem_putImage fun hu i _ hlt hin => hi hu ⟨i, by omega, hin⟩

/-! ### The image and the data words where they stand -/

/-- Two words of an image that fits the address space have different addresses. -/
theorem imageAddress_ne {i j n : Nat} (hn : n * p.wordUnits ≤ 2 ^ 32) (hi : i < n) (hj : j < n) (hij : i ≠ j) :
    imageAddress p i ≠ imageAddress p j := by
  intro heq
  have heq := congrArg BitVec.toNat heq
  simp only [imageAddress, BitVec.toNat_add, BitVec.toNat_ofNat] at heq
  have := p.resetPc.isLt
  unfold Params.wordUnits at *
  cases hu : p.unit <;> simp only [hu] at * <;> omega

theorem readWord_putFetchWord_of_ne {b : Word} (ha : aligned s.params a = true) (hb : aligned s.params b = true)
    (hne : b ≠ a) (w : Word) : Memory.readWord (s.putFetchWord a w).fetchMemory s.params b =
      Memory.readWord s.fetchMemory s.params b := by
  unfold State.fetchMemory
  rw [putFetchWord_params]
  unfold State.putFetchWord
  cases s.params.unified with
  | true => exact Memory.readWord_writeWord_of_ne _ w ha hb hne
  | false => exact Memory.readWord_writeWord_of_ne _ w ha hb hne

/-- A word of the image is not touched by the words placed after it. -/
theorem readWord_putImage_of_lt {image : List Word} {i j : Nat} (hp : s.params.wf = true)
    (hn : (j + image.length) * s.params.wordUnits ≤ 2 ^ 32) (hi : i < j) :
    Memory.readWord (s.putImage j image).fetchMemory s.params (imageAddress s.params i) =
      Memory.readWord s.fetchMemory s.params (imageAddress s.params i) := by
  refine putImage_keeps (P := fun t => Memory.readWord t.fetchMemory s.params (imageAddress s.params i) =
    Memory.readWord s.fetchMemory s.params (imageAddress s.params i)) rfl fun t k w hparams hj hlt hread =>
    Eq.trans ?_ hread
  rw [← hparams] at hp hn ⊢
  exact readWord_putFetchWord_of_ne (aligned_imageAddress hp k) (aligned_imageAddress hp i)
    (imageAddress_ne hn (by omega) hlt (by omega)) w

theorem readWord_putImage {image : List Word} {w : Word} : ∀ {s : State} {j k : Nat}, s.params.wf = true →
    (j + image.length) * s.params.wordUnits ≤ 2 ^ 32 → image[k]? = some w →
    Memory.readWord (s.putImage j image).fetchMemory s.params (imageAddress s.params (j + k)) = w := by
  induction image with
  | nil => exact fun _ _ hk => absurd hk (by simp)
  | cons v rest ih =>
    intro s j k hp hn hk
    have hparams := putFetchWord_params s (imageAddress s.params j) v
    rw [List.length_cons, ← Nat.add_assoc, Nat.add_right_comm] at hn
    rw [State.putImage]
    cases k with
    | zero =>
      have hvw : v = w := by simpa using hk
      have hrest := readWord_putImage_of_lt (s := s.putFetchWord (imageAddress s.params j) v) (image := rest) (i := j)
        (j := j + 1) (by rwa [hparams]) (by rwa [hparams]) (by omega)
      rw [hparams] at hrest
      exact hrest.trans ((readWord_putFetchWord_self ..).trans hvw)
    | succ k =>
      have hrest := ih (s := s.putFetchWord (imageAddress s.params j) v) (j := j + 1) (k := k) (by rwa [hparams])
        (by rwa [hparams]) hk
      rw [hparams, Nat.add_right_comm] at hrest
      exact hrest

theorem readWord_putData_of_ne {data : List (Word × Word)} (ha : aligned s.params a = true)
    (hd : ∀ d ∈ data, aligned s.params d.1 = true) (hne : ∀ d ∈ data, d.1 ≠ a) :
    Memory.readWord (s.putData data).mem s.params a = Memory.readWord s.mem s.params a := by
  exact putData_keeps (P := fun t => Memory.readWord t.mem s.params a = Memory.readWord s.mem s.params a) rfl
    fun t d hmem _ hread =>
      (Memory.readWord_writeWord_of_ne _ d.2 (hd d hmem) ha (hne d hmem).symm).trans hread

/-- The last data word named at an address stands (log 22). -/
theorem readWord_putData {data : List (Word × Word)} {v : Word} : ∀ {s : State} {j : Nat},
    (∀ d ∈ data, aligned s.params d.1 = true) → data[j]? = some (a, v) → (∀ d ∈ data.drop (j + 1), d.1 ≠ a) →
    Memory.readWord (s.putData data).mem s.params a = v := by
  induction data with
  | nil => exact fun _ hj => absurd hj (by simp)
  | cons d rest ih =>
    intro s j hd hj hlater
    have hrest : ∀ d ∈ rest, aligned s.params d.1 = true := fun d hmem => hd d (.tail _ hmem)
    cases j with
    | zero =>
      cases hj
      exact (readWord_putData_of_ne (s := { s with mem := Memory.writeWord s.mem s.params a v }) (hd _ (.head _)) hrest
        hlater).trans (Memory.readWord_writeWord_self ..)
    | succ j => exact ih (s := { s with mem := Memory.writeWord s.mem s.params d.1 d.2 }) hrest hj hlater

/-- Writing data words elsewhere leaves a word of the memory fetch sees, and leaves all of it when the memory is not
unified. -/
theorem readWord_fetchMemory_putData {data : List (Word × Word)} (ha : aligned s.params a = true)
    (hd : ∀ d ∈ data, aligned s.params d.1 = true) (hne : s.params.unified = true → ∀ d ∈ data, d.1 ≠ a) :
    Memory.readWord (s.putData data).fetchMemory s.params a = Memory.readWord s.fetchMemory s.params a := by
  unfold State.fetchMemory
  rw [putData_params]
  cases hu : s.params.unified with
  | true => exact readWord_putData_of_ne ha hd (hne hu)
  | false => rw [putData_imem]; rfl

/-- Every word of the image touches the program text (20_memory.md R63; log 10). -/
theorem touchesWord_imageText {n k : Nat} (hk : k < n) : touchesWord (imageText p n) p (imageAddress p k) = true := by
  have hpos : 0 < p.wordUnits := by unfold Params.wordUnits; cases p.unit <;> decide
  simp only [touchesWord, imageText, List.any_map, List.any_eq_true, List.mem_range]
  exact ⟨k, hk, by simp [hpos]⟩

/-- Settles O60: the image word stands by `readWord_putImage`, its address is closed to data because it touches the text
made of the image's addresses, and a data word stands by `readWord_putData`. -/
theorem launchedImageIsTheProgramText : Obligations.LaunchedImageIsTheProgramText := by
  intro p draw t image data h
  obtain ⟨hl, rfl⟩ := launch_eq h
  obtain ⟨hp, himage, hdata⟩ := launchable_iff.mp hl
  have hparams : (((launchBase p draw image.length).putImage 0 image).putData data).params =
      { p with text := imageText p image.length } := by simp [launchBase]
  have hbase : ((launchBase p draw image.length).putImage 0 image).params =
      { p with text := imageText p image.length } := by simp [launchBase]
  rw [hparams]
  refine ⟨fun k w hfit hk => ⟨fun hne => ?fetched, fun hu => ?closed⟩, fun j a v hj hlater => ?data⟩
  case fetched =>
    have hplaced := readWord_putImage (s := launchBase p draw image.length) (j := 0) hp (by rwa [Nat.zero_add]) hk
    have hkept := readWord_fetchMemory_putData (s := (launchBase p draw image.length).putImage 0 image)
      (a := imageAddress p k) (data := data) (by rw [hbase]; exact aligned_imageAddress hp k)
      (by rw [hbase]; exact fun d hd => (hdata d hd).1) (by rw [hbase]; exact hne)
    rw [hbase] at hkept
    rw [Nat.zero_add] at hplaced
    exact hkept.trans hplaced
  case closed =>
    have hlt : k < image.length := (List.getElem?_eq_some_iff.mp hk).1
    refine dataCheck_programText ?_ ?_ (dataExcluded_iff.mpr ?_) <;> rw [hparams]
    · exact aligned_imageAddress hp k
    · exact himage k hlt
    · exact ⟨hu, touchesWord_imageText hlt⟩
  case data =>
    have hplaced := readWord_putData (s := (launchBase p draw image.length).putImage 0 image)
      (by rw [hbase]; exact fun d hd => (hdata d hd).1) hj hlater
    rwa [hbase] at hplaced

end Sys2Proof.Machine
end
